-- ==== Sys2Proof/Word.lean ====
section
/-! DEFINITION. The words of the OWM (spec/00_scope.md R7, R8): a register byte, a device address, a scratchpad. -/

namespace Sys2Proof

/-- A host register, a command or one byte on the wire: 8 bits (R7). -/
abbrev Byte := BitVec 8

/-- A ROM address, 8 bytes (R7): bit `i` here is the bit the spec numbers `n = i + 1`, the order in which
the bits cross the wire, and byte `k` is bits `8k+7 .. 8k` (R9). -/
abbrev Addr := BitVec 64

/-- A scratchpad, 9 bytes (R7): byte `k` is bits `8k+7 .. 8k`, the order in which the bits cross the wire (R87). -/
abbrev Scratchpad := BitVec 72

end Sys2Proof
end

