-- ==== Sys2Proof/Syntax.lean ====
section
/-! DEFINITION. The instructions: one constructor for each row of spec/opcode_table.json. No row has an operand
field (spec/30_encoding.md R110, R115), so no constructor has an argument. -/

namespace Sys2Proof

/-- The 13 host commands of format CMD8 (R112) and the 4 command bytes of format WIRE8 (R117). -/
inductive Instr where
  /-- OWRST, reset and presence detect (R149) -/
  | owrst
  /-- OWBIT, single-bit exchange (R150) -/
  | owbit
  /-- OWBYTE, byte exchange (R152) -/
  | owbyte
  /-- SRCHRST, restart the search (R187) -/
  | srchrst
  /-- SRCHNEXT, one search pass (R188) -/
  | srchnext
  /-- ENUM, fill the Device Directory (R195) -/
  | enum
  /-- DIRLD, load one directory entry into ROM (R200) -/
  | dirld
  /-- SELECT, address one device (R222) -/
  | select
  /-- CONVT, start a temperature conversion (R225) -/
  | convt
  /-- RDTEMP, read the scratchpad and decode it (R230) -/
  | rdtemp
  /-- CRCCLR, clear the CRC accumulator (R255) -/
  | crcclr
  /-- CRCBYTE, accumulate one byte (R256) -/
  | crcbyte
  /-- DECODE, validate and decode the scratchpad buffer (R257) -/
  | decode
  /-- SEARCH ROM on the wire (R117) -/
  | searchRom
  /-- MATCH ROM on the wire (R117) -/
  | matchRom
  /-- CONVERT T on the wire (R117) -/
  | convertT
  /-- READ SCRATCHPAD on the wire (R117) -/
  | readScratchpad
deriving DecidableEq, Repr

end Sys2Proof
end

