-- ==== Sys2Proof/Decode.lean ====
section
/-! DEFINITION. Decoding one byte, in each of the two formats, and encoding it again (spec/30_encoding.md R110-R121).
A command is exactly one byte and a decoder matches the whole of it (R110, R112). -/

namespace Sys2Proof

/-- The two formats of the opcode table. -/
inductive Format where
  /-- a byte a host writes to CMD (R110) -/
  | cmd8
  /-- a command byte the engine puts on the line (R117) -/
  | wire8
deriving DecidableEq, Repr

/-- Why a byte is no instruction of a format. -/
inductive DecodeError where
  /-- one of the 243 byte values not in R112 (R114) -/
  | illegalOpcode (v : Byte)
  /-- a byte that is none of the four of R117 -/
  | notWireCommand (v : Byte)
deriving DecidableEq, Repr

/-- The opcode table read as CMD8: the 13 legal opcodes of R112, every other value illegal by name (R114). -/
def decodeCmd (v : Byte) : Except DecodeError Instr :=
  match v with
  | 0x01#8 => .ok .owrst
  | 0x02#8 => .ok .owbit
  | 0x03#8 => .ok .owbyte
  | 0x10#8 => .ok .srchrst
  | 0x11#8 => .ok .srchnext
  | 0x12#8 => .ok .enum
  | 0x13#8 => .ok .dirld
  | 0x20#8 => .ok .select
  | 0x21#8 => .ok .convt
  | 0x22#8 => .ok .rdtemp
  | 0x30#8 => .ok .crcclr
  | 0x31#8 => .ok .crcbyte
  | 0x32#8 => .ok .decode
  | v => .error (.illegalOpcode v)

/-- The four wire command bytes of R117. -/
def decodeWire (v : Byte) : Except DecodeError Instr :=
  match v with
  | 0xF0#8 => .ok .searchRom
  | 0x55#8 => .ok .matchRom
  | 0x44#8 => .ok .convertT
  | 0xBE#8 => .ok .readScratchpad
  | v => .error (.notWireCommand v)

/-- Decoding by format: a host write decodes against the CMD8 rows only (R121). -/
def decode (f : Format) (v : Byte) : Except DecodeError Instr :=
  match f with
  | .cmd8 => decodeCmd v
  | .wire8 => decodeWire v

/-- The format of an instruction's row. -/
def Instr.format (i : Instr) : Format :=
  match i with
  | .owrst | .owbit | .owbyte | .srchrst | .srchnext | .enum | .dirld | .select | .convt | .rdtemp
  | .crcclr | .crcbyte | .decode => .cmd8
  | .searchRom | .matchRom | .convertT | .readScratchpad => .wire8

/-- The byte of an instruction, from the tables of R112 and R117. -/
def encode (i : Instr) : Byte :=
  match i with
  | .owrst => 0x01
  | .owbit => 0x02
  | .owbyte => 0x03
  | .srchrst => 0x10
  | .srchnext => 0x11
  | .enum => 0x12
  | .dirld => 0x13
  | .select => 0x20
  | .convt => 0x21
  | .rdtemp => 0x22
  | .crcclr => 0x30
  | .crcbyte => 0x31
  | .decode => 0x32
  | .searchRom => 0xF0
  | .matchRom => 0x55
  | .convertT => 0x44
  | .readScratchpad => 0xBE

/-- The row of the opcode table that matches a byte, in whichever format has one: no byte matches a row of each. -/
def decodeAnyFormat (v : Byte) : Option (Format × Instr) :=
  match decode .cmd8 v with
  | .ok i => some (.cmd8, i)
  | .error _ =>
    match decode .wire8 v with
    | .ok i => some (.wire8, i)
    | .error _ => none

/-- The instruction an opcode-table word stands for: one byte, decoded in its row's format. -/
def decodeTableWord (nbits w : Nat) : Option Instr :=
  if nbits = 8 ∧ w < 256 then (decodeAnyFormat (BitVec.ofNat 8 w)).map (·.2) else none

end Sys2Proof
end

