-- ==== Sys2Proof/Config.lean ====
section
/-! DEFINITION. What an implementation fixes (the parameters of spec/00_scope.md R6) and the values the spec leaves
free. A free value is an opaque constant without a body: nothing can be proved of what it is. -/

namespace Sys2Proof

/-- How the engine's slots are produced (R6, `REALISATION`; decision D34). -/
inductive Realisation where
  /-- a dedicated engine: no host interrupt state is touched -/
  | peripheral
  /-- the host CPU executes the slots with interrupts masked (41_transport.md R148) -/
  | bitBang
deriving DecidableEq, Repr

/-- The parameters of R6. Times are whole microseconds, `tConv` too (log entry 18). -/
structure Params where
  maxDevices : Nat
  enumPassLimit : Nat
  fClk : Nat
  tRstl : Nat
  tPds : Nat
  tRsth : Nat
  tLow1 : Nat
  tMsr : Nat
  tLow0 : Nat
  tRec : Nat
  tSlot : Nat
  tConv : Nat
  realisation : Realisation
  owmBase : Nat
  irqLine : Nat
deriving DecidableEq, Repr

/-- The number of family allow-list slots, fixed at 4 (R6, `N_FAM`; D18). -/
def Config.nFam : Nat := 4

/-- The defaults of R6, which the vectors of 95_test_vectors.md assume. They are no claim about a chip, and the
machine does not use them: tests and witnesses do. Three parameters have no default: R6 leaves `F_CLK` OPEN and gives
it no unit, and the platform parameters `OWM_BASE` and `IRQ_LINE` are open. DESIGN CHOICE (log entry 27): `F_CLK` is a
whole number, 1 here, and the other two are 0 here; nothing reads any of the three. -/
def Params.defaults : Params :=
  { maxDevices := 4, enumPassLimit := 255, fClk := 1, tRstl := 480, tPds := 70, tRsth := 410, tLow1 := 6, tMsr := 9,
    tLow0 := 60, tRec := 10, tSlot := 70, tConv := 750000, realisation := .peripheral, owmBase := 0, irqLine := 0 }

/-- The raw choices behind the parameters, one for each row of R6. R6: "The source fixes none of their values."
FREE VALUE (log entry 3). -/
opaque Config.rawParam : Nat → Nat

/-- Parameters from raw choices, so that the constraints of R6 hold whatever the choices are and every admissible
set of values comes from some choices (log entry 3). -/
def Params.ofRaw (raw : Nat → Nat) : Params :=
  let low1 := raw 6 + 1
  let msr := raw 7 + 1
  let low0 := low1 + msr + 1 + raw 8
  let rec' := raw 9 + 1
  { maxDevices := raw 0 % 255 + 1, enumPassLimit := raw 1 % 255 + 1, fClk := raw 2 + 1
    tRstl := raw 3 + 1, tPds := raw 4 + 1, tRsth := raw 5 + 1
    tLow1 := low1, tMsr := msr, tLow0 := low0, tRec := rec', tSlot := low0 + rec' + raw 10
    tConv := raw 11 + 1, realisation := if raw 12 % 2 = 0 then .peripheral else .bitBang
    owmBase := raw 13, irqLine := raw 14 }

/-- The parameters of this machine: any that R6 admits. -/
def Config.params : Params := Params.ofRaw Config.rawParam

/-- The value of the `n`-th line sample that nothing else answers (45_bus_environment.md R280: "Every `sample()`
returns a bit chosen by the bus environment"). FREE VALUE (log entry 2). -/
opaque Config.freeDraw : Nat → Bool

/-- The extra released time before the `n`-th slot (41_transport.md R141: "`g` is not bounded above: it is a draw in
the model"). FREE VALUE (log entry 9). -/
opaque Config.freeGap : Nat → Nat

/-- When the `k`-th access of a launched program reaches the OWM while a command runs, in engine events, where the
launch does not say (60_exceptions.md R318; log entry 1). FREE VALUE. -/
opaque Config.freeArrival : Nat → Nat

/-- SPATH after reset (10_state.md R44: "SPATH unspecified"). FREE VALUE (log entry 5). -/
opaque Config.spathReset : Addr

/-- DIR[i] while no ENUM has written it (10_state.md R48: "Reset value: unspecified"). FREE VALUE (log entry 6). -/
opaque Config.dirReset : Nat → Addr

/-- HOST_I at launch (10_state.md R54): the host CPU's own flag. FREE VALUE (log entry 4). -/
opaque Config.hostI : Bool

end Sys2Proof
end

