-- ==== Sys2Proof/HostSyntax.lean ====
section
/-! DEFINITION. The host's side of the interface: the registers by name (spec/10_state.md R30), one host access
(spec/20_memory.md R80), and the lines of a host program (spec/30_encoding.md R119, R120). -/

namespace Sys2Proof

/-- The implemented registers of R30 by name. -/
inductive Reg where
  | cmd
  | status
  | result
  | ctrl
  | data
  | crc
  | sld
  | dirIdx
  | dirCnt
  | famEn
  | tempL
  | tempH
  | fam (i : Fin 4)
  | rom (k : Fin 8)
  | spad (k : Fin 9)
  | fcnt (i : Fin 4)
deriving DecidableEq, Repr

/-- The access widths the interface does not have (R90). -/
inductive WideWidth where
  | bits16
  | bits32
deriving DecidableEq, Repr

/-- One host access, the address given as the offset from `OWM_BASE` (R80; log entry 16). `wait` is the polling
loop of R120: it ends at a read of STATUS with BUSY = 0. -/
inductive HostOp where
  /-- `RD`: read one byte -/
  | rd (a : Byte)
  /-- `WR`: write one byte -/
  | wr (a : Byte) (v : Byte)
  /-- `WAIT`: repeat `RD STATUS` until BUSY = 0 -/
  | wait
  /-- an access the interface does not have: wider than one byte (R90) -/
  | wide (w : WideWidth) (a : Byte)
deriving DecidableEq, Repr

/-- A host access still to come, and when it reaches the OWM while a command runs: `some n` after `n` more engine
events, `none` not before the engine is Idle, as the last poll of a WAIT, or as a host that waits for IRQ (log entry
1). While the engine is Idle the next access is performed at once. -/
structure Pending where
  arrive : Option Nat
  op : HostOp
deriving DecidableEq, Repr

/-- A register as a program line names it: by name, or a raw address `@0xNN` (R119). -/
inductive RegRef where
  | named (r : Reg)
  | raw (a : Byte)
deriving DecidableEq, Repr

/-- A line of a host program (R119) or a pseudo-instruction (R120). -/
inductive Line where
  | wr (r : RegRef) (v : Byte)
  | rd (r : RegRef)
  | cmd (m : Instr)
  | wait
  | owWriteBit (b : Bool)
  | owReadBit
  | owWriteByte (b : Byte)
  | owReadByte
  | setRom (a0 a1 a2 a3 a4 a5 a6 a7 : Byte)
  | ack
  | run (m : Instr)
deriving DecidableEq, Repr

end Sys2Proof
end

