-- ==== Sys2Proof/Machine/State.lean ====
section
/-! DEFINITION. The state of the OWM (spec/10_state.md), of the line and of the bus environment
(spec/45_bus_environment.md), all of it plain data, and the state after power-on reset (spec/70_reset_and_hazards.md
R330). -/

namespace Sys2Proof.Machine

/-- Why the machine could stop with a fault. The OWM has no exceptions and its step never faults (60_exceptions.md
R305; 93_implementation_defined.md: "No item of this spec is a fault"). -/
inductive Fault where
  /-- A slot that never ends (93 S18, outside the spec, which assumes every slot ends). Raised by nobody. Safe. -/
  | slotNeverEnds
deriving DecidableEq, Repr

/-- Why a step gives no meaning. -/
inductive Refusal where
  /-- An instruction without a meaning yet. Raised by an arm of `exec` only. Safe. -/
  | notModelled (mnemonic : String)
  /-- A host access wider than one byte. Raised by the step that meets one (20_memory.md R90: "A model refuses such an
  access, and it does not split it"). Safe. -/
  | wideAccess
deriving DecidableEq, Repr

/-- The result codes of 60_exceptions.md R301. The codes 0xA..0xF are never produced, so they have no constructor. -/
inductive ResultCode where
  | ok
  | noPresence
  | lineStuck
  | searchDataError
  | crcError
  | rangeError
  | illegalCmd
  | indexError
  | exhausted
  | passLimit
deriving DecidableEq, Repr

/-- The search cursor (10_state.md R44): `sld` is 0..64, `spath` bit `n - 1` is the spec's `SPATH[n]`. -/
structure Cursor where
  sld : Nat
  sdone : Bool
  spath : Addr
deriving DecidableEq, Repr

/-- What a command commits to and what a soft reset restores: the host-visible registers and the internal stores of
10_state.md, each held once. STATUS, RESULT, CTRL and SLD are assembled from these fields when read. -/
structure Regs where
  /-- CMD (R32) -/
  cmd : Byte
  /-- STATUS.DONE (R33) -/
  done : Bool
  /-- STATUS.PRES (R33) -/
  pres : Bool
  /-- STATUS.OVR (R33) -/
  ovr : Bool
  /-- STATUS.CAP (R33) -/
  cap : Bool
  /-- RESULT.CODE (R34) -/
  result : ResultCode
  /-- CTRL.IE (R35) -/
  ie : Bool
  /-- DATA (R36) -/
  data : Byte
  /-- CRC (R37) -/
  crc : Byte
  /-- SLD, STATUS.SDONE and SPATH (R38, R44) -/
  cursor : Cursor
  /-- DIRIDX (R39) -/
  dirIdx : Byte
  /-- DIRCNT (R40) -/
  dirCnt : Byte
  /-- FAMEN bits 3:0 (R41) -/
  famEn : BitVec 4
  /-- TEMP = TEMPH ++ TEMPL (R42) -/
  temp : BitVec 16
  /-- FAM0..FAM3 (R43) -/
  fam : Vector Byte 4
  /-- ROM0..ROM7, ROM0 the low byte (R45) -/
  rom : Addr
  /-- SPAD0..SPAD8, SPAD0 the low byte (R46) -/
  spad : Scratchpad
  /-- FCNT0..FCNT3 (R47) -/
  fcnt : Vector Byte 4
  /-- the entries of DIR that ENUM has written, DIR[0] first (R48) -/
  dir : List Addr
deriving DecidableEq, Repr

/-- The power-on values of R30 and R330; SPATH and DIR are unspecified there (log entries 5 and 6). -/
def Regs.reset : Regs :=
  { cmd := 0x00, done := false, pres := false, ovr := false, cap := false, result := .ok, ie := false
    data := 0x00, crc := 0x00, cursor := { sld := 0, sdone := false, spath := Config.spathReset }
    dirIdx := 0x00, dirCnt := 0x00, famEn := 0, temp := 0x8000, fam := Vector.replicate 4 0x00
    rom := 0, spad := BitVec.allOnes 72, fcnt := Vector.replicate 4 0x00, dir := [] }

/-- The sequencer (R53): Idle, or the accepted opcode and the index of the command's next slot. -/
inductive Seq where
  | idle
  | busy (opc : Byte) (k : Nat)
deriving DecidableEq, Repr

/-- The engine's drive of the line (R50). -/
inductive LineDrive where
  | released
  | low
deriving DecidableEq, Repr

/-- The engine. -/
structure Engine where
  /-- the sequencer (R53) -/
  seq : Seq
  /-- the line samples of the slots the command in progress has finished, oldest first: with the operand registers,
  which cannot change meanwhile (20_memory.md R96), they determine its staged results (R52; log entry 7) -/
  samples : List Bool
  /-- the line samples the slot in progress has taken so far, oldest first -/
  slotSamples : List Bool
  /-- how many events of the current slot have happened (41_transport.md R142, R145); 0 between slots -/
  pos : Nat
  /-- LD_OUT (R50) -/
  ldOut : LineDrive
  /-- HOST_I as the guard of the slot in progress saved it (41_transport.md R148) -/
  savedI : Option Bool
  /-- CMD as it read before the command in progress (R52, 70_reset_and_hazards.md R341), 0 while Idle: acceptance has
  already written the register (30_encoding.md R111; log entry 26) -/
  cmdBefore : Byte
  /-- a WIRE8 byte to be put on the line by itself (30_encoding.md R117). The model's own field: no host access sets
  it (R121), `State.withFetchWord` does (log entry 8) -/
  txByte : Option Byte
deriving DecidableEq, Repr

/-- The engine after reset: `seq = Idle`, line released (R330). -/
def Engine.reset : Engine :=
  { seq := .idle, samples := [], slotSamples := [], pos := 0, ldOut := .released, savedI := none
    cmdBefore := 0x00, txByte := none }

/-- An event of the line trace (41_transport.md R144), its time relative to the slot's falling edge. -/
inductive LineEvent where
  /-- `Low(t)` -/
  | low (t : Nat)
  /-- `Rel(t)` -/
  | rel (t : Nat)
  /-- `Smp(t, v)` -/
  | smp (t : Nat) (v : Bool)
  /-- the `release()` of a soft reset inside a slot (70_reset_and_hazards.md R331): it ends the slot, at a time the
  order of events does not fix (log entry 10) -/
  | cut
deriving DecidableEq, Repr

/-- What the line has seen. The lists are newest first (log entry 9). -/
structure LineLog where
  /-- TRACE (R144) -/
  trace : List LineEvent
  /-- the gaps drawn between consecutive slots (R141) -/
  gaps : List Nat
  /-- how many slots have begun: the model's own counter, the argument of the free gap -/
  slots : Nat
deriving DecidableEq, Repr

/-- The reads of one search position, in a device's mode (45_bus_environment.md R285). -/
inductive SearchPhase where
  | A
  | B
  | C
deriving DecidableEq, Repr

/-- The mode of a device of the reference model (R284). -/
inductive Mode where
  | off
  | romCmd (k : Nat) (acc : Byte)
  | search (n : Nat) (phase : SearchPhase)
  | matchRx (n : Nat)
  | selected
  | funcRx (k : Nat) (acc : Byte)
  | tx (k : Nat)
  | idle
deriving DecidableEq, Repr

/-- A device of the reference model (R284): address, scratchpad image, mode. -/
structure Device where
  addr : Addr
  spad : Scratchpad
  mode : Mode
deriving DecidableEq, Repr

/-- What answers a sample for which no draw is fixed. -/
inductive EnvKind where
  /-- a free draw: the normative environment (R280) -/
  | free
  /-- the reference device model (R284-R288) -/
  | reference
deriving DecidableEq, Repr

/-- The bus environment (R280-R288). -/
structure Bus where
  kind : EnvKind
  /-- answers fixed in advance, one for each draw to come: `some v` is the draw `v` (R280, and R288's fault injection),
  `none` leaves that draw to `kind`; past its end every draw is left to `kind` (log entry 2) -/
  script : List (Option Bool)
  /-- how many draws the free values have answered: the model's own counter -/
  drawn : Nat
  devices : List Device
  /-- the devices' modes are unknown: a soft reset interrupted a slot and no reset slot followed yet (R331) -/
  lost : Bool
deriving DecidableEq, Repr

/-- The environment at reset: free draws, none fixed, no device described (log entry 23). -/
def Bus.reset : Bus := { kind := .free, script := [], drawn := 0, devices := [], lost := false }

/-- The whole machine: the OWM, the line, the bus environment and the host's accesses to come. -/
structure State where
  /-- the parameters, which nothing changes (00_scope.md R6; log entry 3) -/
  params : Params
  regs : Regs
  engine : Engine
  /-- HOST_I (R54) -/
  hostI : Bool
  bus : Bus
  line : LineLog
  /-- the host accesses still to be performed, in program order (60_exceptions.md R318) -/
  host : List Pending
  /-- what the host's reads returned, each with its address, newest first (log entry 9) -/
  reads : List (Byte × Byte)
deriving DecidableEq, Repr

/-- Power-on reset (R330): it sends nothing on the line, and no program is present. -/
def State.reset : State :=
  { params := Config.params, regs := Regs.reset, engine := Engine.reset, hostI := Config.hostI, bus := Bus.reset
    line := { trace := [], gaps := [], slots := 0 }, host := [], reads := [] }

end Sys2Proof.Machine
end

