-- ==== Sys2Proof/Machine/Proc.lean ====
section
/-! DEFINITION. What a command does on the line, as a procedure of slots, and what it stages. A procedure is no part of
the state: the sequencer's state is the opcode and the samples taken (spec/10_state.md R53). -/

namespace Sys2Proof.Machine

/-- A procedure of the engine: the slots it makes, each continuing with the samples the slot returned. -/
inductive Proc (α : Type) where
  /-- it ends, with a value -/
  | done (a : α)
  /-- one reset slot, returning the presence sample and the stuck-line sample (41_transport.md R142) -/
  | reset (k : Bool → Bool → Proc α)
  /-- one bit slot sending `o`, returning the sample (R145) -/
  | bit (o : Bool) (k : Bool → Proc α)

/-- A slot (R13): the reset slot of R142 or a bit slot of R145 sending `o`. -/
inductive SlotKind where
  | reset
  | bit (o : Bool)
deriving DecidableEq, Repr

/-- The sample points of R142 and R145. -/
inductive SamplePoint where
  | presence
  | stuck
  | answer
deriving DecidableEq, Repr

/-- An event of a slot with its time (R142, R145). `recover` is the released end of a bit slot, up to `T_SLOT`. -/
inductive LineOp where
  | low (t : Nat)
  | rel (t : Nat)
  | smp (pt : SamplePoint) (t : Nat)
  | recover (t : Nat)
deriving DecidableEq, Repr

/-- What a command stages for its commit (10_state.md R52): the result code, and each register it writes. A field left
at `none` is not written. -/
structure Staged where
  code : ResultCode
  pres : Option Bool := none
  data : Option Byte := none
  crc : Option Byte := none
  cursor : Option Cursor := none
  rom : Option Addr := none
  spad : Option Scratchpad := none
  temp : Option (BitVec 16) := none
  /-- the entries found by ENUM, for DIR[0..] (R195) -/
  found : Option (List Addr) := none
  dirCnt : Option Byte := none
  fcnt : Option (Vector Byte 4) := none
  cap : Option Bool := none
deriving DecidableEq, Repr

end Sys2Proof.Machine
end

