-- ==== Sys2Proof/Machine/Ops.lean ====
section
/-! DEFINITION. The shared operations: bytes of a wide value, the bus environment's answer, the line events and the two
slots (spec/41_transport.md R142-R148), running a procedure, accepting a command (spec/30_encoding.md R111), and ending
one (spec/60_exceptions.md R300). The OWM takes no exception (R305): every command ends in `State.finish`. -/

namespace Sys2Proof.Machine

/-! ## Bytes and bits of addresses and scratchpads -/

/-- Byte `k` of a multi-byte value, byte 0 the low one (R9, R87). -/
def byteOf {w : Nat} (v : BitVec w) (k : Nat) : Byte := v.extractLsb' (8 * k) 8

/-- The value with its byte `k` replaced. -/
def setByte {w : Nat} (v : BitVec w) (k : Nat) (b : Byte) : BitVec w :=
  (v &&& ~~~((BitVec.setWidth w 0xFF#8) <<< (8 * k))) ||| ((BitVec.setWidth w b) <<< (8 * k))

/-- The first `n` bytes of a value, byte 0 first. -/
def bytesOf {w : Nat} (v : BitVec w) (n : Nat) : List Byte := (List.range n).map (byteOf v)

/-- `rombit(a, n)`, `n = 1..64` (00_scope.md R9). -/
def rombit (a : Addr) (n : Nat) : Bool := a.getLsbD (n - 1)

/-- `P[n] <- d` on a path of 64 bits, all of which start at 0 (42_search.md R183). -/
def setPathBit (p : Addr) (n : Nat) (d : Bool) : Addr := if d then p ||| (1#64 <<< (n - 1)) else p

/-! ## CRC-8 (44_crc_decode.md R250) -/

/-- One of the eight shifts of R250. -/
def crc8Shift (c : Byte) : Byte := if c.getLsbD 0 then (c >>> 1) ^^^ 0x8C else c >>> 1

/-- The eight shifts: R252's `g`. -/
def crc8Step (c : Byte) : Byte := Nat.repeat crc8Shift 8 c

/-- `crc8_update(c, x)` (R250). -/
def crc8Update (c x : Byte) : Byte := crc8Step (c ^^^ x)

/-- `crc8` of a byte string, from 0x00 (R250). -/
def crc8 (xs : List Byte) : Byte := xs.foldl crc8Update 0x00

/-- A device address is valid iff the CRC-8 of its first 7 bytes is its 8th (20_memory.md R83). -/
def addrValid (a : Addr) : Bool := crc8 (bytesOf a 7) == byteOf a 7

/-! ## The reference devices (45_bus_environment.md R284-R286) -/

/-- Whether a device pulls the line low in a bit slot (R285, R286): a search read where its bit, or that bit's
complement, is 0, and a transmitted 0. -/
def Device.pulls (d : Device) : Bool :=
  match d.mode with
  | .search n .A => !rombit d.addr n
  | .search n .B => rombit d.addr n
  | .tx k => !d.spad.getLsbD k
  | .search _ .C | .off | .romCmd _ _ | .matchRx _ | .selected | .funcRx _ _ | .idle => false

/-- The dispatch on a received ROM command byte (R285). -/
def romDispatch (b : Byte) : Mode :=
  if b = 0xF0 then .search 1 .A else if b = 0x55 then .matchRx 1 else .idle

/-- The dispatch on a received function command byte (R286). -/
def funcDispatch (b : Byte) : Mode := if b = 0xBE then .tx 0 else .idle

/-- Collecting a byte LSB first: bit `k` is `o`; after 8 bits the byte is dispatched on (R285, R286). -/
def collectBit (k : Nat) (acc : Byte) (o : Bool) (more : Nat → Byte → Mode) (dispatch : Byte → Mode) : Mode :=
  let acc' := if o then acc ||| (1#8 <<< k) else acc
  if k + 1 = 8 then dispatch acc' else more (k + 1) acc'

/-- A device's mode after a bit slot in which the master sent `o` (R285, R286). -/
def Device.modeAfterBit (d : Device) (o : Bool) : Mode :=
  match d.mode with
  | .off => .off
  | .idle => .idle
  | .romCmd k acc => collectBit k acc o .romCmd romDispatch
  | .search n .A => .search n .B
  | .search n .B => .search n .C
  | .search n .C => if o = rombit d.addr n then (if n = 64 then .selected else .search (n + 1) .A) else .idle
  | .matchRx n => if o = rombit d.addr n then (if n = 64 then .selected else .matchRx (n + 1)) else .idle
  | .selected => collectBit 0 0 o .funcRx funcDispatch
  | .funcRx k acc => collectBit k acc o .funcRx funcDispatch
  | .tx k => if k = 71 then .idle else .tx (k + 1)

/-- A device after a bit slot. -/
def Device.afterBit (o : Bool) (d : Device) : Device := { d with mode := d.modeAfterBit o }

/-- A device after a reset slot: every device enters `RomCmd(0, 0)` (R285). -/
def Device.afterReset (d : Device) : Device := { d with mode := .romCmd 0 0 }

/-! ## The bus environment -/

/-- What the reference devices make of the released line at a sample point (R285, R287): low at the presence sample iff
there is a device, high at the stuck-line sample, and the wired-AND of the devices at a bit slot's. -/
def Bus.reference (b : Bus) (pt : SamplePoint) : Bool :=
  match pt with
  | .presence => b.devices.isEmpty
  | .stuck => true
  | .answer => b.devices.all (fun d => !d.pulls)

/-- The answer of the environment's kind. Devices whose modes are unknown answer a bit slot with any value (R331,
93 S15). -/
def Bus.natural (b : Bus) (pt : SamplePoint) : Bool × Bus :=
  if b.kind = .reference ∧ ¬(b.lost = true ∧ pt = .answer) then (b.reference pt, b)
  else (Config.freeDraw b.drawn, { b with drawn := b.drawn + 1 })

/-- One draw (R280). -/
def Bus.draw (b : Bus) (pt : SamplePoint) : Bool × Bus :=
  match b.script with
  | some v :: rest => (v, { b with script := rest })
  | none :: rest => Bus.natural { b with script := rest } pt
  | [] => b.natural pt

/-- The devices after a whole slot: a reset slot re-synchronises them (R331), a bit slot moves each of them. -/
def Bus.afterSlot (b : Bus) (k : SlotKind) : Bus :=
  match k with
  | .reset => { b with devices := b.devices.map Device.afterReset, lost := false }
  | .bit o => { b with devices := b.devices.map (Device.afterBit o) }

/-! ## Line events (41_transport.md R142-R145) -/

/-- `drive_low()` at time `t` of the slot. -/
def State.driveLow (s : State) (t : Nat) : State :=
  { s with engine := { s.engine with ldOut := .low }, line := { s.line with trace := .low t :: s.line.trace } }

/-- `release()` at time `t` of the slot. -/
def State.release (s : State) (t : Nat) : State :=
  { s with engine := { s.engine with ldOut := .released }, line := { s.line with trace := .rel t :: s.line.trace } }

/-- The level of the line at a sample point: 0 while the engine drives it low, without a draw (R281, R282), and a draw
otherwise. -/
def State.level (s : State) (pt : SamplePoint) : Bool × Bus :=
  match s.engine.ldOut with
  | .low => (false, s.bus)
  | .released => s.bus.draw pt

/-- `sample()` at time `t` of the slot. -/
def State.sample (s : State) (pt : SamplePoint) (t : Nat) : Bool × State :=
  let r := s.level pt
  (r.1, { s with bus := r.2, line := { s.line with trace := .smp t r.1 :: s.line.trace } })

/-- Before a slot's first event: the gap to the slot before it (R141), and, in the BitBang realisation, the guard's
acquire (R148). -/
def State.beginSlot (s : State) : State :=
  let gaps := if s.line.slots = 0 then s.line.gaps else Config.freeGap s.line.slots :: s.line.gaps
  let s := { s with line := { s.line with gaps := gaps, slots := s.line.slots + 1 } }
  match s.params.realisation with
  | .peripheral => s
  | .bitBang => { s with engine := { s.engine with savedI := some s.hostI }, hostI := false }

/-- The guard's restore (R148): exactly the prior state, never unconditionally 1. -/
def State.restoreHostI (s : State) : State :=
  match s.params.realisation with
  | .peripheral => s
  | .bitBang => { s with hostI := s.engine.savedI.getD s.hostI, engine := { s.engine with savedI := none } }

/-- After a slot's last event: the devices have seen the slot, and the guard is released. -/
def State.endSlot (s : State) (k : SlotKind) : State :=
  ({ s with bus := s.bus.afterSlot k } : State).restoreHostI

/-- The reset slot (R142): the presence sample and the stuck-line sample. -/
def State.resetSlot (s : State) : (Bool × Bool) × State :=
  let p := s.params
  let s := s.beginSlot
  let s := s.driveLow 0
  let s := s.release p.tRstl
  let r := s.sample .presence (p.tRstl + p.tPds)
  let q := r.2.sample .stuck (p.tRstl + p.tPds + p.tRsth)
  ((r.1, q.1), q.2.endSlot .reset)

/-- The bit slot (R145) sending `o`. With `o = 0` the engine still holds the line low at the sample. -/
def State.bitSlot (s : State) (o : Bool) : Bool × State :=
  let p := s.params
  let s := s.beginSlot
  let s := s.driveLow 0
  match o with
  | true =>
    let s := s.release p.tLow1
    let r := s.sample .answer (p.tLow1 + p.tMsr)
    (r.1, r.2.endSlot (.bit true))
  | false =>
    let r := s.sample .answer (p.tLow1 + p.tMsr)
    let s := r.2.release p.tLow0
    (r.1, s.endSlot (.bit false))

/-! ## Procedures -/

/-- One procedure after another. -/
def Proc.bind {α β : Type} (p : Proc α) (f : α → Proc β) : Proc β :=
  match p with
  | .done a => f a
  | .reset k => .reset fun x y => (k x y).bind f
  | .bit o k => .bit o fun i => (k i).bind f

/-- Running a procedure from a state, slot after slot with nothing in between (20_memory.md R97). -/
def Proc.run {α : Type} (p : Proc α) (s : State) : α × State :=
  match p with
  | .done a => (a, s)
  | .reset k => let r := s.resetSlot; (k r.1.1 r.1.2).run r.2
  | .bit o k => let r := s.bitSlot o; (k r.1).run r.2

/-- What is left of a procedure whose finished slots returned these samples: a reset slot two, a bit slot one. -/
def Proc.resume {α : Type} (p : Proc α) (samples : List Bool) : Proc α :=
  match p, samples with
  | .done a, _ => .done a
  | .reset k, x :: y :: rest => (k x y).resume rest
  | .reset k, _ => .reset k
  | .bit _ k, i :: rest => (k i).resume rest
  | .bit o k, [] => .bit o k

/-- `byte_xchg` from bit `j` on, `m` bits left, with `c` received so far (R147). -/
def xchgBits (b : Byte) (m j : Nat) (c : Byte) : Proc Byte :=
  match m with
  | 0 => .done c
  | m + 1 => .bit (b.getLsbD j) fun i => xchgBits b m (j + 1) (if i then c ||| (1#8 <<< j) else c)

/-- `byte_xchg(b)`: eight bit slots, bit 0 first (R147). -/
def byteXchg (b : Byte) : Proc Byte := xchgBits b 8 0 0

/-- `send_byte(b)`: the exchange with its result discarded (R147). -/
def sendByte (b : Byte) : Proc Unit := (byteXchg b).bind fun _ => .done ()

/-- `read_byte()` (R147). -/
def readByte : Proc Byte := byteXchg 0xFF

/-- Sending bytes one after another. -/
def sendBytes (bs : List Byte) : Proc Unit :=
  match bs with
  | [] => .done ()
  | b :: rest => (sendByte b).bind fun _ => sendBytes rest

/-- Reading `m` bytes into a scratchpad, from byte `k` on (43_sensor.md R230). -/
def readBytes (m k : Nat) (acc : Scratchpad) : Proc Scratchpad :=
  match m with
  | 0 => .done acc
  | m + 1 => readByte.bind fun c => readBytes m (k + 1) (setByte acc k c)

/-! ## Accepting a command and ending one -/

/-- The registers at acceptance of an opcode (30_encoding.md R111): CMD takes it and DONE falls. -/
def Regs.accept (r : Regs) (v : Byte) : Regs := { r with cmd := v, done := false }

/-- Acceptance of an opcode (R111): BUSY rises with `seq`, and CMD's value from before is kept for reads (R52). -/
def State.accept (s : State) (v : Byte) : State :=
  { s with
    regs := s.regs.accept v
    engine :=
      { s.engine with
        seq := .busy v 0, samples := [], slotSamples := [], pos := 0, cmdBefore := s.regs.cmd } }

/-- The registers with what a command staged, RESULT and DONE (10_state.md R52). -/
def Regs.commit (r : Regs) (st : Staged) : Regs :=
  { r with
    result := st.code
    done := true
    pres := st.pres.getD r.pres
    data := st.data.getD r.data
    crc := st.crc.getD r.crc
    cursor := st.cursor.getD r.cursor
    rom := st.rom.getD r.rom
    spad := st.spad.getD r.spad
    temp := st.temp.getD r.temp
    dir := (st.found.map fun d => d ++ r.dir.drop d.length).getD r.dir
    dirCnt := st.dirCnt.getD r.dirCnt
    fcnt := st.fcnt.getD r.fcnt
    cap := st.cap.getD r.cap }

/-- `finish`: the one commit step that ends a command (60_exceptions.md R300). -/
def State.finish (s : State) (st : Staged) : State :=
  { s with
    regs := s.regs.commit st
    engine :=
      { s.engine with seq := .idle, samples := [], slotSamples := [], pos := 0, cmdBefore := 0x00 } }

/-- Issue (R111): a legal opcode starts its command, an illegal one completes at once with ILLEGAL_CMD. -/
def State.issue (s : State) (v : Byte) : State :=
  match decode .cmd8 v with
  | .ok _ => s.accept v
  | .error _ => (s.accept v).finish { code := .illegalCmd }

/-- A write that is not accepted while a command runs sets OVR (20_memory.md R82). -/
def State.setOvr (s : State) : State := { s with regs := { s.regs with ovr := true } }

/-- A whole command: its opcode is written to CMD and, the engine being Idle, the command runs to its commit with no
host access in between (10_state.md R52, 20_memory.md R91). While a command runs, the write is not accepted (R82). -/
def runCommand (i : Instr) (p : Params → Regs → Proc Staged) (s : State) : Host.Outcome State Fault Refusal :=
  match s.engine.seq with
  | .idle =>
    let a := s.accept (encode i)
    let r := (p a.params a.regs).run a
    .next (r.2.finish r.1)
  | .busy _ _ => .next s.setOvr

/-- A WIRE8 byte by itself: the engine exchanges it on the line and discards what comes back (30_encoding.md R117). -/
def runWireByte (i : Instr) (s : State) : Host.Outcome State Fault Refusal :=
  .next ((sendByte (encode i)).run s).2

end Sys2Proof.Machine
end

