-- ==== Sys2Proof/Machine/Flags.lean ====
section
/-! DEFINITION. The status bits and the result codes: the outcome of a reset slot, STATUS and RESULT as they read, the
interrupt output, and the conditions commands turn into a flag or a code. -/

namespace Sys2Proof.Machine

/-- The 4-bit code of R301. -/
def ResultCode.bits (c : ResultCode) : BitVec 4 :=
  match c with
  | .ok => 0x0
  | .noPresence => 0x1
  | .lineStuck => 0x2
  | .searchDataError => 0x3
  | .crcError => 0x4
  | .rangeError => 0x5
  | .illegalCmd => 0x6
  | .indexError => 0x7
  | .exhausted => 0x8
  | .passLimit => 0x9

/-- The code of a reset slot (41_transport.md R143): LINE_STUCK before NO_PRESENCE. -/
def resetCode (p s : Bool) : ResultCode :=
  if s = false then .lineStuck else if p then .noPresence else .ok

/-- The PRES bit of a reset slot (R143). -/
def resetPres (p s : Bool) : Bool := !p && s

/-- STATUS.BUSY (10_state.md R53). -/
def State.busy (s : State) : Bool :=
  match s.engine.seq with
  | .idle => false
  | .busy _ _ => true

/-- One bit of a register byte at position `n`. -/
def flagBit (b : Bool) (n : Nat) : Byte := if b then 1#8 <<< n else 0

/-- STATUS as it reads (10_state.md R33): bits 7:6 are 0. -/
def State.status (s : State) : Byte :=
  flagBit s.busy 0 ||| flagBit s.regs.done 1 ||| flagBit s.regs.pres 2 ||| flagBit s.regs.cursor.sdone 3
    ||| flagBit s.regs.ovr 4 ||| flagBit s.regs.cap 5

/-- CTRL as it reads (R35): IE at bit 0; SRST and bits 7:2 read 0. -/
def Regs.ctrl (r : Regs) : Byte := flagBit r.ie 0

/-- The interrupt output (R51). -/
def State.irq (s : State) : Bool := s.regs.ie && s.regs.done

/-- CAP after an ENUM that completes (42_search.md R195). -/
def capFlag (p : Params) (cnt : Nat) : Bool := cnt == p.maxDevices

end Sys2Proof.Machine
end

