-- ==== Sys2Proof/Machine/Operands.lean ====
section
/-! DEFINITION. Operand assembly (spec/30_encoding.md R115, R116): where each command's operands come from. A command
has no operand field; no value is scaled or sign-extended on the way in. -/

namespace Sys2Proof.Machine

/-- The bit OWBIT sends: `DATA[0]`, with `DATA[7:1]` ignored (R116). -/
def Regs.sentBit (r : Regs) : Bool := r.data.getLsbD 0

/-- The byte OWBYTE sends (R116). -/
def Regs.sentByte (r : Regs) : Byte := r.data

/-- The address bytes SELECT, CONVT and RDTEMP send, ROM0 first (R116). -/
def Regs.romBytes (r : Regs) : List Byte := bytesOf r.rom 8

/-- The raw temperature `int16(SPAD1 ++ SPAD0)` (R116, R260). -/
def rawTemp (b0 b1 : Byte) : BitVec 16 := b1 ++ b0

/-- The resolution field of a configuration byte: bits 6:5 (R116, R262). -/
def resolutionField (cfg : Byte) : BitVec 2 := cfg.extractLsb' 5 2

/-- The directory index DIRLD reads (R115). -/
def Regs.dirIndex (r : Regs) : Nat := r.dirIdx.toNat

/-- DIR[i]: an entry ENUM has written, or, where it has written none, an unspecified value (R48; log entry 6). -/
def Regs.dirEntry (r : Regs) (i : Nat) : Addr := (r.dir[i]?).getD (Config.dirReset i)

/-- Allow-list slot `i` is active and holds the family code `f` (42_search.md R196). -/
def Regs.famSlotMatches (r : Regs) (f : Byte) (i : Fin 4) : Bool := r.famEn.getLsbD i && r.fam[i] == f

/-- `slot(f)`: the lowest active allow-list slot that holds the family code `f` (R196). -/
def Regs.famSlot (r : Regs) (f : Byte) : Option (Fin 4) :=
  ([0, 1, 2, 3] : List (Fin 4)).find? (r.famSlotMatches f)

end Sys2Proof.Machine
end

