-- ==== Sys2Proof/Machine/CrcDecode.lean ====
section
/-! DEFINITION. The CRC-8 and decode family: CRCCLR, CRCBYTE, DECODE (spec/44_crc_decode.md). The CRC function itself is
in Ops. -/

namespace Sys2Proof.Machine

/-- CRCCLR (R255): no slot. -/
def procCrcclr (_ : Params) (_ : Regs) : Proc Staged := .done { code := .ok, crc := some 0x00 }

/-- CRCCLR (R255). -/
def execCrcclr (s : State) : Host.Outcome State Fault Refusal := runCommand .crcclr procCrcclr s

/-- CRCBYTE (R256): no slot. -/
def procCrcbyte (_ : Params) (r : Regs) : Proc Staged := .done { code := .ok, crc := some (crc8Update r.crc r.data) }

/-- CRCBYTE (R256). -/
def execCrcbyte (s : State) : Host.Outcome State Fault Refusal := runCommand .crcbyte procCrcbyte s

/-- `MASK(cfg[6:5])` (R261). -/
def resolutionMask (f : BitVec 2) : Nat :=
  match f with
  | 0b00#2 => 0xFFF8
  | 0b01#2 => 0xFFFC
  | 0b10#2 => 0xFFFE
  | 0b11#2 => 0xFFFF

/-- The magnitude of the raw reading with the bits below the resolution masked off (R260, R261). -/
def measure (raw : BitVec 16) (cfg : Byte) : Nat := raw.toInt.natAbs &&& resolutionMask (resolutionField cfg)

/-- The fraction nibble in tenths, rounded up at the half only for a non-negative reading (R264). -/
def fractionTenths (fr : Nat) (neg : Bool) : Nat := (fr * 640 + (if neg then 0 else 512)) / 1024

/-- A magnitude in tenths of a degree: whole degrees times ten and the fraction (R263, R264). -/
def tenths (m : Nat) (neg : Bool) : Nat := (m >>> 4) * 10 + fractionTenths (m &&& 0x0F) neg

/-- The value `decode_temp` gives (R259), in exact integers. -/
def decodeTenths (raw : BitVec 16) (cfg : Byte) : Int :=
  let neg := decide (raw.toInt < 0)
  let v : Int := tenths (measure raw cfg) neg
  if neg then -v else v

/-- The range check (R265). -/
def inRange (v : Int) : Bool := decide (-550 ≤ v ∧ v ≤ 1250)

/-- `check_and_decode(S)` (R258): the code, and TEMP on OK. -/
def checkAndDecode (sp : Scratchpad) : ResultCode × Option (BitVec 16) :=
  if crc8 (bytesOf sp 9) ≠ 0x00 then (.crcError, none)
  else
    let v := decodeTenths (rawTemp (byteOf sp 0) (byteOf sp 1)) (byteOf sp 4)
    if inRange v then (.ok, some (BitVec.ofInt 16 v)) else (.rangeError, none)

/-- DECODE (R257): no slot. -/
def procDecode (_ : Params) (r : Regs) : Proc Staged :=
  let d := checkAndDecode r.spad
  .done { code := d.1, temp := d.2 }

/-- DECODE (R257). -/
def execDecode (s : State) : Host.Outcome State Fault Refusal := runCommand .decode procDecode s

end Sys2Proof.Machine
end

