-- ==== Sys2Proof/Machine/Transport.lean ====
section
/-! DEFINITION. The Bus Transport family: OWRST, OWBIT, OWBYTE (spec/41_transport.md), and the reset every higher
family starts with. -/

namespace Sys2Proof.Machine

/-- `bus_reset()` (R143): one reset slot, its code and its PRES bit. -/
def busReset : Proc (ResultCode × Bool) :=
  .reset fun p s => .done (resetCode p s, resetPres p s)

/-- OWRST on the line (R149). -/
def procOwrst (_ : Params) (_ : Regs) : Proc Staged :=
  busReset.bind fun c => .done { code := c.1, pres := some c.2 }

/-- OWRST (R149). -/
def execOwrst (s : State) : Host.Outcome State Fault Refusal := runCommand .owrst procOwrst s

/-- OWBIT on the line (R150). -/
def procOwbit (_ : Params) (r : Regs) : Proc Staged :=
  .bit r.sentBit fun i => .done { code := .ok, data := some (if i then 0x01 else 0x00) }

/-- OWBIT (R150). -/
def execOwbit (s : State) : Host.Outcome State Fault Refusal := runCommand .owbit procOwbit s

/-- OWBYTE on the line (R152). -/
def procOwbyte (_ : Params) (r : Regs) : Proc Staged :=
  (byteXchg r.sentByte).bind fun c => .done { code := .ok, data := some c }

/-- OWBYTE (R152). -/
def execOwbyte (s : State) : Host.Outcome State Fault Refusal := runCommand .owbyte procOwbyte s

end Sys2Proof.Machine
end

