-- ==== Sys2Proof/Machine/Search.lean ====
section
/-! DEFINITION. The ROM Search Engine and Device Directory family: SRCHRST, SRCHNEXT, ENUM, DIRLD
(spec/42_search.md). The branch rule is the one 90_conflicts.md C2 settles. -/

namespace Sys2Proof.Machine

/-- The cursor Fresh, "search from scratch"; SPATH keeps its value, which nothing can observe (10_state.md R44). -/
def Cursor.fresh (c : Cursor) : Cursor := { c with sld := 0, sdone := false }

/-- `choose(n)` at a discrepancy (R184): below SLD retrace, at SLD take 1, beyond it take 0. -/
def Cursor.choose (c : Cursor) (n : Nat) : Bool :=
  if n < c.sld then rombit c.spath n else decide (n = c.sld)

/-- The direction at position `n` for the pair `(b, cb)` other than (1,1) (R181, R183). -/
def Cursor.direction (c : Cursor) (n : Nat) (b cb : Bool) : Bool :=
  if b ≠ cb then b else c.choose n

/-- `last_zero` after position `n`: a 0 chosen at a discrepancy records `n` (R183, R184). -/
def lastZero (n : Nat) (b cb d : Bool) (lz : Nat) : Nat :=
  if b = cb ∧ d = false then n else lz

/-- The bit positions of a pass from `n` on, `m` of them left, with the path and `last_zero` so far; nothing if a pair
(1,1) ends the pass (R183, R186). -/
def searchBits (c : Cursor) (m n : Nat) (path : Addr) (lz : Nat) : Proc (Option (Addr × Nat)) :=
  match m with
  | 0 => .done (some (path, lz))
  | m + 1 =>
    .bit true fun b =>
      .bit true fun cb =>
        if b && cb then .done none
        else
          let d := c.direction n b cb
          .bit d fun _ => searchBits c m (n + 1) (setPathBit path n d) (lastZero n b cb d lz)

/-- What one execution of the pass procedure gives: its code, the address if the pass completed, the cursor after it,
and the PRES bit of its reset slot if it made one. -/
structure PassResult where
  code : ResultCode
  addr : Option Addr
  cursor : Cursor
  pres : Option Bool
deriving DecidableEq, Repr

/-- A pass whose 64 positions are done, or which a (1,1) pair ended (R183, R185, R186). -/
def passEnd (c : Cursor) (pres : Bool) (r : Option (Addr × Nat)) : PassResult :=
  match r with
  | none => { code := .searchDataError, addr := none, cursor := c.fresh, pres := some pres }
  | some (path, lz) =>
    { code := if addrValid path then .ok else .crcError
      addr := some path
      cursor := { sld := lz, sdone := lz == 0, spath := path }
      pres := some pres }

/-- `search_pass()` (R183), from the cursor as it stands at the start of the pass. -/
def searchPass (c : Cursor) : Proc PassResult :=
  if c.sdone then .done { code := .exhausted, addr := none, cursor := c, pres := none }
  else
    busReset.bind fun t =>
      if t.1 ≠ .ok then .done { code := t.1, addr := none, cursor := c.fresh, pres := some t.2 }
      else
        (sendByte (encode .searchRom)).bind fun _ =>
          (searchBits c 64 1 0 0).bind fun r => .done (passEnd c t.2 r)

/-- SRCHRST (R187): no slot. -/
def procSrchrst (_ : Params) (r : Regs) : Proc Staged :=
  .done { code := .ok, cursor := some r.cursor.fresh }

/-- SRCHRST (R187). -/
def execSrchrst (s : State) : Host.Outcome State Fault Refusal := runCommand .srchrst procSrchrst s

/-- What SRCHNEXT stages after its pass (R188): ROM only if the pass completed. -/
def srchnextStaged (r : PassResult) : Staged :=
  { code := r.code
    pres := r.pres
    cursor := some r.cursor
    rom := if r.code = .ok ∨ r.code = .crcError then r.addr else none }

/-- SRCHNEXT on the line (R188). -/
def procSrchnext (_ : Params) (r : Regs) : Proc Staged :=
  (searchPass r.cursor).bind fun res => .done (srchnextStaged res)

/-- SRCHNEXT (R188). -/
def execSrchnext (s : State) : Host.Outcome State Fault Refusal := runCommand .srchnext procSrchnext s

/-- The end of an ENUM that completes (R195). -/
def enumDone (p : Params) (c : Cursor) (pres : Option Bool) (found : List Addr) (counts : Vector Byte 4) : Staged :=
  { code := .ok
    pres := pres
    cursor := some c
    found := some found
    dirCnt := some (BitVec.ofNat 8 found.length)
    fcnt := some counts
    cap := some (capFlag p found.length) }

/-- The end of an ENUM that fails (R195, R198). -/
def enumFail (code : ResultCode) (c : Cursor) (pres : Option Bool) : Staged :=
  { code := code
    pres := pres
    cursor := some c.fresh
    dirCnt := some 0
    fcnt := some (Vector.replicate 4 0)
    cap := some false }

/-- The codes of a pass that fail the whole ENUM (R198). CRC_ERROR is not one of them. -/
def passFails (code : ResultCode) : Bool :=
  code == .noPresence || code == .lineStuck || code == .searchDataError

/-- The allow-list slot that keeps the address of a pass: none if the pass's address failed its CRC or its family code
is in no active slot (R195, R196). -/
def keptSlot (r : Regs) (res : PassResult) : Option (Fin 4 × Addr) :=
  match res.code, res.addr with
  | .ok, some a => (r.famSlot (byteOf a 0)).map fun i => (i, a)
  | _, _ => none

/-- One more address counted against slot `i` (R195). -/
def countFamily (counts : Vector Byte 4) (i : Fin 4) : Vector Byte 4 := counts.set i (counts[i] + 1)

/-- ENUM's loop with `m` passes left (R195, R197, R199), on the staged cursor. `keep` is the family filter of R196. -/
def enumLoop (p : Params) (keep : PassResult → Option (Fin 4 × Addr)) (m : Nat) (c : Cursor) (pres : Option Bool)
    (found : List Addr) (counts : Vector Byte 4) : Proc Staged :=
  match m with
  | 0 => .done (enumFail .passLimit c pres)
  | m + 1 =>
    (searchPass c).bind fun res =>
      if passFails res.code then .done (enumFail res.code res.cursor res.pres)
      else
        match keep res with
        | some (i, a) =>
          if found.length + 1 = p.maxDevices ∨ res.cursor.sdone = true then
            .done (enumDone p res.cursor res.pres (found ++ [a]) (countFamily counts i))
          else enumLoop p keep m res.cursor res.pres (found ++ [a]) (countFamily counts i)
        | none =>
          if res.cursor.sdone = true then .done (enumDone p res.cursor res.pres found counts)
          else enumLoop p keep m res.cursor res.pres found counts

/-- ENUM on the line (R195): it always starts from scratch. -/
def procEnum (p : Params) (r : Regs) : Proc Staged :=
  enumLoop p (keptSlot r) p.enumPassLimit r.cursor.fresh none [] (Vector.replicate 4 0)

/-- ENUM (R195). -/
def execEnum (s : State) : Host.Outcome State Fault Refusal := runCommand .enum procEnum s

/-- DIRLD (R200): no slot. -/
def procDirld (_ : Params) (r : Regs) : Proc Staged :=
  if r.dirIdx ≥ r.dirCnt then .done { code := .indexError }
  else .done { code := .ok, rom := some (r.dirEntry r.dirIndex) }

/-- DIRLD (R200). -/
def execDirld (s : State) : Host.Outcome State Fault Refusal := runCommand .dirld procDirld s

end Sys2Proof.Machine
end

