-- ==== Sys2Proof/Machine/Sensor.lean ====
section
/-! DEFINITION. The Sensor Protocol family: SELECT, CONVT, RDTEMP (spec/43_sensor.md). -/

namespace Sys2Proof.Machine

/-- `select_dev()` (R221): the reset, then MATCH ROM and the eight address bytes; its code and PRES bit. -/
def selectDev (r : Regs) : Proc (ResultCode × Bool) :=
  busReset.bind fun t =>
    if t.1 ≠ .ok then .done t
    else (sendBytes (encode .matchRom :: r.romBytes)).bind fun _ => .done t

/-- SELECT on the line (R222). -/
def procSelect (_ : Params) (r : Regs) : Proc Staged :=
  (selectDev r).bind fun t => .done { code := t.1, pres := some t.2 }

/-- SELECT (R222). -/
def execSelect (s : State) : Host.Outcome State Fault Refusal := runCommand .select procSelect s

/-- CONVT on the line (R225): it does not wait. -/
def procConvt (_ : Params) (r : Regs) : Proc Staged :=
  (selectDev r).bind fun t =>
    if t.1 ≠ .ok then .done { code := t.1, pres := some t.2 }
    else (sendByte (encode .convertT)).bind fun _ => .done { code := .ok, pres := some t.2 }

/-- CONVT (R225). -/
def execConvt (s : State) : Host.Outcome State Fault Refusal := runCommand .convt procConvt s

/-- What RDTEMP stages once it has read a scratchpad (R230): SPAD whatever the check gives, TEMP on OK. -/
def rdtempStaged (pres : Bool) (sp : Scratchpad) : Staged :=
  let d := checkAndDecode sp
  { code := d.1, pres := some pres, spad := some sp, temp := d.2 }

/-- RDTEMP on the line (R230). The nine bytes read fill the scratchpad whole, so what it starts from is lost. -/
def procRdtemp (_ : Params) (r : Regs) : Proc Staged :=
  (selectDev r).bind fun t =>
    if t.1 ≠ .ok then .done { code := t.1, pres := some t.2 }
    else
      (sendByte (encode .readScratchpad)).bind fun _ =>
        (readBytes 9 0 0).bind fun sp => .done (rdtempStaged t.2 sp)

/-- RDTEMP (R230). -/
def execRdtemp (s : State) : Host.Outcome State Fault Refusal := runCommand .rdtemp procRdtemp s

end Sys2Proof.Machine
end

