-- ==== Sys2Proof/Machine/Wire.lean ====
section
/-! DEFINITION. The WIRE8 family (spec/30_encoding.md R117): the engine puts one of its four command bytes on the line,
as an OWBYTE-equivalent byte exchange whose answer is discarded. No register changes. -/

namespace Sys2Proof.Machine

/-- SEARCH ROM, 0xF0 (R117). -/
def execSearchRom (s : State) : Host.Outcome State Fault Refusal := runWireByte .searchRom s

/-- MATCH ROM, 0x55 (R117). -/
def execMatchRom (s : State) : Host.Outcome State Fault Refusal := runWireByte .matchRom s

/-- CONVERT T, 0x44 (R117). -/
def execConvertT (s : State) : Host.Outcome State Fault Refusal := runWireByte .convertT s

/-- READ SCRATCHPAD, 0xBE (R117). -/
def execReadScratchpad (s : State) : Host.Outcome State Fault Refusal := runWireByte .readScratchpad s

end Sys2Proof.Machine
end

