-- ==== Sys2Proof/Machine/Dispatch.lean ====
section
/-! DEFINITION. One arm for each row of spec/opcode_table.json. -/

namespace Sys2Proof.Machine

/-- The meaning of an instruction: a host command from its acceptance to its commit, or a wire byte. -/
def exec (i : Instr) (s : State) : Host.Outcome State Fault Refusal :=
  match i with
  | .owrst => Sys2Proof.Machine.execOwrst s
  | .owbit => Sys2Proof.Machine.execOwbit s
  | .owbyte => Sys2Proof.Machine.execOwbyte s
  | .srchrst => Sys2Proof.Machine.execSrchrst s
  | .srchnext => Sys2Proof.Machine.execSrchnext s
  | .enum => Sys2Proof.Machine.execEnum s
  | .dirld => Sys2Proof.Machine.execDirld s
  | .select => Sys2Proof.Machine.execSelect s
  | .convt => Sys2Proof.Machine.execConvt s
  | .rdtemp => Sys2Proof.Machine.execRdtemp s
  | .crcclr => Sys2Proof.Machine.execCrcclr s
  | .crcbyte => Sys2Proof.Machine.execCrcbyte s
  | .decode => Sys2Proof.Machine.execDecode s
  | .searchRom => Sys2Proof.Machine.execSearchRom s
  | .matchRom => Sys2Proof.Machine.execMatchRom s
  | .convertT => Sys2Proof.Machine.execConvertT s
  | .readScratchpad => Sys2Proof.Machine.execReadScratchpad s

end Sys2Proof.Machine
end

