-- ==== Sys2Proof/Machine/Engine.lean ====
section
/-! DEFINITION. The engine one event at a time (spec/10_state.md R53): what the model runs when a host access may land
inside a command. `exec` is the same command run through; the two agree (log entry 1). -/

namespace Sys2Proof.Machine

/-- The procedure of a command. A WIRE8 byte names no command: written to CMD it is an illegal opcode (30_encoding.md
R121). -/
def procOf (i : Instr) (p : Params) (r : Regs) : Proc Staged :=
  match i with
  | .owrst => procOwrst p r
  | .owbit => procOwbit p r
  | .owbyte => procOwbyte p r
  | .srchrst => procSrchrst p r
  | .srchnext => procSrchnext p r
  | .enum => procEnum p r
  | .dirld => procDirld p r
  | .select => procSelect p r
  | .convt => procConvt p r
  | .rdtemp => procRdtemp p r
  | .crcclr => procCrcclr p r
  | .crcbyte => procCrcbyte p r
  | .decode => procDecode p r
  | .searchRom => .done { code := .illegalCmd }
  | .matchRom => .done { code := .illegalCmd }
  | .convertT => .done { code := .illegalCmd }
  | .readScratchpad => .done { code := .illegalCmd }

/-- The procedure of an opcode written to CMD (30_encoding.md R111). -/
def procOfOpcode (opc : Byte) (p : Params) (r : Regs) : Proc Staged :=
  match decode .cmd8 opc with
  | .ok i => procOf i p r
  | .error _ => .done { code := .illegalCmd }

/-- The events of a slot, in order, with their times (41_transport.md R142, R145). -/
def SlotKind.ops (k : SlotKind) (p : Params) : List LineOp :=
  match k with
  | .reset =>
    [.low 0, .rel p.tRstl, .smp .presence (p.tRstl + p.tPds), .smp .stuck (p.tRstl + p.tPds + p.tRsth)]
  | .bit true => [.low 0, .rel p.tLow1, .smp .answer (p.tLow1 + p.tMsr), .recover p.tSlot]
  | .bit false => [.low 0, .smp .answer (p.tLow1 + p.tMsr), .rel p.tLow0, .recover p.tSlot]

/-- One event of a slot. A sample joins those of the slot in progress. -/
def State.lineOp (s : State) (op : LineOp) : State :=
  match op with
  | .low t => s.driveLow t
  | .rel t => s.release t
  | .smp pt t =>
    let r := s.sample pt t
    { r.2 with engine := { r.2.engine with slotSamples := r.2.engine.slotSamples ++ [r.1] } }
  | .recover _ => s

/-- The sequencer at the next slot (10_state.md R53). -/
def Seq.nextSlot (q : Seq) : Seq :=
  match q with
  | .idle => .idle
  | .busy opc k => .busy opc (k + 1)

/-- The end of a slot: its samples join the command's, and the sequencer moves to the command's next slot. -/
def State.closeSlot (s : State) (k : SlotKind) : State :=
  let s := s.endSlot k
  { s with
    engine :=
      { s.engine with
        seq := s.engine.seq.nextSlot
        samples := s.engine.samples ++ s.engine.slotSamples
        slotSamples := []
        pos := 0 } }

/-- The next event of a slot of the command in progress. -/
def State.slotEvent (s : State) (k : SlotKind) : State :=
  let ops := k.ops s.params
  let pos := s.engine.pos
  let s := if pos = 0 then s.beginSlot else s
  match ops[pos]? with
  | none => s.closeSlot k
  | some op =>
    let s := s.lineOp op
    if pos + 1 = ops.length then s.closeSlot k
    else { s with engine := { s.engine with pos := pos + 1 } }

/-- What is left of the command in progress after the samples taken. -/
def State.remaining (s : State) (opc : Byte) : Proc Staged :=
  (procOfOpcode opc s.params s.regs).resume s.engine.samples

/-- One engine step: the next event of the current slot, or, when no slot is left, the commit (10_state.md R52). -/
def State.engineStep (s : State) : State :=
  match s.engine.seq with
  | .idle => s
  | .busy opc _ =>
    match s.remaining opc with
    | .done st => s.finish st
    | .reset _ => s.slotEvent .reset
    | .bit o _ => s.slotEvent (.bit o)

end Sys2Proof.Machine
end

