-- ==== Sys2Proof/Machine/HostAccess.lean ====
section
/-! DEFINITION. The host's accesses: the register map (spec/10_state.md R30), reads (spec/20_memory.md R81), writes
(R82), the soft reset (spec/70_reset_and_hazards.md R331), one access performed, and the host program's lines
(spec/30_encoding.md R119, R120; spec/60_exceptions.md R318). -/

namespace Sys2Proof.Machine

/-! ## The register map -/

/-- The address of a register (R30). -/
def regAddr (r : Reg) : Byte :=
  match r with
  | .cmd => 0x00
  | .status => 0x01
  | .result => 0x02
  | .ctrl => 0x03
  | .data => 0x04
  | .crc => 0x05
  | .sld => 0x06
  | .dirIdx => 0x07
  | .dirCnt => 0x08
  | .famEn => 0x09
  | .tempL => 0x0A
  | .tempH => 0x0B
  | .fam i => 0x0C + BitVec.ofNat 8 i
  | .rom k => 0x10 + BitVec.ofNat 8 k
  | .spad k => 0x18 + BitVec.ofNat 8 k
  | .fcnt i => 0x21 + BitVec.ofNat 8 i

/-- The register at an address; none at a reserved one (R30, R49). -/
def regAt (a : Byte) : Option Reg :=
  let n := a.toNat
  if h : 0x0C ≤ n ∧ n < 0x10 then some (.fam ⟨n - 0x0C, by omega⟩)
  else if h : 0x10 ≤ n ∧ n < 0x18 then some (.rom ⟨n - 0x10, by omega⟩)
  else if h : 0x18 ≤ n ∧ n < 0x21 then some (.spad ⟨n - 0x18, by omega⟩)
  else if h : 0x21 ≤ n ∧ n < 0x25 then some (.fcnt ⟨n - 0x21, by omega⟩)
  else
    match n with
    | 0x00 => some .cmd
    | 0x01 => some .status
    | 0x02 => some .result
    | 0x03 => some .ctrl
    | 0x04 => some .data
    | 0x05 => some .crc
    | 0x06 => some .sld
    | 0x07 => some .dirIdx
    | 0x08 => some .dirCnt
    | 0x09 => some .famEn
    | 0x0A => some .tempL
    | 0x0B => some .tempH
    | _ => none

/-- CMD as it reads: the last accepted opcode (R32), and during BUSY the value from before the command (R52,
70_reset_and_hazards.md R341; log entry 26). -/
def State.readCmd (s : State) : Byte :=
  match s.engine.seq with
  | .idle => s.regs.cmd
  | .busy _ _ => s.engine.cmdBefore

/-- A register as it reads (R32-R47). Results of a command in progress are not committed yet, so a read during BUSY
returns the value from before the command (R52). -/
def State.readReg (s : State) (r : Reg) : Byte :=
  match r with
  | .cmd => s.readCmd
  | .status => s.status
  | .result => s.regs.result.bits.setWidth 8
  | .ctrl => s.regs.ctrl
  | .data => s.regs.data
  | .crc => s.regs.crc
  | .sld => BitVec.ofNat 8 s.regs.cursor.sld
  | .dirIdx => s.regs.dirIdx
  | .dirCnt => s.regs.dirCnt
  | .famEn => s.regs.famEn.setWidth 8
  | .tempL => s.regs.temp.extractLsb' 0 8
  | .tempH => s.regs.temp.extractLsb' 8 8
  | .fam i => s.regs.fam[i]
  | .rom k => byteOf s.regs.rom k
  | .spad k => byteOf s.regs.spad k
  | .fcnt i => s.regs.fcnt[i]

/-- `MemRead(OWM_BASE + a, 1)` (20_memory.md R80): a reserved address reads 0 (R49). -/
def State.memRead (s : State) (a : Byte) : Byte :=
  match regAt a with
  | some r => s.readReg r
  | none => 0x00

/-! ## Writes -/

/-- The soft reset (70_reset_and_hazards.md R331). The line is released at once; inside a slot that cuts the slot short,
the devices' modes are unknown after it, and the guard's saved HOST_I is restored. -/
def State.softReset (s : State) : State :=
  let t : State := if s.engine.pos = 0 then s else
    { s.restoreHostI with
      line := { s.line with trace := .cut :: s.line.trace }
      bus := { s.bus with lost := true } }
  { t with regs := Regs.reset, engine := Engine.reset }

/-- A CTRL write, accepted at any time (R82): IE first, then SRST. -/
def State.writeCtrl (s : State) (v : Byte) : State :=
  let t : State := { s with regs := { s.regs with ie := v.getLsbD 0 } }
  if v.getLsbD 1 then t.softReset else t

/-- A write while the engine is Idle to a register other than CMD and CTRL (R82): W1C bits of STATUS, the RW registers,
and nothing for the RO ones. -/
def Regs.writeIdle (g : Regs) (r : Reg) (v : Byte) : Regs :=
  match r with
  | .status => { g with done := g.done && !v.getLsbD 1, ovr := g.ovr && !v.getLsbD 4 }
  | .data => { g with data := v }
  | .crc => { g with crc := v }
  | .dirIdx => { g with dirIdx := v }
  | .famEn => { g with famEn := v.extractLsb' 0 4 }
  | .fam i => { g with fam := g.fam.set i v }
  | .rom k => { g with rom := setByte g.rom k v }
  | .spad k => { g with spad := setByte g.spad k v }
  | .cmd | .ctrl | .result | .sld | .dirCnt | .tempL | .tempH | .fcnt _ => g

/-- `MemWrite(OWM_BASE + a, 1, v)` (R82). A write of CMD issues its command and no more; the command's own steps follow
(30_encoding.md R111). -/
def State.memWrite (s : State) (a v : Byte) : State :=
  if regAt a = some .ctrl then s.writeCtrl v
  else
    match s.engine.seq with
    | .busy _ _ => s.setOvr
    | .idle =>
      match regAt a with
      | some .cmd => s.issue v
      | some r => { s with regs := s.regs.writeIdle r v }
      | none => s

/-! ## One access -/

/-- An access is due to reach the OWM by the clock of engine events, so it may land inside a command. -/
def State.accessDue (s : State) : Bool :=
  match s.host with
  | ⟨some _, _⟩ :: _ => true
  | ⟨none, _⟩ :: _ => false
  | [] => false

/-- A write of CMD that is accepted: with no access due meanwhile the command runs through, as `exec` gives it; with
one due it is issued, and its events follow one at a time (log entry 1). An illegal opcode completes at once. -/
def State.writeCmd (s : State) (v : Byte) : Host.Outcome State Fault Refusal :=
  match decode .cmd8 v with
  | .ok i => if s.accessDue then .next (s.issue v) else exec i s
  | .error _ => .next (s.issue v)

/-- A host access performed (R80-R82, R90). A read is recorded with its address. A WAIT that meets BUSY = 1 goes on
polling, so it is done once the engine is Idle (log entry 12). -/
def State.perform (s : State) (op : HostOp) : Host.Outcome State Fault Refusal :=
  match op with
  | .rd a => .next { s with reads := (a, s.memRead a) :: s.reads }
  | .wr a v =>
    match s.engine.seq, regAt a with
    | .idle, some .cmd => s.writeCmd v
    | _, _ => .next (s.memWrite a v)
  | .wait =>
    match s.engine.seq with
    | .idle => .next s
    | .busy _ _ => .next { s with host := ⟨none, .wait⟩ :: s.host }
  | .wide _ _ => .refused .wideAccess

/-- The engine Idle: the next access, or, with none left, waiting (60_exceptions.md R316; log entry 19). -/
def State.idleStep (s : State) : Host.Outcome State Fault Refusal :=
  match s.host with
  | [] => .next s
  | p :: rest => ({ s with host := rest } : State).perform p.op

/-- A command in progress: the access that lands now, or the next engine event. -/
def State.busyStep (s : State) : Host.Outcome State Fault Refusal :=
  match s.host with
  | ⟨some 0, op⟩ :: rest => ({ s with host := rest } : State).perform op
  | ⟨some (n + 1), op⟩ :: rest => .next ({ s with host := ⟨some n, op⟩ :: rest } : State).engineStep
  | ⟨none, _⟩ :: _ => .next s.engineStep
  | [] => .next s.engineStep

/-- A WIRE8 byte waiting to be sent by itself; any other byte is not sent (30_encoding.md R118; log entry 8). -/
def State.sendWire (s : State) (b : Byte) : Host.Outcome State Fault Refusal :=
  let t : State := { s with engine := { s.engine with txByte := none } }
  match decode .wire8 b with
  | .ok i => exec i t
  | .error _ => .next t

/-! ## Host programs -/

/-- The address a program line names (30_encoding.md R119). -/
def RegRef.addr (r : RegRef) : Byte :=
  match r with
  | .named r => regAddr r
  | .raw a => a

/-- `CMD m`: the write of its opcode to CMD (R119). -/
def cmdOp (m : Instr) : HostOp := .wr (regAddr .cmd) (encode m)

/-- The host accesses of a line, by R119 and the expansions of R120. -/
def lineOps (l : Line) : List HostOp :=
  match l with
  | .wr r v => [.wr (RegRef.addr r) v]
  | .rd r => [.rd (RegRef.addr r)]
  | .cmd m => [cmdOp m]
  | .wait => [.wait]
  | .owWriteBit b => [.wr (regAddr .data) (if b then 0x01 else 0x00), cmdOp .owbit, .wait]
  | .owReadBit => [.wr (regAddr .data) 0x01, cmdOp .owbit, .wait, .rd (regAddr .data)]
  | .owWriteByte b => [.wr (regAddr .data) b, cmdOp .owbyte, .wait]
  | .owReadByte => [.wr (regAddr .data) 0xFF, cmdOp .owbyte, .wait, .rd (regAddr .data)]
  | .setRom a0 a1 a2 a3 a4 a5 a6 a7 =>
    [.wr (regAddr (.rom 0)) a0, .wr (regAddr (.rom 1)) a1, .wr (regAddr (.rom 2)) a2, .wr (regAddr (.rom 3)) a3,
     .wr (regAddr (.rom 4)) a4, .wr (regAddr (.rom 5)) a5, .wr (regAddr (.rom 6)) a6, .wr (regAddr (.rom 7)) a7]
  | .ack => [.wr (regAddr .status) 0x02]
  | .run m => [cmdOp m, .wait, .rd (regAddr .result)]

/-- The accesses of a program in order, every pseudo-instruction expanded (R318). Each reaches the OWM the number of
engine events after the one before it that `arrivals` gives, and past the end of `arrivals` a free number: of a program
only WAIT waits for the engine, so an access after a CMD may land inside the command (log entry 1). -/
def programAccesses (prog : List Line) (arrivals : List Nat) : List Pending :=
  (prog.flatMap lineOps).zipIdx.map fun x =>
    { arrive := some ((arrivals[x.2]?).getD (Config.freeArrival x.2)), op := x.1 }

/-- A launch (R318): the state at launch, with the bus environment's draws in it, its host given a program. -/
def State.launch (s : State) (prog : List Line) (arrivals : List Nat) : State :=
  { s with host := programAccesses prog arrivals }

/-- The end of a run (R318): the last line has been performed and the engine is Idle. -/
def State.ended (s : State) : Bool := s.host.isEmpty && !s.busy

end Sys2Proof.Machine
end

