-- ==== Sys2Proof/Machine/Step.lean ====
section
/-! DEFINITION. One step of the whole machine, and where it takes its next instruction from. The OWM fetches nothing
(spec/10_state.md R31): an instruction comes as a host write of CMD (spec/30_encoding.md R110). -/

namespace Sys2Proof.Machine

/-- One step: while a command is in progress, the access that lands now or the next engine event; while the engine is
Idle, a wire byte waiting to be sent, or the next host access. -/
def step (s : State) : Host.Outcome State Fault Refusal :=
  match s.engine.seq with
  | .busy _ _ => s.busyStep
  | .idle =>
    match s.engine.txByte with
    | some b => s.sendWire b
    | none => s.idleStep

/-- The state whose very next step runs the instruction of a table word: the engine Idle and, for a CMD8 byte, its
write to CMD as the host's program, for a WIRE8 byte that byte waiting to be sent (log entries 8 and 13). -/
def State.withFetchWord (s : State) (nbits w : Nat) : State :=
  let v := BitVec.ofNat 8 (w % 2 ^ nbits)
  match decode .wire8 v with
  | .ok _ => { s with engine := { Engine.reset with txByte := some v } }
  | .error _ => { s with engine := Engine.reset, host := [{ arrive := none, op := .wr (regAddr .cmd) v }] }

end Sys2Proof.Machine
end

