-- ==== Sys2Proof/Laws/State.lean ====
section
/-! SUPPORT. One lemma per field and update: what each small update of the state leaves as it was. -/

namespace Sys2Proof.Machine

variable (s : State) (t : Nat) (pt : SamplePoint) (v : Byte) (st : Staged) (k : SlotKind)

/-! ## `driveLow` and `release` -/

@[simp] theorem State.driveLow_params : (s.driveLow t).params = s.params := rfl
@[simp] theorem State.driveLow_regs : (s.driveLow t).regs = s.regs := rfl
@[simp] theorem State.driveLow_engine : (s.driveLow t).engine = { s.engine with ldOut := .low } := rfl
@[simp] theorem State.driveLow_hostI : (s.driveLow t).hostI = s.hostI := rfl
@[simp] theorem State.driveLow_bus : (s.driveLow t).bus = s.bus := rfl
@[simp] theorem State.driveLow_line : (s.driveLow t).line = { s.line with trace := .low t :: s.line.trace } := rfl
@[simp] theorem State.driveLow_host : (s.driveLow t).host = s.host := rfl
@[simp] theorem State.driveLow_reads : (s.driveLow t).reads = s.reads := rfl

@[simp] theorem State.release_params : (s.release t).params = s.params := rfl
@[simp] theorem State.release_regs : (s.release t).regs = s.regs := rfl
@[simp] theorem State.release_engine : (s.release t).engine = { s.engine with ldOut := .released } := rfl
@[simp] theorem State.release_hostI : (s.release t).hostI = s.hostI := rfl
@[simp] theorem State.release_bus : (s.release t).bus = s.bus := rfl
@[simp] theorem State.release_line : (s.release t).line = { s.line with trace := .rel t :: s.line.trace } := rfl
@[simp] theorem State.release_host : (s.release t).host = s.host := rfl
@[simp] theorem State.release_reads : (s.release t).reads = s.reads := rfl

/-! ## `sample` -/

@[simp] theorem State.sample_fst : (s.sample pt t).1 = (s.level pt).1 := rfl
@[simp] theorem State.sample_params : (s.sample pt t).2.params = s.params := rfl
@[simp] theorem State.sample_regs : (s.sample pt t).2.regs = s.regs := rfl
@[simp] theorem State.sample_engine : (s.sample pt t).2.engine = s.engine := rfl
@[simp] theorem State.sample_hostI : (s.sample pt t).2.hostI = s.hostI := rfl
@[simp] theorem State.sample_bus : (s.sample pt t).2.bus = (s.level pt).2 := rfl
@[simp] theorem State.sample_line :
    (s.sample pt t).2.line = { s.line with trace := .smp t (s.level pt).1 :: s.line.trace } := rfl
@[simp] theorem State.sample_host : (s.sample pt t).2.host = s.host := rfl
@[simp] theorem State.sample_reads : (s.sample pt t).2.reads = s.reads := rfl

/-! ## `accept`, `finish` and `setOvr` -/

@[simp] theorem State.accept_params : (s.accept v).params = s.params := rfl
@[simp] theorem State.accept_regs : (s.accept v).regs = s.regs.accept v := rfl
@[simp] theorem State.accept_engine : (s.accept v).engine =
    { s.engine with seq := .busy v 0, samples := [], slotSamples := [], pos := 0, cmdBefore := s.regs.cmd } := rfl
@[simp] theorem State.accept_hostI : (s.accept v).hostI = s.hostI := rfl
@[simp] theorem State.accept_bus : (s.accept v).bus = s.bus := rfl
@[simp] theorem State.accept_line : (s.accept v).line = s.line := rfl
@[simp] theorem State.accept_host : (s.accept v).host = s.host := rfl
@[simp] theorem State.accept_reads : (s.accept v).reads = s.reads := rfl

@[simp] theorem State.finish_params : (s.finish st).params = s.params := rfl
@[simp] theorem State.finish_regs : (s.finish st).regs = s.regs.commit st := rfl
@[simp] theorem State.finish_engine : (s.finish st).engine =
    { s.engine with seq := .idle, samples := [], slotSamples := [], pos := 0, cmdBefore := 0x00 } := rfl
@[simp] theorem State.finish_hostI : (s.finish st).hostI = s.hostI := rfl
@[simp] theorem State.finish_bus : (s.finish st).bus = s.bus := rfl
@[simp] theorem State.finish_line : (s.finish st).line = s.line := rfl
@[simp] theorem State.finish_host : (s.finish st).host = s.host := rfl
@[simp] theorem State.finish_reads : (s.finish st).reads = s.reads := rfl

@[simp] theorem State.setOvr_params : s.setOvr.params = s.params := rfl
@[simp] theorem State.setOvr_regs : s.setOvr.regs = { s.regs with ovr := true } := rfl
@[simp] theorem State.setOvr_engine : s.setOvr.engine = s.engine := rfl
@[simp] theorem State.setOvr_hostI : s.setOvr.hostI = s.hostI := rfl
@[simp] theorem State.setOvr_bus : s.setOvr.bus = s.bus := rfl
@[simp] theorem State.setOvr_line : s.setOvr.line = s.line := rfl
@[simp] theorem State.setOvr_host : s.setOvr.host = s.host := rfl
@[simp] theorem State.setOvr_reads : s.setOvr.reads = s.reads := rfl

/-! ## The slot's guard: `beginSlot`, `restoreHostI`, `endSlot` -/

@[simp] theorem State.beginSlot_params : s.beginSlot.params = s.params := by
  unfold State.beginSlot; dsimp only; split <;> rfl
@[simp] theorem State.beginSlot_regs : s.beginSlot.regs = s.regs := by
  unfold State.beginSlot; dsimp only; split <;> rfl
@[simp] theorem State.beginSlot_bus : s.beginSlot.bus = s.bus := by
  unfold State.beginSlot; dsimp only; split <;> rfl
@[simp] theorem State.beginSlot_host : s.beginSlot.host = s.host := by
  unfold State.beginSlot; dsimp only; split <;> rfl
@[simp] theorem State.beginSlot_reads : s.beginSlot.reads = s.reads := by
  unfold State.beginSlot; dsimp only; split <;> rfl
@[simp] theorem State.beginSlot_line : s.beginSlot.line =
    { s.line with
      gaps := if s.line.slots = 0 then s.line.gaps else Config.freeGap s.line.slots :: s.line.gaps
      slots := s.line.slots + 1 } := by
  unfold State.beginSlot; dsimp only; split <;> rfl
theorem State.beginSlot_engine : s.beginSlot.engine =
    { s.engine with
      savedI := match s.params.realisation with
        | .peripheral => s.engine.savedI
        | .bitBang => some s.hostI } := by
  unfold State.beginSlot; dsimp only; split <;> simp_all
theorem State.beginSlot_hostI : s.beginSlot.hostI =
    (match s.params.realisation with
      | .peripheral => s.hostI
      | .bitBang => false) := by
  unfold State.beginSlot; dsimp only; split <;> simp_all

@[simp] theorem State.restoreHostI_params : s.restoreHostI.params = s.params := by
  unfold State.restoreHostI; split <;> rfl
@[simp] theorem State.restoreHostI_regs : s.restoreHostI.regs = s.regs := by
  unfold State.restoreHostI; split <;> rfl
@[simp] theorem State.restoreHostI_bus : s.restoreHostI.bus = s.bus := by
  unfold State.restoreHostI; split <;> rfl
@[simp] theorem State.restoreHostI_line : s.restoreHostI.line = s.line := by
  unfold State.restoreHostI; split <;> rfl
@[simp] theorem State.restoreHostI_host : s.restoreHostI.host = s.host := by
  unfold State.restoreHostI; split <;> rfl
@[simp] theorem State.restoreHostI_reads : s.restoreHostI.reads = s.reads := by
  unfold State.restoreHostI; split <;> rfl
theorem State.restoreHostI_engine : s.restoreHostI.engine =
    { s.engine with
      savedI := match s.params.realisation with
        | .peripheral => s.engine.savedI
        | .bitBang => none } := by
  unfold State.restoreHostI; split <;> simp_all
theorem State.restoreHostI_hostI : s.restoreHostI.hostI =
    (match s.params.realisation with
      | .peripheral => s.hostI
      | .bitBang => s.engine.savedI.getD s.hostI) := by
  unfold State.restoreHostI; split <;> simp_all

@[simp] theorem State.endSlot_params : (s.endSlot k).params = s.params := by simp [State.endSlot]
@[simp] theorem State.endSlot_regs : (s.endSlot k).regs = s.regs := by simp [State.endSlot]
@[simp] theorem State.endSlot_bus : (s.endSlot k).bus = s.bus.afterSlot k := by simp [State.endSlot]
@[simp] theorem State.endSlot_line : (s.endSlot k).line = s.line := by simp [State.endSlot]
@[simp] theorem State.endSlot_host : (s.endSlot k).host = s.host := by simp [State.endSlot]
@[simp] theorem State.endSlot_reads : (s.endSlot k).reads = s.reads := by simp [State.endSlot]
theorem State.endSlot_engine : (s.endSlot k).engine =
    { s.engine with
      savedI := match s.params.realisation with
        | .peripheral => s.engine.savedI
        | .bitBang => none } := by
  simp [State.endSlot, State.restoreHostI_engine]
theorem State.endSlot_hostI : (s.endSlot k).hostI =
    (match s.params.realisation with
      | .peripheral => s.hostI
      | .bitBang => s.engine.savedI.getD s.hostI) := by
  simp [State.endSlot, State.restoreHostI_hostI]

/-! ## Closing a slot -/

@[simp] theorem State.closeSlot_params : (s.closeSlot k).params = s.params := by simp [State.closeSlot]
@[simp] theorem State.closeSlot_regs : (s.closeSlot k).regs = s.regs := by simp [State.closeSlot]
@[simp] theorem State.closeSlot_bus : (s.closeSlot k).bus = s.bus.afterSlot k := by simp [State.closeSlot]
@[simp] theorem State.closeSlot_line : (s.closeSlot k).line = s.line := by simp [State.closeSlot]
@[simp] theorem State.closeSlot_host : (s.closeSlot k).host = s.host := by simp [State.closeSlot]
@[simp] theorem State.closeSlot_reads : (s.closeSlot k).reads = s.reads := by simp [State.closeSlot]

end Sys2Proof.Machine
end

