-- ==== Sys2Proof/WellFormed.lean ====
section
/-! DEFINITION. What makes the given data well formed: the parameters (spec/00_scope.md R6), a host access
(spec/20_memory.md R80, R90), a line of a host program (spec/30_encoding.md R119, R121). -/

namespace Sys2Proof

/-- Every instruction is well formed: no row of the opcode table has an operand field (R110). -/
def Instr.wf (i : Instr) : Bool :=
  match i with
  | .owrst | .owbit | .owbyte | .srchrst | .srchnext | .enum | .dirld | .select | .convt | .rdtemp
  | .crcclr | .crcbyte | .decode | .searchRom | .matchRom | .convertT | .readScratchpad => true

/-- An access the interface has: one byte wide (R80: "No access of any other width exists"). -/
def HostOp.wf (op : HostOp) : Bool :=
  match op with
  | .rd _ | .wr _ _ | .wait => true
  | .wide _ _ => false

/-- A line of a program: the mnemonic of `CMD` and of `RUN` is a host command, no wire byte (R119, R121). -/
def Line.wf (l : Line) : Bool :=
  match l with
  | .cmd m | .run m => decide (m.format = .cmd8)
  | .wr _ _ | .rd _ | .wait | .owWriteBit _ | .owReadBit | .owWriteByte _ | .owReadByte
  | .setRom _ _ _ _ _ _ _ _ | .ack => true

/-- `MAX_DEVICES` is 1..255 (R6). -/
def Params.maxDevicesOk (p : Params) : Bool := decide (1 ≤ p.maxDevices ∧ p.maxDevices ≤ 255)

/-- `ENUM_PASS_LIMIT` is 1..255 (R6). -/
def Params.passLimitOk (p : Params) : Bool := decide (1 ≤ p.enumPassLimit ∧ p.enumPassLimit ≤ 255)

/-- `F_CLK`, the reset-slot times and `T_CONV` are positive (R6). -/
def Params.positiveOk (p : Params) : Bool :=
  decide (0 < p.fClk ∧ 0 < p.tRstl ∧ 0 < p.tPds ∧ 0 < p.tRsth ∧ 0 < p.tConv)

/-- `T_LOW1 ≥ 1`, `T_MSR ≥ 1` and `T_LOW1 + T_MSR < T_LOW0` (R6). -/
def Params.sampleOk (p : Params) : Bool :=
  decide (1 ≤ p.tLow1 ∧ 1 ≤ p.tMsr ∧ p.tLow1 + p.tMsr < p.tLow0)

/-- `T_REC ≥ 1` and `T_SLOT ≥ T_LOW0 + T_REC` (R6). -/
def Params.recoveryOk (p : Params) : Bool := decide (1 ≤ p.tRec ∧ p.tLow0 + p.tRec ≤ p.tSlot)

/-- The constraints of R6's table. -/
def Params.wf (p : Params) : Bool :=
  p.maxDevicesOk && p.passLimitOk && p.positiveOk && p.sampleOk && p.recoveryOk

end Sys2Proof
end

