-- ==== Sys2Proof/Safety.lean ====
section
/-! DEFINITION. The terms in which claims are stated: the invariant of a sound state, and the line traces of slots and
byte exchanges (spec/41_transport.md R144). -/

namespace Sys2Proof.Machine

/-! ## Line traces, newest event first -/

/-- The trace of a reset slot with presence sample `p` and stuck-line sample `s` (R142). -/
def resetTrace (c : Params) (p s : Bool) : List LineEvent :=
  [.smp (c.tRstl + c.tPds + c.tRsth) s, .smp (c.tRstl + c.tPds) p, .rel c.tRstl, .low 0]

/-- The trace of a bit slot sending `o` and sampling `i` (R145). -/
def bitTrace (c : Params) (o i : Bool) : List LineEvent :=
  if o then [.smp (c.tLow1 + c.tMsr) i, .rel c.tLow1, .low 0]
  else [.rel c.tLow0, .smp (c.tLow1 + c.tMsr) i, .low 0]

/-- The trace of a byte exchange sending `b` and receiving `r`: bit 0 first (R147). -/
def byteTrace (c : Params) (b r : Byte) : List LineEvent :=
  (List.range 8).reverse.flatMap fun j => bitTrace c (b.getLsbD j) (r.getLsbD j)

/-- The trace of byte exchanges one after another, each given as the byte sent and the byte received. -/
def bytesTrace (c : Params) (xs : List (Byte × Byte)) : List LineEvent :=
  xs.reverse.flatMap fun x => byteTrace c x.1 x.2

/-- The trace of one search position: the bit `b`, its complement `cb`, and the direction `d` written back, whose own
sample is `x` (42_search.md R183). -/
def positionTrace (c : Params) (b cb d x : Bool) : List LineEvent :=
  bitTrace c d x ++ bitTrace c true cb ++ bitTrace c true b

/-! ## Commands as claims speak of them -/

/-- What every host command leaves as it was outside the registers, the line and the bus environment; the engine is Idle
after it. -/
structure AfterCommand (s t : State) : Prop where
  params : t.params = s.params
  hostI : t.hostI = s.hostI
  host : t.host = s.host
  reads : t.reads = s.reads
  idle : t.engine.seq = .idle
  txByte : t.engine.txByte = s.engine.txByte

/-- A command that makes no slot leaves the line and the bus environment too. -/
structure NoSlot (s t : State) : Prop where
  after : AfterCommand s t
  line : t.line = s.line
  bus : t.bus = s.bus
  ldOut : t.engine.ldOut = s.engine.ldOut

/-- The state after an instruction that completes. -/
def afterExec (i : Instr) (s : State) : State :=
  match exec i s with
  | .next t => t
  | .fault _ | .refused _ => s

/-- The state after `n` SRCHNEXT commands. -/
def afterSearches (s : State) (n : Nat) : State :=
  match n with
  | 0 => s
  | n + 1 => afterExec .srchnext (afterSearches s n)

/-- The state with its cursor Fresh, SPATH kept. -/
def State.fromFresh (s : State) : State :=
  { s with regs := { s.regs with cursor := { s.regs.cursor with sld := 0, sdone := false } } }

/-- The addresses found by the first `n` of the passes from a Fresh cursor whose CRC is right and whose family code an
active allow-list slot holds, in discovery order (42_search.md R195, R196). -/
def keptAfter (s : State) (n : Nat) : List Addr :=
  (List.range n).filterMap fun k =>
    let u := afterSearches s.fromFresh (k + 1)
    if u.regs.result = .ok ∧ (s.regs.famSlot (byteOf u.regs.rom 0)).isSome = true then some u.regs.rom else none

/-- The first `n` passes from a Fresh cursor all complete, and none of them ends ENUM: neither the whole bus is walked
nor the directory full (R195, R197). -/
def EnumGoesOn (s : State) (n : Nat) : Prop :=
  ∀ k, 1 ≤ k → k ≤ n →
    (afterSearches s.fromFresh k).regs.result ∈ [.ok, .crcError] ∧
      (afterSearches s.fromFresh k).regs.cursor.sdone = false ∧ (keptAfter s k).length ≠ s.params.maxDevices

/-- The key `K(a)` of 00_scope.md R13: the first bit on the wire is the most significant. -/
def kKey (a : Addr) : Nat := ((List.range 64).map fun j => if rombit a (j + 1) then 2 ^ (63 - j) else 0).sum

/-- The reference bus of these devices, no draw fixed in advance (45_bus_environment.md R284). -/
def State.onReferenceBus (s : State) (ds : List Device) : Prop :=
  s.bus.kind = .reference ∧ s.bus.script = [] ∧ s.bus.devices = ds ∧ (ds.map Device.addr).Nodup

/-! ## Accesses that land in a command -/

/-- An access that leaves a command in progress as it is: one byte wide, and no soft reset (20_memory.md R82, R90). -/
def leavesCommand (op : HostOp) : Bool :=
  match op with
  | .rd _ | .wait => true
  | .wr a v => !(a == 0x03 && v.getLsbD 1)
  | .wide _ _ => false

/-- An access that sets OVR where it lands in a command: a write to any register but CTRL (R82). -/
def setsOvr (op : HostOp) : Bool :=
  match op with
  | .wr a _ => a != 0x03
  | .rd _ | .wait | .wide _ _ => false

/-- IE after an access: what a CTRL write says, else as it was (R82). -/
def ieAfter (ie : Bool) (op : HostOp) : Bool :=
  match op with
  | .wr a v => if a = 0x03 then v.getLsbD 0 else ie
  | .rd _ | .wait | .wide _ _ => ie

/-! ## Sound states -/

/-- The drive of the line after the first events of a slot. -/
def driveAfter (ops : List LineOp) : LineDrive :=
  ops.foldl (fun d op => match op with | .low _ => .low | .rel _ => .released | .smp _ _ | .recover _ => d) .released

/-- How many samples the first events of a slot take. -/
def samplesIn (ops : List LineOp) : Nat :=
  ops.countP fun op => match op with | .smp _ _ => true | .low _ | .rel _ | .recover _ => false

/-- The slot the command in progress is at. -/
def State.currentSlot (s : State) : Option SlotKind :=
  match s.engine.seq with
  | .idle => none
  | .busy opc _ =>
    match s.remaining opc with
    | .done _ => none
    | .reset _ => some .reset
    | .bit o _ => some (.bit o)

/-- The number FCNT0..FCNT3 count together. -/
def fcntSum (v : Vector Byte 4) : Nat := v[0].toNat + v[1].toNat + v[2].toNat + v[3].toNat

/-- What holds of the registers of a machine with these parameters, whatever runs on it. -/
structure Regs.Inv (p : Params) (r : Regs) : Prop where
  /-- SLD is 0..64 (10_state.md R38) -/
  sld_le : r.cursor.sld ≤ 64
  /-- the pair (k ≥ 1, 1) never occurs (R44) -/
  sdone_sld : r.cursor.sdone = true → r.cursor.sld = 0
  /-- DIRCNT is 0..MAX_DEVICES (R40) -/
  dirCnt_le : r.dirCnt.toNat ≤ p.maxDevices
  /-- entries 0..DIRCNT-1 have been written (R48) -/
  dirCnt_dir : r.dirCnt.toNat ≤ r.dir.length
  /-- DIR holds MAX_DEVICES entries (R48) -/
  dir_le : r.dir.length ≤ p.maxDevices
  /-- every valid entry is a valid address (20_memory.md R83, 42_search.md R195) -/
  dir_valid : ∀ a ∈ r.dir.take r.dirCnt.toNat, addrValid a = true
  /-- each entry is counted once in FCNT (R47, 42_search.md R196) -/
  fcnt_sum : fcntSum r.fcnt = r.dirCnt.toNat
  /-- CAP = 1 only when DIRCNT reached MAX_DEVICES (R33) -/
  cap_full : r.cap = true → r.dirCnt.toNat = p.maxDevices
  /-- TEMP is its reset value or a temperature the decoder accepts (R42) -/
  temp_range : r.temp = 0x8000 ∨ (-550 ≤ r.temp.toInt ∧ r.temp.toInt ≤ 1250)

/-- A sound state: what every step keeps. -/
structure State.Inv (s : State) : Prop where
  /-- the constraints of 00_scope.md R6 -/
  params_wf : s.params.wf = true
  regs : s.regs.Inv s.params
  /-- a command in progress has a legal opcode, and CMD holds it (30_encoding.md R111) -/
  busy_legal : ∀ opc k, s.engine.seq = .busy opc k → s.regs.cmd = opc ∧ ∃ i, decode .cmd8 opc = .ok i
  /-- DONE reads 0 while BUSY = 1 (10_state.md R52) -/
  busy_done : s.busy = true → s.regs.done = false
  /-- an Idle engine is between slots and holds nothing of a command (R53) -/
  idle_rest : s.engine.seq = .idle → s.engine.pos = 0 ∧ s.engine.samples = [] ∧ s.engine.cmdBefore = 0x00
  /-- between slots the line is released and the guard is not held (R50, 41_transport.md R148) -/
  between : s.engine.pos = 0 →
    s.engine.slotSamples = [] ∧ s.engine.ldOut = .released ∧ s.engine.savedI = none
  /-- inside a slot the drive and the samples are those its events so far leave (41_transport.md R142, R145) -/
  inside : 0 < s.engine.pos → ∃ k, s.currentSlot = some k ∧ s.engine.pos < (k.ops s.params).length ∧
    s.engine.ldOut = driveAfter ((k.ops s.params).take s.engine.pos) ∧
    s.engine.slotSamples.length = samplesIn ((k.ops s.params).take s.engine.pos)
  /-- inside a guarded slot host interrupts are suppressed and their prior state is saved (41_transport.md R148) -/
  guarded : 0 < s.engine.pos → s.params.realisation = .bitBang → s.hostI = false ∧ s.engine.savedI.isSome = true
  /-- the Peripheral realisation never holds the guard (R148) -/
  unguarded : s.params.realisation = .peripheral → s.engine.savedI = none

end Sys2Proof.Machine
end

