-- ==== Sys2Proof/Laws/Line.lean ====
section
/-! SUPPORT. What the shared operations on the line can do, said once: a slot, and the run of a procedure. -/

namespace Sys2Proof.Machine

/-- The engine after a slot: line released, and in the BitBang realisation nothing saved. -/
def slotEngine (c : Params) (e : Engine) : Engine :=
  { e with
    ldOut := .released
    savedI := match c.realisation with
      | .peripheral => e.savedI
      | .bitBang => none }

/-- The level the engine reads with the line released is a draw (45_bus_environment.md R282). -/
theorem State.level_released {s : State} (pt : SamplePoint) (h : s.engine.ldOut = .released) :
    s.level pt = s.bus.draw pt := by
  simp [State.level, h]

/-- While the engine drives the line low it reads 0, and no draw is taken (R281, R282). -/
theorem State.level_low {s : State} (pt : SamplePoint) (h : s.engine.ldOut = .low) :
    s.level pt = (false, s.bus) := by
  simp [State.level, h]

/-! ## The reset slot -/

theorem resetSlot_samples (s : State) :
    s.resetSlot.1 = ((s.bus.draw .presence).1, ((s.bus.draw .presence).2.draw .stuck).1) := by
  simp [State.resetSlot, State.level]

theorem resetSlot_bus (s : State) :
    s.resetSlot.2.bus = ((s.bus.draw .presence).2.draw .stuck).2.afterSlot .reset := by
  simp [State.resetSlot, State.level]

theorem resetSlot_trace (s : State) :
    s.resetSlot.2.line.trace = resetTrace s.params s.resetSlot.1.1 s.resetSlot.1.2 ++ s.line.trace := by
  simp [State.resetSlot, State.level, resetTrace]

theorem resetSlot_slots (s : State) : s.resetSlot.2.line.slots = s.line.slots + 1 := by
  simp [State.resetSlot]

theorem resetSlot_engine (s : State) : s.resetSlot.2.engine = slotEngine s.params s.engine := by
  simp only [State.resetSlot, State.endSlot_engine, slotEngine, State.sample_engine, State.sample_params,
    State.release_engine, State.release_params, State.driveLow_engine, State.driveLow_params,
    State.beginSlot_engine, State.beginSlot_params]
  cases s.params.realisation <;> rfl

theorem resetSlot_hostI (s : State) : s.resetSlot.2.hostI = s.hostI := by
  simp only [State.resetSlot, State.endSlot_hostI, State.sample_engine, State.sample_params, State.sample_hostI,
    State.release_engine, State.release_params, State.release_hostI, State.driveLow_engine, State.driveLow_params,
    State.driveLow_hostI, State.beginSlot_engine, State.beginSlot_params, State.beginSlot_hostI]
  cases s.params.realisation <;> rfl

@[simp] theorem resetSlot_params (s : State) : s.resetSlot.2.params = s.params := by simp [State.resetSlot]
@[simp] theorem resetSlot_regs (s : State) : s.resetSlot.2.regs = s.regs := by simp [State.resetSlot]
@[simp] theorem resetSlot_host (s : State) : s.resetSlot.2.host = s.host := by simp [State.resetSlot]
@[simp] theorem resetSlot_reads (s : State) : s.resetSlot.2.reads = s.reads := by simp [State.resetSlot]

/-! ## The bit slot -/

/-- A 0 sent reads 0 whatever the devices do (41_transport.md R146). -/
theorem bitSlot_zero (s : State) : (s.bitSlot false).1 = false := by
  simp [State.bitSlot, State.level]

theorem bitSlot_zero_bus (s : State) : (s.bitSlot false).2.bus = s.bus.afterSlot (.bit false) := by
  simp [State.bitSlot, State.level]

/-- A 1 sent reads the devices' answer (R146, R282). -/
theorem bitSlot_one (s : State) : (s.bitSlot true).1 = (s.bus.draw .answer).1 := by
  simp [State.bitSlot, State.level]

theorem bitSlot_one_bus (s : State) : (s.bitSlot true).2.bus = (s.bus.draw .answer).2.afterSlot (.bit true) := by
  simp [State.bitSlot, State.level]

theorem bitSlot_trace (s : State) (o : Bool) :
    (s.bitSlot o).2.line.trace = bitTrace s.params o (s.bitSlot o).1 ++ s.line.trace := by
  cases o <;> simp [State.bitSlot, bitTrace]

theorem bitSlot_slots (s : State) (o : Bool) : (s.bitSlot o).2.line.slots = s.line.slots + 1 := by
  cases o <;> simp [State.bitSlot]

theorem bitSlot_engine (s : State) (o : Bool) : (s.bitSlot o).2.engine = slotEngine s.params s.engine := by
  cases o <;>
    simp only [State.bitSlot, State.endSlot_engine, slotEngine, State.sample_engine, State.sample_params,
      State.release_engine, State.release_params, State.driveLow_engine, State.driveLow_params,
      State.beginSlot_engine, State.beginSlot_params] <;>
    cases s.params.realisation <;> rfl

theorem bitSlot_hostI (s : State) (o : Bool) : (s.bitSlot o).2.hostI = s.hostI := by
  cases o <;>
    simp only [State.bitSlot, State.endSlot_hostI, State.sample_engine, State.sample_params, State.sample_hostI,
      State.release_engine, State.release_params, State.release_hostI, State.driveLow_engine, State.driveLow_params,
      State.driveLow_hostI, State.beginSlot_engine, State.beginSlot_params, State.beginSlot_hostI] <;>
    cases s.params.realisation <;> rfl

@[simp] theorem bitSlot_params (s : State) (o : Bool) : (s.bitSlot o).2.params = s.params := by
  cases o <;> simp [State.bitSlot]
@[simp] theorem bitSlot_regs (s : State) (o : Bool) : (s.bitSlot o).2.regs = s.regs := by
  cases o <;> simp [State.bitSlot]
@[simp] theorem bitSlot_host (s : State) (o : Bool) : (s.bitSlot o).2.host = s.host := by
  cases o <;> simp [State.bitSlot]
@[simp] theorem bitSlot_reads (s : State) (o : Bool) : (s.bitSlot o).2.reads = s.reads := by
  cases o <;> simp [State.bitSlot]

/-! ## What the line's events leave alone -/

/-- Everything but the line, the bus environment and the drive is as it was. -/
structure OnlyLine (s t : State) : Prop where
  params : t.params = s.params
  regs : t.regs = s.regs
  hostI : t.hostI = s.hostI
  host : t.host = s.host
  reads : t.reads = s.reads
  engine : slotEngine s.params t.engine = slotEngine s.params s.engine
  rest : t.engine = s.engine ∨ t.engine = slotEngine s.params s.engine
  slots : s.line.slots ≤ t.line.slots

theorem slotEngine_idem (c : Params) (e : Engine) : slotEngine c (slotEngine c e) = slotEngine c e := by
  unfold slotEngine; cases c.realisation <;> rfl

/-- An engine between slots is as a slot leaves it. -/
theorem slotEngine_rest {c : Params} {e : Engine} (hl : e.ldOut = .released) (hs : e.savedI = none) :
    slotEngine c e = e := by
  obtain ⟨seq, samples, slotSamples, pos, ldOut, savedI, txByte⟩ := e
  simp only at hl hs
  subst hl hs
  unfold slotEngine
  cases c.realisation <;> rfl

theorem OnlyLine.refl (s : State) : OnlyLine s s := ⟨rfl, rfl, rfl, rfl, rfl, rfl, .inl rfl, le_refl _⟩

theorem OnlyLine.trans {s t u : State} (h : OnlyLine s t) (g : OnlyLine t u) : OnlyLine s u where
  params := g.params.trans h.params
  regs := g.regs.trans h.regs
  hostI := g.hostI.trans h.hostI
  host := g.host.trans h.host
  reads := g.reads.trans h.reads
  engine := by rw [← h.engine, ← h.params]; exact g.engine
  rest := by
    rcases g.rest with e | e
    · rw [e]; exact h.rest
    · rw [e, h.params, h.engine]; exact .inr rfl
  slots := le_trans h.slots g.slots

/-- If the engine was between slots before, it is exactly as it was. -/
theorem OnlyLine.engine_eq {s t : State} (h : OnlyLine s t) (hl : s.engine.ldOut = .released)
    (hs : s.engine.savedI = none) : t.engine = s.engine := by
  rcases h.rest with e | e
  · exact e
  · rw [e, slotEngine_rest hl hs]

theorem OnlyLine.seq {s t : State} (h : OnlyLine s t) : t.engine.seq = s.engine.seq := by
  rcases h.rest with e | e
  · rw [e]
  · rw [e]; rfl

theorem resetSlot_onlyLine (s : State) : OnlyLine s s.resetSlot.2 where
  params := resetSlot_params s
  regs := resetSlot_regs s
  hostI := resetSlot_hostI s
  host := resetSlot_host s
  reads := resetSlot_reads s
  engine := by rw [resetSlot_engine, slotEngine_idem]
  rest := .inr (resetSlot_engine s)
  slots := by rw [resetSlot_slots]; exact Nat.le_succ _

theorem bitSlot_onlyLine (s : State) (o : Bool) : OnlyLine s (s.bitSlot o).2 where
  params := bitSlot_params s o
  regs := bitSlot_regs s o
  hostI := bitSlot_hostI s o
  host := bitSlot_host s o
  reads := bitSlot_reads s o
  engine := by rw [bitSlot_engine, slotEngine_idem]
  rest := .inr (bitSlot_engine s o)
  slots := by rw [bitSlot_slots]; exact Nat.le_succ _

/-! ## Procedures -/

variable {α β : Type}

@[simp] theorem Proc.run_done (a : α) (s : State) : (Proc.done a).run s = (a, s) := rfl

theorem Proc.run_reset (k : Bool → Bool → Proc α) (s : State) :
    (Proc.reset k).run s = (k s.resetSlot.1.1 s.resetSlot.1.2).run s.resetSlot.2 := rfl

theorem Proc.run_bit (o : Bool) (k : Bool → Proc α) (s : State) :
    (Proc.bit o k).run s = (k (s.bitSlot o).1).run (s.bitSlot o).2 := rfl

@[simp] theorem Proc.done_bind (a : α) (f : α → Proc β) : (Proc.done a).bind f = f a := rfl

@[simp] theorem Proc.reset_bind (k : Bool → Bool → Proc α) (f : α → Proc β) :
    (Proc.reset k).bind f = .reset fun x y => (k x y).bind f := rfl

@[simp] theorem Proc.bit_bind (o : Bool) (k : Bool → Proc α) (f : α → Proc β) :
    (Proc.bit o k).bind f = .bit o fun i => (k i).bind f := rfl

/-- A procedure after another runs from the state the first one leaves. -/
theorem Proc.run_bind (p : Proc α) (f : α → Proc β) (s : State) :
    (p.bind f).run s = (f (p.run s).1).run (p.run s).2 := by
  induction p generalizing s with
  | done a => rfl
  | reset k ih => exact ih _ _ _
  | bit o k ih => exact ih _ _

theorem Proc.bind_assoc {γ : Type} (p : Proc α) (f : α → Proc β) (g : β → Proc γ) :
    (p.bind f).bind g = p.bind fun a => (f a).bind g := by
  induction p with
  | done a => rfl
  | reset k ih => simp [ih]
  | bit o k ih => simp [ih]

/-- The run of a procedure changes nothing but the line, the bus environment and the drive. -/
theorem Proc.run_onlyLine (p : Proc α) (s : State) : OnlyLine s (p.run s).2 := by
  induction p generalizing s with
  | done a => exact OnlyLine.refl s
  | reset k ih => exact (resetSlot_onlyLine s).trans (ih _ _ _)
  | bit o k ih => exact (bitSlot_onlyLine s o).trans (ih _ _)

@[simp] theorem Proc.run_params (p : Proc α) (s : State) : (p.run s).2.params = s.params := (p.run_onlyLine s).params
@[simp] theorem Proc.run_regs (p : Proc α) (s : State) : (p.run s).2.regs = s.regs := (p.run_onlyLine s).regs
@[simp] theorem Proc.run_hostI (p : Proc α) (s : State) : (p.run s).2.hostI = s.hostI := (p.run_onlyLine s).hostI
@[simp] theorem Proc.run_host (p : Proc α) (s : State) : (p.run s).2.host = s.host := (p.run_onlyLine s).host
@[simp] theorem Proc.run_reads (p : Proc α) (s : State) : (p.run s).2.reads = s.reads := (p.run_onlyLine s).reads

/-! ## Byte exchanges -/

/-- The events of a byte exchange from bit `j` on. -/
theorem xchgBits_run (b : Byte) (m j : Nat) (c : Byte) (s : State) (hj : j + m = 8)
    (hc : ∀ n, j ≤ n → c.getLsbD n = false) :
    ∃ r : Byte, ((xchgBits b m j c).run s).1 = r ∧
      (∀ n, n < j → r.getLsbD n = c.getLsbD n) ∧
      (∀ n, r.getLsbD n = true → c.getLsbD n = true ∨ b.getLsbD n = true) ∧
      ((xchgBits b m j c).run s).2.line.trace =
        ((List.range' j m).reverse.flatMap fun n => bitTrace s.params (b.getLsbD n) (r.getLsbD n)) ++ s.line.trace ∧
      ((xchgBits b m j c).run s).2.line.slots = s.line.slots + m := by
  induction m generalizing j c s with
  | zero => exact ⟨c, rfl, fun _ _ => rfl, fun n h => .inl h, by simp [xchgBits], rfl⟩
  | succ m ih =>
    have hj8 : j < 8 := by omega
    set i := (s.bitSlot (b.getLsbD j)).1 with hi
    set c' : Byte := if i then c ||| (1#8 <<< j) else c with hc'
    have hbit : ∀ n, c'.getLsbD n = (c.getLsbD n || (i && decide (n = j))) := by
      intro n
      rw [hc']
      by_cases hn : n = j
      · subst hn; cases i <;> simp [hj8]
      · cases i <;> simp [hn]
        intro _ h1 h2
        exact absurd (by omega) hn
    have hib : i = true → b.getLsbD j = true := by
      intro h
      by_contra hb
      have : b.getLsbD j = false := by simpa using hb
      rw [hi, this, bitSlot_zero] at h
      exact absurd h (by decide)
    have hlow : ∀ n, j + 1 ≤ n → c'.getLsbD n = false := by
      intro n hn
      rw [hbit, hc n (by omega)]
      have : n ≠ j := by omega
      simp [this]
    obtain ⟨r, h1, h2, h3, h4, h5⟩ := ih (j + 1) c' (s.bitSlot (b.getLsbD j)).2 (by omega) hlow
    have hrun : (xchgBits b (m + 1) j c).run s = (xchgBits b m (j + 1) c').run (s.bitSlot (b.getLsbD j)).2 := rfl
    have hrj : r.getLsbD j = i := by
      rw [h2 j (by omega), hbit, hc j (le_refl j)]; simp
    refine ⟨r, by rw [hrun, h1], ?_, ?_, ?_, ?_⟩
    · intro n hn
      rw [h2 n (by omega), hbit]
      have : n ≠ j := by omega
      simp [this]
    · intro n hn
      rcases h3 n hn with h | h
      · rw [hbit] at h
        rcases Bool.or_eq_true_iff.mp h with h | h
        · exact .inl h
        · obtain ⟨ha, hb⟩ := Bool.and_eq_true_iff.mp h
          have : n = j := by simpa using hb
          exact .inr (this ▸ hib ha)
      · exact .inr h
    · rw [hrun, h4, bitSlot_trace, bitSlot_params, ← hi, List.range'_succ, List.reverse_cons, List.flatMap_append]
      simp [hrj]
    · rw [hrun, h5, bitSlot_slots]; omega

/-- A byte exchange (41_transport.md R147): its events, and what it receives is 1 only where the byte sent is. -/
theorem byteXchg_run (b : Byte) (s : State) :
    ∃ r : Byte, ((byteXchg b).run s).1 = r ∧ r &&& ~~~b = 0 ∧
      ((byteXchg b).run s).2.line.trace = byteTrace s.params b r ++ s.line.trace ∧
      ((byteXchg b).run s).2.line.slots = s.line.slots + 8 := by
  obtain ⟨r, h1, -, h3, h4, h5⟩ := xchgBits_run b 8 0 0 s rfl (by simp)
  refine ⟨r, h1, ?_, ?_, h5⟩
  · apply BitVec.eq_of_getLsbD_eq
    intro n hn
    have := h3 n
    simp only [BitVec.getLsbD_and, BitVec.getLsbD_not, hn, decide_true, Bool.true_and]
    cases hr : r.getLsbD n
    · simp
    · rcases this hr with h | h
      · simp at h
      · simp [h]
  · rw [byteTrace, List.range_eq_range']; exact h4

theorem sendByte_run (b : Byte) (s : State) :
    ∃ r : Byte, ((sendByte b).run s).2.line.trace = byteTrace s.params b r ++ s.line.trace ∧
      ((sendByte b).run s).2.line.slots = s.line.slots + 8 := by
  obtain ⟨r, -, -, h4, h5⟩ := byteXchg_run b s
  exact ⟨r, by rw [sendByte, Proc.run_bind]; exact h4, by rw [sendByte, Proc.run_bind]; exact h5⟩

/-- The events of bytes sent one after another. -/
theorem sendBytes_run (bs : List Byte) (s : State) :
    ∃ rs : List Byte, rs.length = bs.length ∧
      ((sendBytes bs).run s).2.line.trace = bytesTrace s.params (bs.zip rs) ++ s.line.trace ∧
      ((sendBytes bs).run s).2.line.slots = s.line.slots + 8 * bs.length := by
  induction bs generalizing s with
  | nil => exact ⟨[], rfl, by simp [sendBytes, bytesTrace], rfl⟩
  | cons b bs ih =>
    obtain ⟨r, h1, h2⟩ := sendByte_run b s
    obtain ⟨rs, g0, g1, g2⟩ := ih ((sendByte b).run s).2
    refine ⟨r :: rs, by simp [g0], ?_, ?_⟩
    · rw [sendBytes, Proc.run_bind, g1, h1, Proc.run_params]
      simp [bytesTrace]
    · rw [sendBytes, Proc.run_bind, g2, h2]
      simp only [List.length_cons]; omega

end Sys2Proof.Machine
end

