-- ==== Sys2Proof/Laws/Command.lean ====
section
/-! SUPPORT. What a command does as a whole: its acceptance, its procedure and its commit, said once for every
command; the dependence of its procedure on the registers it reads; decoding against encoding. -/

namespace Sys2Proof.Machine

/-! ## Decoding -/

/-- A decoded byte is the encoding of the instruction, in its format. -/
theorem encode_of_decode {f : Format} {v : Byte} {i : Instr} (h : decode f v = .ok i) : i.format = f ∧ encode i = v := by
  cases f
  · unfold decode decodeCmd at h
    dsimp only at h
    split at h <;> first | (injection h with h; subst h; exact ⟨rfl, rfl⟩) | exact absurd h (by simp)
  · unfold decode decodeWire at h
    dsimp only at h
    split at h <;> first | (injection h with h; subst h; exact ⟨rfl, rfl⟩) | exact absurd h (by simp)

/-! ## The commit -/

/-- A command that stages no register writes RESULT and DONE alone. -/
theorem Regs.commit_code (r : Regs) (c : ResultCode) :
    r.commit { code := c } = { r with result := c, done := true } := rfl

/-- With a staged PRES besides. -/
theorem Regs.commit_pres (r : Regs) (c : ResultCode) (p : Bool) :
    r.commit { code := c, pres := some p } = { r with result := c, done := true, pres := p } := rfl

/-- With a staged DATA besides. -/
theorem Regs.commit_data (r : Regs) (c : ResultCode) (b : Byte) :
    r.commit { code := c, data := some b } = { r with result := c, done := true, data := b } := rfl

/-! ## A whole command -/

/-- From an Idle engine a command is accepted, runs and commits. -/
theorem runCommand_idle (i : Instr) (p : Params → Regs → Proc Staged) {s : State} (h : s.engine.seq = .idle) :
    runCommand i p s =
      .next (((p s.params (s.regs.accept (encode i))).run (s.accept (encode i))).2.finish
        ((p s.params (s.regs.accept (encode i))).run (s.accept (encode i))).1) := by
  unfold runCommand
  rw [h]
  rfl

/-- While a command runs, the write of another opcode sets OVR and no more (20_memory.md R82). -/
theorem runCommand_busy (i : Instr) (p : Params → Regs → Proc Staged) {s : State} {opc : Byte} {k : Nat}
    (h : s.engine.seq = .busy opc k) : runCommand i p s = .next s.setOvr := by
  unfold runCommand
  rw [h]

/-- Every host command's meaning is its procedure run as a whole command. -/
theorem exec_cmd8 (i : Instr) (hi : i.format = .cmd8) (s : State) : exec i s = runCommand i (procOf i) s := by
  cases i <;> first | rfl | exact absurd hi (by decide)

/-- Every wire byte's meaning is its exchange on the line. -/
theorem exec_wire8 (i : Instr) (hi : i.format = .wire8) (s : State) : exec i s = runWireByte i s := by
  cases i <;> first | rfl | exact absurd hi (by decide)

/-- What is as it was after a host command from an Idle engine, whatever the command: the parameters, HOST_I, the
host's accesses and reads; the engine is Idle again, and the registers are the old ones with one commit. -/
theorem runCommand_onlyLine (i : Instr) (p : Params → Regs → Proc Staged) {s : State} (h : s.engine.seq = .idle) :
    ∃ t, runCommand i p s = .next t ∧ t.params = s.params ∧ t.hostI = s.hostI ∧ t.host = s.host ∧
      t.reads = s.reads ∧ t.engine.seq = .idle ∧ s.line.slots ≤ t.line.slots ∧
      t.regs = (s.regs.accept (encode i)).commit
        ((p s.params (s.regs.accept (encode i))).run (s.accept (encode i))).1 := by
  have hq := (p s.params (s.regs.accept (encode i))).run_onlyLine (s.accept (encode i))
  exact ⟨_, runCommand_idle i p h, hq.params, hq.hostI, hq.host, hq.reads, rfl, hq.slots, by
    rw [State.finish_regs, hq.regs]; rfl⟩

/-! ## What a procedure reads -/

/-- A write that sets OVR does not disturb the command in progress (60_exceptions.md R304). -/
theorem procOf_ovr (i : Instr) (p : Params) (r : Regs) (b : Bool) : procOf i p { r with ovr := b } = procOf i p r := by
  cases i <;> rfl

/-- Nor does a CTRL write that leaves SRST 0. -/
theorem procOf_ie (i : Instr) (p : Params) (r : Regs) (b : Bool) : procOf i p { r with ie := b } = procOf i p r := by
  cases i <;> rfl

/-! ## The resumption of a procedure -/

variable {α : Type}

@[simp] theorem Proc.resume_nil (p : Proc α) : p.resume [] = p := by cases p <;> rfl

/-- After one more bit slot the procedure is where that slot's sample takes it. -/
theorem Proc.resume_bit {p : Proc α} {l : List Bool} {o : Bool} {k : Bool → Proc α} (h : p.resume l = .bit o k)
    (i : Bool) : p.resume (l ++ [i]) = k i := by
  induction p generalizing l with
  | done a => cases l <;> exact absurd h (by simp [Proc.resume])
  | reset f ih =>
    match l, h with
    | [], h => exact absurd h (by simp [Proc.resume])
    | [x], h => exact absurd h (by simp [Proc.resume])
    | x :: y :: rest, h => exact ih x y h
  | bit o' f ih =>
    match l, h with
    | [], h =>
      simp only [Proc.resume] at h
      injection h with h1 h2
      subst h2
      simp [Proc.resume]
    | x :: rest, h => exact ih x h

/-- After one more reset slot the procedure is where that slot's two samples take it, if it stood at that slot with no
sample left over. -/
theorem Proc.resume_append {p : Proc α} {l : List Bool} {q : Proc α} (h : ∀ l', p.resume (l ++ l') = q.resume l')
    (l' l'' : List Bool) : p.resume ((l ++ l') ++ l'') = q.resume (l' ++ l'') := by
  rw [List.append_assoc]; exact h _

end Sys2Proof.Machine
end

