-- ==== Sys2Proof/Laws/PerInstr.lean ====
section
/-! SUPPORT. Statements about instructions as syntax, one lemma for each constructor. -/

namespace Sys2Proof.Laws.Encoding

/-- The byte of an instruction decodes, in the format of its row, to that instruction, and to nothing in the other
format; and the instruction is well formed. -/
def Statement (i : Instr) : Prop :=
  decode i.format (encode i) = .ok i ∧
    (∀ f j, decode f (encode i) = .ok j → f = i.format ∧ j = i) ∧ i.wf = true

/-- The first part gives the second: two rows of one byte would have one encoding. -/
theorem of_decode {i : Instr} (h : decode i.format (encode i) = .ok i)
    (other : ∀ f, f ≠ i.format → ∀ j, decode f (encode i) ≠ .ok j) (hw : i.wf = true) : Statement i := by
  refine ⟨h, fun f j hj => ?_, hw⟩
  by_cases hf : f = i.format
  · subst hf
    rw [h] at hj
    injection hj with hj
    exact ⟨rfl, hj.symm⟩
  · exact absurd hj (other f hf j)

theorem owrst : Statement .owrst := of_decode rfl (by intro f hf j h; cases f <;> simp_all [decode, decodeWire, encode, Instr.format]) rfl
theorem owbit : Statement .owbit := of_decode rfl (by intro f hf j h; cases f <;> simp_all [decode, decodeWire, encode, Instr.format]) rfl
theorem owbyte : Statement .owbyte := of_decode rfl (by intro f hf j h; cases f <;> simp_all [decode, decodeWire, encode, Instr.format]) rfl
theorem srchrst : Statement .srchrst := of_decode rfl (by intro f hf j h; cases f <;> simp_all [decode, decodeWire, encode, Instr.format]) rfl
theorem srchnext : Statement .srchnext := of_decode rfl (by intro f hf j h; cases f <;> simp_all [decode, decodeWire, encode, Instr.format]) rfl
theorem enum : Statement .enum := of_decode rfl (by intro f hf j h; cases f <;> simp_all [decode, decodeWire, encode, Instr.format]) rfl
theorem dirld : Statement .dirld := of_decode rfl (by intro f hf j h; cases f <;> simp_all [decode, decodeWire, encode, Instr.format]) rfl
theorem select : Statement .select := of_decode rfl (by intro f hf j h; cases f <;> simp_all [decode, decodeWire, encode, Instr.format]) rfl
theorem convt : Statement .convt := of_decode rfl (by intro f hf j h; cases f <;> simp_all [decode, decodeWire, encode, Instr.format]) rfl
theorem rdtemp : Statement .rdtemp := of_decode rfl (by intro f hf j h; cases f <;> simp_all [decode, decodeWire, encode, Instr.format]) rfl
theorem crcclr : Statement .crcclr := of_decode rfl (by intro f hf j h; cases f <;> simp_all [decode, decodeWire, encode, Instr.format]) rfl
theorem crcbyte : Statement .crcbyte := of_decode rfl (by intro f hf j h; cases f <;> simp_all [decode, decodeWire, encode, Instr.format]) rfl
theorem decode : Statement .decode := of_decode rfl (by intro f hf j h; cases f <;> simp_all [Sys2Proof.decode, decodeWire, encode, Instr.format]) rfl
theorem searchRom : Statement .searchRom := of_decode rfl (by intro f hf j h; cases f <;> simp_all [Sys2Proof.decode, decodeCmd, encode, Instr.format]) rfl
theorem matchRom : Statement .matchRom := of_decode rfl (by intro f hf j h; cases f <;> simp_all [Sys2Proof.decode, decodeCmd, encode, Instr.format]) rfl
theorem convertT : Statement .convertT := of_decode rfl (by intro f hf j h; cases f <;> simp_all [Sys2Proof.decode, decodeCmd, encode, Instr.format]) rfl
theorem readScratchpad : Statement .readScratchpad := of_decode rfl (by intro f hf j h; cases f <;> simp_all [Sys2Proof.decode, decodeCmd, encode, Instr.format]) rfl

end Sys2Proof.Laws.Encoding
end

