-- ==== Sys2Proof/Certificates/Slice0/Obligations.lean ====
section
/-! DEFINITION. The statements for the provers, from the numbered rules of spec/. -/

open Sys2Proof Sys2Proof.Machine

/-! ## Encoding and the step -/

/-- 30_encoding.md R112, R117, R121: bytes written out from the tables decode to their instructions, and a wire byte
is no host command. -/
def Obligations.TableBytesDecodeToTheirRows : Prop :=
  decode .cmd8 0b00000001#8 = .ok .owrst ∧ decode .cmd8 0b00010010#8 = .ok .enum ∧
    decode .cmd8 0b00100010#8 = .ok .rdtemp ∧ decode .cmd8 0b00110010#8 = .ok .decode ∧
    decode .wire8 0b11110000#8 = .ok .searchRom ∧ decode .wire8 0b10111110#8 = .ok .readScratchpad ∧
    decode .cmd8 0b11110000#8 = .error (.illegalOpcode 0xF0)

/-- Each instruction's byte decodes, in its row's format, to that instruction, and to nothing in the other format. -/
def Obligations.EncodedInstructionsDecodeBack : Prop :=
  ∀ i : Instr, Laws.Encoding.Statement i

/-- R114: exactly 243 of the 256 byte values are illegal opcodes, 0x00 and 0xFF among them. -/
def Obligations.IllegalOpcodesAreTheOther243 : Prop :=
  ((List.range 256).filter fun n =>
    match decode .cmd8 (BitVec.ofNat 8 n) with
    | .ok _ => false
    | .error _ => true).length = 243 ∧
    decode .cmd8 0x00 = .error (.illegalOpcode 0x00) ∧ decode .cmd8 0xFF = .error (.illegalOpcode 0xFF)

/-- A step runs the decoded instruction: a write of an opcode to CMD, reaching an Idle engine with no further access
due inside the command, is `exec` of the command it decodes to, the access taken off the host's program (log entry 1).
-/
def Obligations.StepRunsTheWrittenCommand : Prop :=
  ∀ (s : State) (v : Byte) (i : Instr) (arrive : Option Nat) (rest : List Pending),
    s.engine.seq = .idle → s.engine.txByte = none → s.host = ⟨arrive, .wr 0x00 v⟩ :: rest →
    ({ s with host := rest } : State).accessDue = false → decode .cmd8 v = .ok i →
    step s = exec i { s with host := rest }

/-- A step sends a waiting wire byte: `exec` of the WIRE8 row it decodes to, the byte taken off. The waiting byte is
the model's own field (log entry 8). -/
def Obligations.StepSendsTheWaitingWireByte : Prop :=
  ∀ (s : State) (v : Byte) (i : Instr),
    s.engine.seq = .idle → s.engine.txByte = some v → decode .wire8 v = .ok i →
    step s = exec i { s with engine := { s.engine with txByte := none } }

/-- R111: a legal opcode written when a further access is due inside the command is accepted: CMD takes it, DONE
falls, BUSY rises and the sequencer stands at the command's first slot; nothing else changes but that the engine keeps
what CMD read before, for the reads during BUSY (log entries 1, 25 and 26).
-/
def Obligations.StepAcceptsACommandWithAnAccessDue : Prop :=
  ∀ (s : State) (v : Byte) (i : Instr) (arrive : Option Nat) (n : Nat) (op : HostOp) (rest : List Pending),
    s.engine.seq = .idle → s.engine.txByte = none →
    s.host = ⟨arrive, .wr 0x00 v⟩ :: ⟨some n, op⟩ :: rest → decode .cmd8 v = .ok i →
    step s = .next { s with
      host := ⟨some n, op⟩ :: rest
      regs := { s.regs with cmd := v, done := false }
      engine :=
        { s.engine with
          seq := .busy v 0, samples := [], slotSamples := [], pos := 0, cmdBefore := s.regs.cmd } }

/-- R111, R114: an illegal opcode written to CMD completes at once with ILLEGAL_CMD, sends nothing on the line and
changes no state beyond CMD, RESULT and DONE. -/
def Obligations.IllegalOpcodeOnlyReportsItself : Prop :=
  ∀ (s : State) (v : Byte) (e : DecodeError) (arrive : Option Nat) (rest : List Pending),
    s.engine.seq = .idle → s.engine.txByte = none → s.host = ⟨arrive, .wr 0x00 v⟩ :: rest →
    decode .cmd8 v = .error e →
    ∃ t, step s = .next t ∧ t.regs = { s.regs with cmd := v, result := .illegalCmd, done := true } ∧
      t.host = rest ∧ t.engine.seq = .idle ∧ t.engine.ldOut = s.engine.ldOut ∧ t.line = s.line ∧ t.bus = s.bus ∧
      t.hostI = s.hostI ∧ t.reads = s.reads ∧ t.params = s.params

/-! ## The host's accesses -/

/-- 20_memory.md R82, the whole table: CTRL at any time, OVR while BUSY, and each address while Idle; a register write
changes the registers of the RW addresses alone, SPATH and DIR not. And a step that performs a write is that `memWrite`:
landing inside a command, or with the engine Idle at any address but CMD's, whose step the statements about the opcodes
give. -/
def Obligations.HostWritesFollowTheTable : Prop :=
  ∀ (s : State) (a v : Byte),
    (∀ (arrive : Option Nat) (rest : List Pending), s.host = ⟨arrive, .wr a v⟩ :: rest →
      (s.engine.seq = .idle ∧ s.engine.txByte = none ∧ a ≠ 0x00) ∨ (s.engine.seq ≠ .idle ∧ arrive = some 0) →
      step s = .next (({ s with host := rest } : State).memWrite a v)) ∧
    (a = 0x03 → s.memWrite a v =
      (if v.getLsbD 1 then ({ s with regs := { s.regs with ie := v.getLsbD 0 } } : State).softReset
       else { s with regs := { s.regs with ie := v.getLsbD 0 } })) ∧
    (a ≠ 0x03 → s.engine.seq ≠ .idle → s.memWrite a v = { s with regs := { s.regs with ovr := true } }) ∧
    (s.engine.seq = .idle →
      (a = 0x00 → s.memWrite a v = s.issue v) ∧
      (a = 0x01 → s.memWrite a v = { s with
        regs := { s.regs with done := s.regs.done && !v.getLsbD 1, ovr := s.regs.ovr && !v.getLsbD 4 } }) ∧
      (a = 0x04 ∨ a = 0x05 ∨ a = 0x07 ∨ (0x0C ≤ a ∧ a ≤ 0x20) →
        (s.memWrite a v).memRead a = v ∧ (∀ b, b ≠ a → (s.memWrite a v).memRead b = s.memRead b) ∧
        ∃ data crc dirIdx fam rom spad, s.memWrite a v = { s with
          regs := { s.regs with
            data := data, crc := crc, dirIdx := dirIdx, fam := fam, rom := rom, spad := spad } }) ∧
      (a = 0x09 →
        (s.memWrite a v).memRead a = (v.extractLsb' 0 4).setWidth 8 ∧
        (∀ b, b ≠ a → (s.memWrite a v).memRead b = s.memRead b) ∧
        s.memWrite a v = { s with regs := { s.regs with famEn := v.extractLsb' 0 4 } }) ∧
      (a = 0x02 ∨ a = 0x06 ∨ a = 0x08 ∨ a = 0x0A ∨ a = 0x0B ∨ 0x21 ≤ a → s.memWrite a v = s))

/-- R82, R340, at the step: a write landing inside a command, to any register but CTRL, changes OVR alone. -/
def Obligations.WriteLandingInACommandOnlySetsOvr : Prop :=
  ∀ (s : State) (opc : Byte) (k : Nat) (a v : Byte) (rest : List Pending),
    s.engine.seq = .busy opc k → s.host = ⟨some 0, .wr a v⟩ :: rest → a ≠ 0x03 →
    step s = .next { s with host := rest, regs := { s.regs with ovr := true } }

/-- R81: a read, whatever its address and whether or not a command runs, changes nothing but the host's own record of
what it read (log entry 9). And 30_encoding.md R120: a WAIT whose poll meets BUSY = 0 is done, and one whose poll meets
BUSY = 1 goes on, before the accesses after it, to the first poll that meets BUSY = 0 (log entry 12). -/
def Obligations.ReadsHaveNoSideEffects : Prop :=
  ∀ (s : State) (arrive : Option Nat) (rest : List Pending),
    (∀ a, s.host = ⟨arrive, .rd a⟩ :: rest →
      (s.engine.seq = .idle ∧ s.engine.txByte = none) ∨ (s.engine.seq ≠ .idle ∧ arrive = some 0) →
      step s = .next { s with host := rest, reads := (a, s.memRead a) :: s.reads }) ∧
    (s.host = ⟨arrive, .wait⟩ :: rest →
      (s.engine.seq = .idle → s.engine.txByte = none → step s = .next { s with host := rest }) ∧
      (s.engine.seq ≠ .idle → arrive = some 0 → step s = .next { s with host := ⟨none, .wait⟩ :: rest }) ∧
      (s.engine.seq ≠ .idle → arrive = none → ∃ t, step s = .next t ∧ t.host = s.host))

/-- 10_state.md R49 and R33-R35, R41: reserved addresses and reserved bits read 0, and writes to them are ignored
while Idle and set OVR while BUSY. -/
def Obligations.ReservedSpaceIsInert : Prop :=
  ∀ (s : State) (a v w : Byte),
    (0x25 ≤ a → s.memRead a = 0x00 ∧ (s.engine.seq = .idle → s.memWrite a v = s) ∧
      (s.engine.seq ≠ .idle → s.memWrite a v = { s with regs := { s.regs with ovr := true } })) ∧
    (s.memRead 0x01 &&& 0xC0 = 0 ∧ s.memRead 0x02 &&& 0xF0 = 0 ∧ s.memRead 0x03 &&& 0xFE = 0 ∧
      s.memRead 0x09 &&& 0xF0 = 0) ∧
    (v &&& 0x03 = w &&& 0x03 → s.memWrite 0x03 v = s.memWrite 0x03 w) ∧
    (v &&& 0x0F = w &&& 0x0F → s.memWrite 0x09 v = s.memWrite 0x09 w) ∧
    (v &&& 0x3F = w &&& 0x3F → s.memWrite 0x01 v = s.memWrite 0x01 w)

/-- R30's whole read map, R32-R47: what each implemented address reads; and 60_exceptions.md R301: the number of each
result code. CMD reads the last accepted opcode while the engine is Idle, and during BUSY what it read before (log entry
26). -/
def Obligations.StatusBitsReadWhereTheTableSays : Prop :=
  ∀ s : State,
    (s.memRead 0x01).getLsbD 0 = s.busy ∧ (s.memRead 0x01).getLsbD 1 = s.regs.done ∧
      (s.memRead 0x01).getLsbD 2 = s.regs.pres ∧ (s.memRead 0x01).getLsbD 3 = s.regs.cursor.sdone ∧
      (s.memRead 0x01).getLsbD 4 = s.regs.ovr ∧ (s.memRead 0x01).getLsbD 5 = s.regs.cap ∧
      (s.busy = true ↔ s.engine.seq ≠ .idle) ∧ (s.memRead 0x03).getLsbD 0 = s.regs.ie ∧
      (∀ c ∈ ([(.ok, 0x00), (.noPresence, 0x01), (.lineStuck, 0x02), (.searchDataError, 0x03), (.crcError, 0x04),
          (.rangeError, 0x05), (.illegalCmd, 0x06), (.indexError, 0x07), (.exhausted, 0x08), (.passLimit, 0x09)] :
          List (ResultCode × Byte)), s.regs.result = c.1 → s.memRead 0x02 = c.2) ∧
      s.memRead 0x0B ++ s.memRead 0x0A = s.regs.temp ∧
      (s.engine.seq = .idle → s.memRead 0x00 = s.regs.cmd) ∧
      (s.engine.seq ≠ .idle → s.memRead 0x00 = s.engine.cmdBefore) ∧
      s.memRead 0x04 = s.regs.data ∧ s.memRead 0x05 = s.regs.crc ∧
      s.memRead 0x06 = BitVec.ofNat 8 s.regs.cursor.sld ∧ s.memRead 0x07 = s.regs.dirIdx ∧
      s.memRead 0x08 = s.regs.dirCnt ∧ s.memRead 0x09 = s.regs.famEn.setWidth 8 ∧
      (∀ i : Fin 4, s.memRead (0x0C + BitVec.ofNat 8 i) = s.regs.fam[i]) ∧
      (∀ k : Fin 8, s.memRead (0x10 + BitVec.ofNat 8 k) = s.regs.rom.extractLsb' (8 * k) 8) ∧
      (∀ k : Fin 9, s.memRead (0x18 + BitVec.ofNat 8 k) = s.regs.spad.extractLsb' (8 * k) 8) ∧
      (∀ i : Fin 4, s.memRead (0x21 + BitVec.ofNat 8 i) = s.regs.fcnt[i])

/-- R90: an access wider than one byte is refused. -/
def Obligations.WideAccessIsRefused : Prop :=
  ∀ (s : State) (arrive : Option Nat) (w : WideWidth) (a : Byte) (rest : List Pending),
    s.host = ⟨arrive, .wide w a⟩ :: rest →
    (s.engine.seq = .idle ∧ s.engine.txByte = none) ∨ (s.engine.seq ≠ .idle ∧ arrive = some 0) →
    step s = .refused .wideAccess

/-- 60_exceptions.md R305: no step faults, and a step refuses nothing but a wider access. -/
def Obligations.NoStepFaultsAndOnlyWideAccessIsRefused : Prop :=
  ∀ s : State, (∀ f, step s ≠ .fault f) ∧
    ∀ r, step s = .refused r → r = .wideAccess ∧ ∃ arrive w a rest, s.host = ⟨arrive, .wide w a⟩ :: rest

/-! ## Reset and the interrupt -/

/-- 70_reset_and_hazards.md R330: what every address reads after power-on, and the internal state. -/
def Obligations.PowerOnStateIsAsListed : Prop :=
  (∀ a : Byte, State.reset.memRead a =
    (if a = 0x0B then 0x80 else if 0x18 ≤ a ∧ a ≤ 0x20 then 0xFF else 0x00)) ∧
    State.reset.regs.cursor.sld = 0 ∧ State.reset.regs.cursor.sdone = false ∧
    State.reset.engine.seq = .idle ∧ State.reset.engine.ldOut = .released ∧ State.reset.irq = false ∧
    State.reset.regs.ie = false ∧ State.reset.line.trace = []

/-- R331: SRST restores every register and the engine at any time, IE too, and releases the line; only a slot it cuts
short is seen by the environment, whose devices' modes are unknown after it (log entry 10), and then HOST_I is what
the guard saved. -/
def Obligations.SoftResetRestoresPowerOn : Prop :=
  ∀ (s : State) (v : Byte), v.getLsbD 1 = true →
    (s.memWrite 0x03 v).regs = Regs.reset ∧ (s.memWrite 0x03 v).engine = Engine.reset ∧
      (s.memWrite 0x03 v).irq = false ∧ (s.memWrite 0x03 v).params = s.params ∧
      (s.memWrite 0x03 v).host = s.host ∧ (s.memWrite 0x03 v).reads = s.reads ∧
      (s.engine.pos = 0 → (s.memWrite 0x03 v).bus = s.bus ∧ (s.memWrite 0x03 v).line = s.line ∧
        (s.memWrite 0x03 v).hostI = s.hostI) ∧
      (0 < s.engine.pos → (s.memWrite 0x03 v).bus = { s.bus with lost := true } ∧
        (s.memWrite 0x03 v).line.trace = .cut :: s.line.trace ∧
        ∀ b, s.params.realisation = .bitBang → s.engine.savedI = some b → (s.memWrite 0x03 v).hostI = b)

/-- 10_state.md R51: IRQ is IE AND DONE, 0 after reset, and falls on each of the three events. -/
def Obligations.InterruptIsEnableAndDone : Prop :=
  State.reset.irq = false ∧
    ∀ s : State, s.irq = (s.regs.ie && s.regs.done) ∧
      (∀ v : Byte, s.engine.seq = .idle → v.getLsbD 1 = true → (s.memWrite 0x01 v).irq = false) ∧
      (∀ v : Byte, (s.accept v).irq = false) ∧
      (∀ v : Byte, v.getLsbD 0 = false → (s.memWrite 0x03 v).irq = false)

/-! ## The Bus Transport -/

/-- 41_transport.md R142, R143, R149: OWRST makes one reset slot, and RESULT and PRES are as its two samples say. -/
def Obligations.OwrstReportsItsResetSlot : Prop :=
  ∀ s : State, s.engine.seq = .idle →
    ∃ t p q, exec .owrst s = .next t ∧ AfterCommand s t ∧
      t.regs = { s.regs with
        cmd := 0x01, done := true, pres := !p && q
        result := if q = false then .lineStuck else if p = true then .noPresence else .ok } ∧
      t.line.trace = resetTrace s.params p q ++ s.line.trace ∧ t.line.slots = s.line.slots + 1

/-- 45_bus_environment.md R280, R283, with the draws fixed in advance (log entry 2): the two samples of a reset slot
are any two draws, taken in order. -/
def Obligations.ResetSamplesAreTheNextTwoDraws : Prop :=
  ∀ (s : State) (p q : Bool) (rest : List (Option Bool)),
    s.engine.seq = .idle → s.bus.script = some p :: some q :: rest →
    ∃ t, exec .owrst s = .next t ∧ t.line.trace = resetTrace s.params p q ++ s.line.trace ∧ t.bus.script = rest

/-- R145, R146, R150: OWBIT sends `DATA[0]` in one bit slot; the sample is 0 if a 0 is sent, and fills DATA. -/
def Obligations.OwbitExchangesOneBit : Prop :=
  ∀ s : State, s.engine.seq = .idle →
    ∃ t i, exec .owbit s = .next t ∧ AfterCommand s t ∧ (s.regs.data.getLsbD 0 = false → i = false) ∧
      t.regs = { s.regs with cmd := 0x02, done := true, result := .ok, data := if i then 0x01 else 0x00 } ∧
      t.line.trace = bitTrace s.params (s.regs.data.getLsbD 0) i ++ s.line.trace ∧
      t.line.slots = s.line.slots + 1

/-- R147, R152: OWBYTE makes eight bit slots, sends DATA LSB first, and receives 1 bits only where it sent them. -/
def Obligations.OwbyteExchangesEightBits : Prop :=
  ∀ s : State, s.engine.seq = .idle →
    ∃ t c, exec .owbyte s = .next t ∧ AfterCommand s t ∧ c &&& ~~~s.regs.data = 0 ∧
      t.regs = { s.regs with cmd := 0x03, done := true, result := .ok, data := c } ∧
      t.line.trace = byteTrace s.params s.regs.data c ++ s.line.trace ∧ t.line.slots = s.line.slots + 8

/-- R86, R147, with the draws fixed in advance (log entry 2): of an 0xFF sent, bit `j` received is the environment's
`j`-th answer. -/
def Obligations.AnswersArriveLsbFirst : Prop :=
  ∀ (s : State) (bs : List Bool) (rest : List (Option Bool)),
    s.engine.seq = .idle → s.regs.data = 0xFF → bs.length = 8 → s.bus.script = bs.map some ++ rest →
    ∃ t, exec .owbyte s = .next t ∧ t.bus.script = rest ∧ ∀ j, j < 8 → some (t.regs.data.getLsbD j) = bs[j]?

/-- R281, R282: a bit slot sending 0 samples 0 and takes no draw, whatever the devices do. -/
def Obligations.ZeroSlotReadsZeroWithoutADraw : Prop :=
  ∀ s : State, (s.bitSlot false).1 = false ∧ (s.bitSlot false).2.bus.script = s.bus.script ∧
    (s.bitSlot false).2.bus.drawn = s.bus.drawn

/-- R148: no instruction changes HOST_I, whichever the realisation. -/
def Obligations.InstructionsKeepHostInterruptEnable : Prop :=
  ∀ (i : Instr) (s : State), ∃ t, exec i s = .next t ∧ t.hostI = s.hostI

/-! ## The ROM search and the directory -/

/-- 42_search.md R187: SRCHRST makes the cursor Fresh, with no slot. -/
def Obligations.SrchrstRestartsTheSearch : Prop :=
  ∀ s : State, s.engine.seq = .idle →
    ∃ t, exec .srchrst s = .next t ∧ NoSlot s t ∧
      t.regs = { s.regs with
        cmd := 0x10, done := true, result := .ok, cursor := { s.regs.cursor with sld := 0, sdone := false } }

/-- R188: SRCHNEXT completes with one of its six codes, EXHAUSTED exactly from Done, and writes RESULT, PRES, the
cursor and ROM alone. -/
def Obligations.SrchnextCompletesWithItsCodes : Prop :=
  ∀ s : State, s.engine.seq = .idle →
    ∃ t, exec .srchnext s = .next t ∧ AfterCommand s t ∧
      t.regs.result ∈ [.ok, .crcError, .noPresence, .lineStuck, .searchDataError, .exhausted] ∧
      (t.regs.result = .exhausted ↔ s.regs.cursor.sdone = true) ∧
      t.regs = { s.regs with
        cmd := 0x11, done := true, result := t.regs.result, pres := t.regs.pres, cursor := t.regs.cursor
        rom := t.regs.rom } ∧
      t.line.slots ≤ s.line.slots + 201

/-- R192: from Done, SRCHNEXT makes no slot and leaves the cursor, ROM and PRES. -/
def Obligations.SrchnextFromDoneSendsNothing : Prop :=
  ∀ s : State, s.engine.seq = .idle → s.regs.cursor.sdone = true →
    ∃ t, exec .srchnext s = .next t ∧ NoSlot s t ∧
      t.regs = { s.regs with cmd := 0x11, done := true, result := .exhausted }

/-- R183, R186, 60_exceptions.md R303: a pass that fails leaves ROM, makes the cursor Fresh, and PRES tells whether its
reset succeeded. NO_PRESENCE and LINE_STUCK come of the samples of the reset slot, which is then the only slot.
SEARCH_DATA_ERROR comes of a successful reset and the first pair (1,1): the line saw the reset slot, SEARCH ROM, the three
bit slots of each position before it, whose direction is the branch rule's, and its two reads. -/
def Obligations.FailedPassRestartsCleanly : Prop :=
  ∀ s t : State, s.engine.seq = .idle → exec .srchnext s = .next t →
    t.regs.result = .noPresence ∨ t.regs.result = .lineStuck ∨ t.regs.result = .searchDataError →
    t.regs.rom = s.regs.rom ∧ t.regs.cursor.sld = 0 ∧ t.regs.cursor.sdone = false ∧
      t.regs.pres = decide (t.regs.result = .searchDataError) ∧
      ∃ p q : Bool,
        (t.regs.result ≠ .searchDataError →
          ¬(p = false ∧ q = true) ∧ t.regs.result = (if q = false then .lineStuck else .noPresence) ∧
          t.line.slots = s.line.slots + 1 ∧ t.line.trace = resetTrace s.params p q ++ s.line.trace) ∧
        (t.regs.result = .searchDataError → p = false ∧ q = true ∧
          ∃ (n : Nat) (b cb x : Nat → Bool) (r : Byte), n < 64 ∧
            (∀ j, 1 ≤ j → j ≤ n → ¬(b j = true ∧ cb j = true)) ∧ b (n + 1) = true ∧ cb (n + 1) = true ∧
            t.line.slots = s.line.slots + 9 + 3 * n + 2 ∧
            t.line.trace =
              bitTrace s.params true (cb (n + 1)) ++ (bitTrace s.params true (b (n + 1)) ++
                (((List.range n).reverse.flatMap fun j =>
                  positionTrace s.params (b (j + 1)) (cb (j + 1))
                    (if b (j + 1) ≠ cb (j + 1) then b (j + 1)
                      else if j + 1 < s.regs.cursor.sld then rombit s.regs.cursor.spath (j + 1)
                      else decide (j + 1 = s.regs.cursor.sld))
                    (x (j + 1))) ++
                  (byteTrace s.params 0xF0 r ++ (resetTrace s.params p q ++ s.line.trace)))))

/-- R183, R184, R185, R189: a completed pass. Each position read a pair other than (1,1); the path takes the agreed
bit where the two differ and the branch rule's where both are 0; SLD is the highest position at which a 0 was chosen
at (0,0), or 0; SDONE says SLD is 0; ROM and SPATH are the path; RESULT is its CRC; and the line saw one reset slot,
SEARCH ROM and three bit slots for each position. -/
def Obligations.CompletedPassFollowsTheBranchRule : Prop :=
  ∀ s t : State, s.engine.seq = .idle → exec .srchnext s = .next t →
    t.regs.result = .ok ∨ t.regs.result = .crcError →
    ∃ (b cb x : Nat → Bool) (p q : Bool) (r : Byte),
      (∀ n, 1 ≤ n → n ≤ 64 → ¬(b n = true ∧ cb n = true) ∧
        rombit t.regs.rom n =
          (if b n ≠ cb n then b n
           else if n < s.regs.cursor.sld then rombit s.regs.cursor.spath n
           else decide (n = s.regs.cursor.sld))) ∧
      t.regs.cursor.spath = t.regs.rom ∧ t.regs.cursor.sdone = decide (t.regs.cursor.sld = 0) ∧
      t.regs.cursor.sld ≤ 64 ∧
      (∀ n, 1 ≤ n → n ≤ 64 → b n = false → cb n = false → rombit t.regs.rom n = false →
        n ≤ t.regs.cursor.sld) ∧
      (t.regs.cursor.sld ≠ 0 → b t.regs.cursor.sld = false ∧ cb t.regs.cursor.sld = false ∧
        rombit t.regs.rom t.regs.cursor.sld = false) ∧
      t.regs.result = (if crc8 (bytesOf t.regs.rom 7) = byteOf t.regs.rom 7 then .ok else .crcError) ∧
      t.regs.pres = true ∧
      t.line.trace =
        ((List.range 64).reverse.flatMap fun j =>
          positionTrace s.params (b (j + 1)) (cb (j + 1)) (rombit t.regs.rom (j + 1)) (x (j + 1))) ++
          (byteTrace s.params 0xF0 r ++ (resetTrace s.params p q ++ s.line.trace))

/-- R190, R191: on a reference bus, N SRCHNEXT commands from Fresh return the N addresses, each exactly once, in
strictly increasing K-order, in N completed passes; the N-th sets SDONE, and one more returns EXHAUSTED. R190 is
marked [derived], and the device model is the spec's general knowledge (log entry 11). -/
def Obligations.SearchEnumeratesEveryDeviceInKOrder : Prop :=
  ∀ (s : State) (ds : List Device), s.engine.seq = .idle → s.onReferenceBus ds → ds ≠ [] →
    s.regs.cursor.sld = 0 → s.regs.cursor.sdone = false →
    ∃ order : List Addr, order.Perm (ds.map Device.addr) ∧ order.Pairwise (fun a b => kKey a < kKey b) ∧
      (∀ j a, order[j]? = some a →
        (afterSearches s (j + 1)).regs.rom = a ∧
        (afterSearches s (j + 1)).regs.result = (if addrValid a then .ok else .crcError) ∧
        (afterSearches s (j + 1)).regs.cursor.sdone = decide (j + 1 = order.length)) ∧
      (afterSearches s (order.length + 1)).regs.result = .exhausted ∧
      (afterSearches s order.length).line.slots = s.line.slots + 201 * order.length

/-- R188's first corner case, over the reference device model (log entry 11): on a bus of one device, one SRCHNEXT
from Fresh finds it and is the last. -/
def Obligations.SearchFindsALoneDevice : Prop :=
  ∀ (s : State) (d : Device), s.engine.seq = .idle → s.onReferenceBus [d] →
    s.regs.cursor.sld = 0 → s.regs.cursor.sdone = false →
    ∃ t, exec .srchnext s = .next t ∧ t.regs.rom = d.addr ∧ t.regs.pres = true ∧
      t.regs.cursor = { sld := 0, sdone := true, spath := d.addr } ∧
      t.regs.result = (if addrValid d.addr then .ok else .crcError) ∧ t.line.slots = s.line.slots + 201

/-- R195, R199: ENUM completes with one of its five codes within `ENUM_PASS_LIMIT` passes, and writes RESULT, PRES,
CAP, the cursor and the directory alone: ROM is as it was. -/
def Obligations.EnumCompletesWithinItsPassLimit : Prop :=
  ∀ s : State, s.engine.seq = .idle →
    ∃ t, exec .enum s = .next t ∧ AfterCommand s t ∧
      t.regs.result ∈ [.ok, .noPresence, .lineStuck, .searchDataError, .passLimit] ∧
      t.regs = { s.regs with
        cmd := 0x12, done := true, result := t.regs.result, pres := t.regs.pres, cap := t.regs.cap
        cursor := t.regs.cursor, dir := t.regs.dir, dirCnt := t.regs.dirCnt, fcnt := t.regs.fcnt } ∧
      t.line.slots ≤ s.line.slots + 201 * s.params.enumPassLimit

/-- R195-R197: an ENUM with OK makes the passes that SRCHNEXT commands from a Fresh cursor would make, and stops at the
first that walks the whole bus or fills the directory; every entry is a valid address whose family code is in an active
allow-list slot, and the entries are all such addresses these passes found, in discovery order. Each FCNT counts the
entries of its slot, DIRCNT is within the cap, CAP says the cap was reached, and otherwise the whole bus was walked. -/
def Obligations.EnumKeepsListedFamiliesAndCountsThem : Prop :=
  ∀ s t : State, s.params.wf = true → s.engine.seq = .idle → exec .enum s = .next t → t.regs.result = .ok →
    t.regs.dirCnt.toNat ≤ s.params.maxDevices ∧ t.regs.dirCnt.toNat ≤ t.regs.dir.length ∧
      (∀ a ∈ t.regs.dir.take t.regs.dirCnt.toNat,
        crc8 (bytesOf a 7) = byteOf a 7 ∧ (s.regs.famSlot (byteOf a 0)).isSome = true) ∧
      (∀ i : Fin 4, t.regs.fcnt[i].toNat =
        (t.regs.dir.take t.regs.dirCnt.toNat).countP fun a => s.regs.famSlot (byteOf a 0) == some i) ∧
      t.regs.cap = decide (t.regs.dirCnt.toNat = s.params.maxDevices) ∧
      (t.regs.cap = false → t.regs.cursor.sdone = true) ∧ t.regs.pres = true ∧
      ∃ n, n < s.params.enumPassLimit ∧ EnumGoesOn s n ∧
        (afterSearches s.fromFresh (n + 1)).regs.result ∈ [.ok, .crcError] ∧
        ((afterSearches s.fromFresh (n + 1)).regs.cursor.sdone = true ∨
          (keptAfter s (n + 1)).length = s.params.maxDevices) ∧
        t.regs.dir.take t.regs.dirCnt.toNat = keptAfter s (n + 1) ∧
        t.regs.cursor = (afterSearches s.fromFresh (n + 1)).regs.cursor ∧
        t.line = (afterSearches s.fromFresh (n + 1)).line ∧ t.bus = (afterSearches s.fromFresh (n + 1)).bus

/-- R198, R199: an ENUM that fails keeps nothing: DIRCNT, FCNT and CAP are 0 and the cursor is Fresh. It fails with the
code of the first pass that fails, or with PASS_LIMIT after `ENUM_PASS_LIMIT` passes none of which ended it. PRES is of
its last reset slot (10_state.md R56): 0 with NO_PRESENCE and LINE_STUCK, 1 with SEARCH_DATA_ERROR and PASS_LIMIT. That
the entries of DIR, all of them at or above DIRCNT = 0, are as they were is the model's choice (log entry 6). -/
def Obligations.FailedEnumKeepsNothing : Prop :=
  ∀ s t : State, s.engine.seq = .idle → exec .enum s = .next t → t.regs.result ≠ .ok →
    t.regs.dirCnt = 0 ∧ t.regs.fcnt = Vector.replicate 4 0 ∧ t.regs.cap = false ∧ t.regs.cursor.sld = 0 ∧
      t.regs.cursor.sdone = false ∧ t.regs.dir = s.regs.dir ∧
      (s.params.wf = true →
        t.regs.pres = decide (t.regs.result = .searchDataError ∨ t.regs.result = .passLimit) ∧
        if t.regs.result = .passLimit then
          EnumGoesOn s s.params.enumPassLimit ∧
            t.regs.pres = (afterSearches s.fromFresh s.params.enumPassLimit).regs.pres ∧
            t.line = (afterSearches s.fromFresh s.params.enumPassLimit).line
        else
          ∃ n, n < s.params.enumPassLimit ∧ EnumGoesOn s n ∧
            (afterSearches s.fromFresh (n + 1)).regs.result = t.regs.result ∧
            t.regs.pres = (afterSearches s.fromFresh (n + 1)).regs.pres ∧
            t.line = (afterSearches s.fromFresh (n + 1)).line)

/-- R196: `slot(f)` is the lowest active slot that holds the family code, and none if there is none. -/
def Obligations.FamilySlotIsTheLowestActiveMatch : Prop :=
  ∀ (r : Regs) (f : Byte),
    (∀ i : Fin 4, r.famSlot f = some i ↔
      (r.famEn.getLsbD i = true ∧ r.fam[i] = f ∧ ∀ j : Fin 4, j < i → ¬(r.famEn.getLsbD j = true ∧ r.fam[j] = f))) ∧
    (r.famSlot f = none ↔ ∀ i : Fin 4, ¬(r.famEn.getLsbD i = true ∧ r.fam[i] = f))

/-- R200: DIRLD loads the indexed entry into ROM, and an index at or above DIRCNT is INDEX_ERROR and leaves ROM; with
no slot, and no other register but CMD, RESULT and DONE. -/
def Obligations.DirldLoadsAnEntryInRange : Prop :=
  ∀ s : State, s.engine.seq = .idle →
    (s.regs.dirCnt.toNat ≤ s.regs.dirIdx.toNat →
      ∃ t, exec .dirld s = .next t ∧ NoSlot s t ∧
        t.regs = { s.regs with cmd := 0x13, done := true, result := .indexError }) ∧
    (s.regs.dirIdx.toNat < s.regs.dirCnt.toNat →
      ∃ t, exec .dirld s = .next t ∧ NoSlot s t ∧
        t.regs = { s.regs with
          cmd := 0x13, done := true, result := .ok, rom := s.regs.dirEntry s.regs.dirIdx.toNat } ∧
        ∀ a, s.regs.dir[s.regs.dirIdx.toNat]? = some a → t.regs.rom = a)

/-! ## The Sensor Protocol -/

/-- 43_sensor.md R221, R222: SELECT reports its reset, and if that succeeds sends MATCH ROM and the eight bytes of
ROM, ROM0 first. -/
def Obligations.SelectSendsMatchRomAndTheAddress : Prop :=
  ∀ s : State, s.engine.seq = .idle →
    ∃ t p q rs, exec .select s = .next t ∧ AfterCommand s t ∧
      t.regs = { s.regs with
        cmd := 0x20, done := true, pres := !p && q
        result := if q = false then .lineStuck else if p = true then .noPresence else .ok } ∧
      rs.length = 9 ∧
      t.line.trace =
        (if p = false ∧ q = true then
          bytesTrace s.params ((0x55 :: (List.range 8).map (byteOf s.regs.rom)).zip rs) else []) ++
          (resetTrace s.params p q ++ s.line.trace)

/-- R225: CONVT sends CONVERT T after the address, and does not wait. -/
def Obligations.ConvtSendsConvertAfterTheAddress : Prop :=
  ∀ s : State, s.engine.seq = .idle →
    ∃ t p q rs, exec .convt s = .next t ∧ AfterCommand s t ∧
      t.regs = { s.regs with
        cmd := 0x21, done := true, pres := !p && q
        result := if q = false then .lineStuck else if p = true then .noPresence else .ok } ∧
      rs.length = 10 ∧
      t.line.trace =
        (if p = false ∧ q = true then
          bytesTrace s.params ((0x55 :: ((List.range 8).map (byteOf s.regs.rom) ++ [0x44])).zip rs) else []) ++
          (resetTrace s.params p q ++ s.line.trace)

/-- R230: RDTEMP sends READ SCRATCHPAD after the address, reads nine bytes into SPAD whatever they are, and reports
and stores what R258's check makes of them; with a failed reset SPAD and TEMP are as they were. -/
def Obligations.RdtempReadsNineBytesAndDecodesThem : Prop :=
  ∀ s : State, s.engine.seq = .idle →
    ∃ t p q rs sp, exec .rdtemp s = .next t ∧ AfterCommand s t ∧ rs.length = 10 ∧
      (¬(p = false ∧ q = true) →
        t.regs = { s.regs with
          cmd := 0x22, done := true, pres := false, result := if q = false then .lineStuck else .noPresence } ∧
        t.line.trace = resetTrace s.params p q ++ s.line.trace) ∧
      (p = false ∧ q = true →
        t.regs = { s.regs with
          cmd := 0x22, done := true, pres := true, spad := sp
          result := if crc8 (bytesOf sp 9) ≠ 0x00 then .crcError
            else if inRange (decodeTenths (byteOf sp 1 ++ byteOf sp 0) (byteOf sp 4)) then .ok else .rangeError
          temp := if crc8 (bytesOf sp 9) = 0x00 ∧
              inRange (decodeTenths (byteOf sp 1 ++ byteOf sp 0) (byteOf sp 4)) = true
            then BitVec.ofInt 16 (decodeTenths (byteOf sp 1 ++ byteOf sp 0) (byteOf sp 4)) else s.regs.temp } ∧
        t.line.trace =
          bytesTrace s.params
            ((0x55 :: ((List.range 8).map (byteOf s.regs.rom) ++ [0xBE])).zip rs ++
              (List.replicate 9 (0xFF : Byte)).zip ((List.range 9).map (byteOf sp))) ++
            (resetTrace s.params p q ++ s.line.trace))

/-- R257, D47: DECODE after an RDTEMP that read a scratchpad gives the same code and leaves the same TEMP. -/
def Obligations.DecodeRepeatsRdtempsVerdict : Prop :=
  ∀ s t u : State, s.engine.seq = .idle → exec .rdtemp s = .next t → t.regs.pres = true → exec .decode t = .next u →
    u.regs.result = t.regs.result ∧ u.regs.temp = t.regs.temp ∧ u.regs.spad = t.regs.spad

/-- 45_bus_environment.md R285, R286 under 43_sensor.md R230: on a reference bus RDTEMP reads the scratchpad of the
one device whose address is in ROM, whatever other devices are present (log entry 11). -/
def Obligations.RdtempReadsTheAddressedDevice : Prop :=
  ∀ (s : State) (ds : List Device) (d : Device), s.engine.seq = .idle → s.onReferenceBus ds → d ∈ ds →
    d.addr = s.regs.rom →
    ∃ t, exec .rdtemp s = .next t ∧ t.regs.spad = d.spad ∧ t.regs.pres = true ∧
      t.regs.result = (checkAndDecode d.spad).1 ∧ t.line.slots = s.line.slots + 153

/-- R223: with no device at the address in ROM but some device on the bus, RDTEMP reads released line and reports
CRC_ERROR, while SELECT reports OK (R223 marks this [derived]; log entry 11). -/
def Obligations.AbsentTargetIsACrcErrorOfRdtempOnly : Prop :=
  ∀ (s : State) (ds : List Device), s.engine.seq = .idle → s.onReferenceBus ds → ds ≠ [] →
    (∀ d ∈ ds, d.addr ≠ s.regs.rom) →
    (∃ t, exec .rdtemp s = .next t ∧ t.regs.spad = BitVec.allOnes 72 ∧ t.regs.result = .crcError ∧
      t.regs.temp = s.regs.temp) ∧
    ∃ t, exec .select s = .next t ∧ t.regs.result = .ok

/-! ## CRC-8 and the decode -/

/-- 44_crc_decode.md R255: CRCCLR writes 0x00 to CRC, with no slot. -/
def Obligations.CrcclrClearsTheAccumulator : Prop :=
  ∀ s : State, s.engine.seq = .idle →
    ∃ t, exec .crcclr s = .next t ∧ NoSlot s t ∧
      t.regs = { s.regs with cmd := 0x30, done := true, result := .ok, crc := 0x00 }

/-- R256: CRCBYTE folds DATA into CRC, with no slot; CRC = DATA gives 0x00. -/
def Obligations.CrcbyteFoldsInData : Prop :=
  ∀ s : State, s.engine.seq = .idle →
    ∃ t, exec .crcbyte s = .next t ∧ NoSlot s t ∧
      t.regs = { s.regs with cmd := 0x31, done := true, result := .ok, crc := crc8Update s.regs.crc s.regs.data } ∧
      (s.regs.crc = s.regs.data → t.regs.crc = 0x00)

/-- R257, R258: DECODE checks the CRC, then the range, and writes TEMP on OK alone, with no slot. -/
def Obligations.DecodeChecksThenStoresTheTemperature : Prop :=
  ∀ s : State, s.engine.seq = .idle →
    ∃ t, exec .decode s = .next t ∧ NoSlot s t ∧
      t.regs = { s.regs with
        cmd := 0x32, done := true
        result := if crc8 (bytesOf s.regs.spad 9) ≠ 0x00 then .crcError
          else if inRange (decodeTenths (byteOf s.regs.spad 1 ++ byteOf s.regs.spad 0) (byteOf s.regs.spad 4))
            then .ok else .rangeError
        temp := if crc8 (bytesOf s.regs.spad 9) = 0x00 ∧
            inRange (decodeTenths (byteOf s.regs.spad 1 ++ byteOf s.regs.spad 0) (byteOf s.regs.spad 4)) = true
          then BitVec.ofInt 16
            (decodeTenths (byteOf s.regs.spad 1 ++ byteOf s.regs.spad 0) (byteOf s.regs.spad 4))
          else s.regs.temp } ∧
      (t.regs.result = .ok → -550 ≤ t.regs.temp.toInt ∧ t.regs.temp.toInt ≤ 1250 ∧
        t.regs.temp.toInt = decodeTenths (byteOf s.regs.spad 1 ++ byteOf s.regs.spad 0) (byteOf s.regs.spad 4))

/-- R252, which the spec marks [derived: from rule R250]: the residue law. -/
def Obligations.CrcResidueIsZeroExactlyOnTheCheckByte : Prop :=
  ∀ (xs : List Byte) (y : Byte), crc8 (xs ++ [y]) = 0x00 ↔ crc8 xs = y

/-- R253, which the spec marks [derived: from rule R250 and rule R252]: every single-bit flip of a valid nine-byte
block is detected. -/
def Obligations.CrcDetectsEverySingleBitFlip : Prop :=
  ∀ b : Scratchpad, crc8 (bytesOf b 9) = 0x00 → ∀ n, n < 72 → crc8 (bytesOf (b ^^^ (1#72 <<< n)) 9) ≠ 0x00

/-- R254, which the spec marks [derived: from rule R250]: the reference values. -/
def Obligations.CrcReferenceValues : Prop :=
  crc8 [0x31, 0x32, 0x33, 0x34, 0x35, 0x36, 0x37, 0x38, 0x39] = 0xA1 ∧
    crc8 [0x02, 0x1C, 0xB8, 0x01, 0x00, 0x00, 0x00] = 0xA2 ∧
    crc8 (List.replicate 9 0xFF) = 0x63 ∧ crc8 (List.replicate 9 0x00) = 0x00

/-- R259-R264: the decode of a raw reading, written out: the masked magnitude's whole degrees times ten and its
fraction, rounded up at the half for a non-negative reading and truncated for a negative one, the sign reapplied. -/
def Obligations.DecodeMasksSplitsAndRoundsTheMagnitude : Prop :=
  ∀ (raw : BitVec 16) (cfg : Byte),
    ∃ m drop : Nat,
      drop = (if cfg.getLsbD 6 then (if cfg.getLsbD 5 then 1 else 2) else (if cfg.getLsbD 5 then 4 else 8)) ∧
      (m : Int) = |raw.toInt| - |raw.toInt| % drop ∧
      decodeTenths raw cfg =
        (if raw.toInt < 0 then -(((m / 16) * 10 + (m % 16) * 640 / 1024 : Nat) : Int)
         else (((m / 16) * 10 + ((m % 16) * 640 + 512) / 1024 : Nat) : Int))

/-- R264: the fraction table, both signs. -/
def Obligations.FractionTableIsAsymmetric : Prop :=
  (List.range 16).map (fun fr => fractionTenths fr false) = [0, 1, 1, 2, 3, 3, 4, 4, 5, 6, 6, 7, 8, 8, 9, 9] ∧
    (List.range 16).map (fun fr => fractionTenths fr true) = [0, 0, 1, 1, 2, 3, 3, 4, 5, 5, 6, 6, 7, 8, 8, 9]

/-- R265's table, "derived by evaluating rule R259 over all 65536 raws": the raw readings accepted at each resolution
(the resolution bits are R262's, log entry 21). -/
def Obligations.AcceptedRawsPerResolution : Prop :=
  ∀ (raw : BitVec 16) (cfg : Byte),
    inRange (decodeTenths raw cfg) = true ↔
      (match resolutionField cfg with
        | 0b00#2 => raw ≤ 0x07D7 ∨ 0xFC89 ≤ raw
        | 0b01#2 => raw ≤ 0x07D3 ∨ 0xFC8D ≤ raw
        | 0b10#2 => raw ≤ 0x07D1 ∨ 0xFC8F ≤ raw
        | 0b11#2 => raw ≤ 0x07D0 ∨ 0xFC8F ≤ raw)

/-- R268, which the spec marks [derived: from rule R259]: every intermediate of the decode fits its width. -/
def Obligations.DecodeIntermediatesFit : Prop :=
  ∀ (raw : BitVec 16) (cfg : Byte),
    measure raw cfg ≤ 32768 ∧ (measure raw cfg >>> 4) * 10 ≤ 20480 ∧
      (measure raw cfg &&& 0x0F) * 640 + 512 ≤ 10112 ∧
      -20480 ≤ decodeTenths raw cfg ∧ decodeTenths raw cfg ≤ 20479

/-! ## Wire bytes -/

/-- 30_encoding.md R117: each of the four wire bytes is one byte exchange, LSB first, that changes no register. That
such a byte runs by itself is the model's choice (log entries 8 and 21). -/
def Obligations.WireBytesAreExchangedOnTheLine : Prop :=
  ∀ (i : Instr) (s : State), i.format = .wire8 →
    ∃ t r, exec i s = .next t ∧ t.regs = s.regs ∧ t.params = s.params ∧ t.hostI = s.hostI ∧ t.host = s.host ∧
      t.reads = s.reads ∧ t.engine.seq = s.engine.seq ∧ t.engine.ldOut = .released ∧
      t.line.trace = byteTrace s.params (encode i) r ++ s.line.trace ∧ t.line.slots = s.line.slots + 8

/-! ## The whole machine -/

/-- 30_encoding.md R115 and 10_state.md R56: every host command completes from an Idle engine, and writes only the
registers of its row: CMD, RESULT and DONE always, each other register for the commands named alone, and IE, OVR,
DIRIDX, FAMEN and FAM0..3 never. -/
def Obligations.CommandsWriteOnlyTheirRegisters : Prop :=
  ∀ (i : Instr) (s : State), i.format = .cmd8 → s.engine.seq = .idle →
    ∃ t, exec i s = .next t ∧ AfterCommand s t ∧ t.regs.cmd = encode i ∧ t.regs.done = true ∧
      t.regs.ie = s.regs.ie ∧ t.regs.ovr = s.regs.ovr ∧ t.regs.dirIdx = s.regs.dirIdx ∧
      t.regs.famEn = s.regs.famEn ∧ t.regs.fam = s.regs.fam ∧
      (i ∉ [.owrst, .srchnext, .enum, .select, .convt, .rdtemp] → t.regs.pres = s.regs.pres) ∧
      (i ∉ [.owbit, .owbyte] → t.regs.data = s.regs.data) ∧
      (i ∉ [.crcclr, .crcbyte] → t.regs.crc = s.regs.crc) ∧
      (i ∉ [.srchrst, .srchnext, .enum] → t.regs.cursor = s.regs.cursor) ∧
      (i ∉ [.srchnext, .dirld] → t.regs.rom = s.regs.rom) ∧
      (i ≠ .rdtemp → t.regs.spad = s.regs.spad) ∧
      (i ∉ [.rdtemp, .decode] → t.regs.temp = s.regs.temp) ∧
      (i ≠ .enum → t.regs.dir = s.regs.dir ∧ t.regs.dirCnt = s.regs.dirCnt ∧ t.regs.fcnt = s.regs.fcnt ∧
        t.regs.cap = s.regs.cap)

/-- 20_memory.md R82 again, of the instructions: while a command runs, the write of another opcode sets OVR alone. -/
def Obligations.CommandWhileBusyOnlySetsOvr : Prop :=
  ∀ (i : Instr) (s : State), i.format = .cmd8 → s.engine.seq ≠ .idle →
    exec i s = .next { s with regs := { s.regs with ovr := true } }

/-- 10_state.md R52, R341: at a command's acceptance no address reads otherwise than before it, but for BUSY and DONE in
STATUS, CMD neither (log entry 26); while it stays in progress, a step leaves every register as it was, and every
address reading as it read, but for OVR (an ignored write) and IE (a CTRL write); and the engine step that ends it sets
DONE. -/
def Obligations.ResultsStayInvisibleUntilTheCommit : Prop :=
  (∀ (s : State) (v a : Byte) (i : Instr), s.engine.seq = .idle → decode .cmd8 v = .ok i →
    (s.issue v).memRead a = if a = 0x01 then (s.memRead a &&& 0xFC) ||| 0x01 else s.memRead a) ∧
  ∀ s t : State, s.busy = true → step s = .next t →
    (t.busy = true →
      (∃ o e, t.regs = { s.regs with ovr := o, ie := e }) ∧
        (∀ a, a ≠ 0x01 → a ≠ 0x03 → t.memRead a = s.memRead a) ∧
        t.memRead 0x01 &&& 0xEF = s.memRead 0x01 &&& 0xEF) ∧
      (t.busy = false → t.regs.done = true ∨ t.regs = Regs.reset)

/-- 20_memory.md R91, 10_state.md R52 (log entry 1): while a command is in progress and no access lands, a step is one
engine event, the count of the next access one less; and the engine run so from the acceptance of a command ends in
exactly the state the command's meaning gives. With reads, ignored writes, CTRL writes without SRST and polls landing in
it, it still ends with the line, the bus environment, the engine and the registers that meaning gives, but that the
ignored writes have set OVR and the CTRL writes IE (R304, R340). -/
def Obligations.EventByEventRunEndsAsExec : Prop :=
  (∀ s : State, s.busy = true →
    (s.accessDue = false → step s = .next s.engineStep) ∧
    ∀ n op rest, s.host = ⟨some (n + 1), op⟩ :: rest →
      step s = .next ({ s with host := ⟨some n, op⟩ :: rest } : State).engineStep) ∧
  ∀ (i : Instr) (s : State), i.format = .cmd8 → s.engine.seq = .idle →
    (s.accessDue = false → ∃ n t, exec i s = .next t ∧ Sys2Proof.core.run n (s.issue (encode i)) = .next t) ∧
    ((∀ p ∈ s.host, leavesCommand p.op = true) →
      ∃ (n m : Nat) (t u : State), exec i s = .next t ∧ Sys2Proof.core.run n (s.issue (encode i)) = .next u ∧
        u.params = t.params ∧ u.engine = t.engine ∧ u.line = t.line ∧ u.bus = t.bus ∧ u.hostI = t.hostI ∧
        u.regs = { t.regs with
          ovr := s.regs.ovr || ((s.host.take m).map Pending.op).any setsOvr
          ie := ((s.host.take m).map Pending.op).foldl ieAfter s.regs.ie } ∧
        u.host.map Pending.op = (s.host.drop m).map Pending.op)

/-- 70_reset_and_hazards.md R351, 42_search.md R199: from every sound state a command in progress ends, under every
draw, whatever accesses land in it but a soft reset and one the interface does not have; the host's program is then what
has not landed. And 60_exceptions.md R318: every run ends, whatever its program and whenever its accesses land. -/
def Obligations.EveryCommandInProgressEnds : Prop :=
  (∀ s : State, s.Inv → s.busy = true → (∀ p ∈ s.host, leavesCommand p.op = true) →
    ∃ (n m : Nat) (t : State), Sys2Proof.core.run n s = .next t ∧ t.engine.seq = .idle ∧ t.regs.done = true ∧
      t.host.map Pending.op = (s.host.drop m).map Pending.op ∧ (s.accessDue = false → t.host = s.host)) ∧
  ∀ (s : State) (prog : List Line) (arrivals : List Nat), s.Inv →
    ∃ (n : Nat) (t : State), Sys2Proof.core.run n (s.launch prog arrivals) = .next t ∧ t.ended = true

/-- Every step keeps the invariant: SLD is 0..64 and 0 when SDONE, DIRCNT and FCNT within the directory, the valid
entries valid addresses, TEMP a decoded temperature or its reset value, DONE 0 and CMD the opcode in progress while BUSY, the line
released between slots and HOST_I suppressed inside guarded ones. -/
def Obligations.EveryStepKeepsTheInvariant : Prop :=
  ∀ s t : State, s.Inv → step s = .next t → t.Inv

/-- The state after power-on meets the invariant. -/
def Obligations.PowerOnStateMeetsTheInvariant : Prop :=
  State.reset.Inv
end

