-- ==== Sys2Proof/Laws/Engine.lean ====
section
/-! SUPPORT. The engine one event at a time: a slot's four events are the slot, and what an engine step is. -/

namespace Sys2Proof.Machine

/-- The state after a whole slot of the command in progress: its samples join the command's, and the sequencer moves
on. -/
def State.afterSlot (t : State) (samples : List Bool) : State :=
  { t with
    engine :=
      { t.engine with
        seq := t.engine.seq.nextSlot
        samples := t.engine.samples ++ samples
        slotSamples := []
        pos := 0 } }

/-- Every slot has four events (41_transport.md R142, R145; log entry 24). -/
@[simp] theorem SlotKind.ops_length (k : SlotKind) (p : Params) : (k.ops p).length = 4 := by
  cases k with
  | reset => rfl
  | bit o => cases o <;> rfl

/-- From between slots, four events of a reset slot are the reset slot. -/
theorem slotEvents_reset (s : State) (h0 : s.engine.pos = 0) (hs : s.engine.slotSamples = []) :
    (((s.slotEvent .reset).slotEvent .reset).slotEvent .reset).slotEvent .reset =
      s.resetSlot.2.afterSlot [s.resetSlot.1.1, s.resetSlot.1.2] := by
  obtain ⟨params, regs, ⟨seq, samples, slotSamples, pos, ldOut, savedI, cmdBefore, txByte⟩, hostI, bus, line, host, reads⟩ := s
  simp only at h0 hs
  subst h0 hs
  cases hr : params.realisation <;>
    simp [State.slotEvent, SlotKind.ops, State.lineOp, State.beginSlot, hr, State.driveLow, State.release, State.sample,
      State.level, State.closeSlot, State.endSlot, State.restoreHostI, State.resetSlot, State.afterSlot]

/-- From between slots, four events of a bit slot are the bit slot. -/
theorem slotEvents_bit (s : State) (o : Bool) (h0 : s.engine.pos = 0) (hs : s.engine.slotSamples = []) :
    (((s.slotEvent (.bit o)).slotEvent (.bit o)).slotEvent (.bit o)).slotEvent (.bit o) =
      (s.bitSlot o).2.afterSlot [(s.bitSlot o).1] := by
  obtain ⟨params, regs, ⟨seq, samples, slotSamples, pos, ldOut, savedI, cmdBefore, txByte⟩, hostI, bus, line, host, reads⟩ := s
  simp only at h0 hs
  subst h0 hs
  cases hr : params.realisation <;> cases o <;>
    simp [State.slotEvent, SlotKind.ops, State.lineOp, State.beginSlot, hr, State.driveLow, State.release, State.sample,
      State.level, State.closeSlot, State.endSlot, State.restoreHostI, State.bitSlot, State.afterSlot]

/-! ## An engine step -/

theorem engineStep_idle {s : State} (h : s.engine.seq = .idle) : s.engineStep = s := by
  unfold State.engineStep; rw [h]

theorem engineStep_done {s : State} {opc : Byte} {k : Nat} {st : Staged} (h : s.engine.seq = .busy opc k)
    (hr : s.remaining opc = .done st) : s.engineStep = s.finish st := by
  unfold State.engineStep; rw [h]; dsimp only; rw [hr]

theorem engineStep_reset {s : State} {opc : Byte} {k : Nat} {f : Bool → Bool → Proc Staged}
    (h : s.engine.seq = .busy opc k) (hr : s.remaining opc = .reset f) : s.engineStep = s.slotEvent .reset := by
  unfold State.engineStep; rw [h]; dsimp only; rw [hr]

theorem engineStep_bit {s : State} {opc : Byte} {k : Nat} {o : Bool} {f : Bool → Proc Staged}
    (h : s.engine.seq = .busy opc k) (hr : s.remaining opc = .bit o f) : s.engineStep = s.slotEvent (.bit o) := by
  unfold State.engineStep; rw [h]; dsimp only; rw [hr]

/-- What is left of a command depends on the opcode, the parameters, the registers and the samples alone. -/
theorem remaining_congr {s t : State} (hp : t.params = s.params) (hr : t.regs = s.regs)
    (hs : t.engine.samples = s.engine.samples) (opc : Byte) : t.remaining opc = s.remaining opc := by
  unfold State.remaining; rw [hp, hr, hs]

end Sys2Proof.Machine
end

