-- ==== Sys2Proof/Laws/Procedures.lean ====
section
/-! SUPPORT. What every run of a procedure can give, whatever the bus answers: `Proc.All`, the results of a search pass
and of ENUM, and the registers any command commits. -/

namespace Sys2Proof.Machine

variable {α β : Type}

/-! ## All results of a procedure -/

/-- Every result the procedure can end with, under any answers, has the property. -/
def Proc.All (P : α → Prop) (p : Proc α) : Prop :=
  match p with
  | .done a => P a
  | .reset k => ∀ x y, (k x y).All P
  | .bit _ k => ∀ i, (k i).All P

theorem Proc.All.run {P : α → Prop} {p : Proc α} (h : p.All P) (s : State) : P (p.run s).1 := by
  induction p generalizing s with
  | done a => exact h
  | reset k ih => exact ih _ _ (h _ _) _
  | bit o k ih => exact ih _ (h _) _

theorem Proc.All.resume {P : α → Prop} {p : Proc α} (h : p.All P) (l : List Bool) : (p.resume l).All P := by
  induction p generalizing l with
  | done a => cases l <;> exact h
  | reset k ih =>
    match l with
    | [] => exact h
    | [_] => exact h
    | x :: y :: rest => exact ih x y (h x y) rest
  | bit o k ih =>
    match l with
    | [] => exact h
    | x :: rest => exact ih x (h x) rest

theorem Proc.All.mono {P Q : α → Prop} {p : Proc α} (h : p.All P) (g : ∀ a, P a → Q a) : p.All Q := by
  induction p with
  | done a => exact g a h
  | reset k ih => exact fun x y => ih x y (h x y)
  | bit o k ih => exact fun i => ih i (h i)

theorem Proc.All.bind {Q : α → Prop} {P : β → Prop} {p : Proc α} {f : α → Proc β} (h : p.All Q)
    (g : ∀ a, Q a → (f a).All P) : (p.bind f).All P := by
  induction p with
  | done a => exact g a h
  | reset k ih => exact fun x y => ih x y (h x y)
  | bit o k ih => exact fun i => ih i (h i)

theorem Proc.all_true (p : Proc α) : p.All fun _ => True := by
  induction p with
  | done a => trivial
  | reset k ih => exact fun x y => ih x y
  | bit o k ih => exact fun i => ih i

/-- What follows a procedure of which nothing is known. -/
theorem Proc.all_bind {P : β → Prop} {p : Proc α} {f : α → Proc β} (g : ∀ a, (f a).All P) : (p.bind f).All P :=
  p.all_true.bind fun a _ => g a

/-! ## The search (42_search.md) -/

/-- A cursor of R44: SLD is 0..64, and 0 once Done. -/
structure Cursor.Sound (c : Cursor) : Prop where
  sld_le : c.sld ≤ 64
  sdone_sld : c.sdone = true → c.sld = 0

theorem Cursor.fresh_sound (c : Cursor) : c.fresh.Sound := ⟨Nat.zero_le _, fun h => absurd h (by simp [Cursor.fresh])⟩

/-- `last_zero` stays a position of the pass (R184). -/
theorem searchBits_all (c : Cursor) (m n : Nat) (path : Addr) (lz : Nat) (hn : n + m = 65) (hl : lz ≤ 64) :
    (searchBits c m n path lz).All fun r => ∀ q, r = some q → q.2 ≤ 64 := by
  induction m generalizing n path lz with
  | zero => intro q h; cases h; exact hl
  | succ m ih =>
    intro b cb
    change Proc.All _ (if (b && cb) = true then _ else _)
    by_cases hb : (b && cb) = true
    · rw [if_pos hb]; intro q h; cases h
    · rw [if_neg hb]
      intro _
      refine ih _ _ _ (by omega) ?_
      unfold lastZero
      split <;> omega

/-- What a pass can give (R183-R186, R189): a sound cursor, an address exactly with the codes OK and CRC_ERROR, and its
CRC as the code says. -/
structure PassResult.Sound (r : PassResult) : Prop where
  cursor : r.cursor.Sound
  ok : r.code = .ok → ∃ a, r.addr = some a ∧ addrValid a = true ∧ r.pres = some true
  crc : r.code = .crcError → ∃ a, r.addr = some a ∧ addrValid a = false ∧ r.pres = some true
  fail : passFails r.code = true → r.addr = none ∧ r.cursor.sld = 0 ∧ r.cursor.sdone = false

theorem resetCode_pres {p s : Bool} (h : resetCode p s = .ok) : resetPres p s = true := by
  cases p <;> cases s <;> first | rfl | exact absurd h (by decide)

theorem searchPass_all (c : Cursor) (hc : c.Sound) :
    (searchPass c).All fun r => r.Sound ∧
      r.code ∈ [.ok, .crcError, .noPresence, .lineStuck, .searchDataError, .exhausted] ∧
      (r.code = .exhausted ↔ c.sdone = true) := by
  unfold searchPass
  cases hd : c.sdone with
  | true => exact ⟨⟨hc, (nomatch ·), (nomatch ·), (nomatch ·)⟩, by simp, by simp⟩
  | false =>
    intro p s
    by_cases ht : resetCode p s = .ok
    · simp only [Proc.done_bind, ht, Bool.false_eq_true, if_false, ne_eq, not_true_eq_false]
      refine Proc.all_bind fun _ => ?_
      refine (searchBits_all c 64 1 0 0 rfl (Nat.zero_le _)).bind fun r hr => ?_
      cases r with
      | none => exact ⟨⟨c.fresh_sound, (nomatch ·), (nomatch ·), fun _ => ⟨rfl, rfl, rfl⟩⟩,
          by simp [passEnd], by simp [passEnd]⟩
      | some q =>
        have hp := resetCode_pres ht
        have hs : Cursor.Sound { sld := q.2, sdone := q.2 == 0, spath := q.1 } := ⟨hr q rfl, by simp⟩
        cases hv : addrValid q.1 with
        | true =>
          refine ⟨⟨hs, fun _ => ⟨q.1, rfl, hv, by rw [← hp]; rfl⟩, ?_, ?_⟩, ?_, ?_⟩ <;>
            simp [passEnd, hv, passFails]
        | false =>
          refine ⟨⟨hs, ?_, fun _ => ⟨q.1, rfl, hv, by rw [← hp]; rfl⟩, ?_⟩, ?_, ?_⟩ <;>
            simp [passEnd, hv, passFails]
    · simp only [Proc.done_bind, ht, Bool.false_eq_true, ne_eq, not_false_eq_true, if_true]
      have hcode : ∀ k ∈ [ResultCode.noPresence, .lineStuck], resetCode p s = k →
          Proc.All (fun r : PassResult => r.Sound ∧
            r.code ∈ [.ok, .crcError, .noPresence, .lineStuck, .searchDataError, .exhausted] ∧
            (r.code = .exhausted ↔ False))
            (.done { code := resetCode p s, addr := none, cursor := c.fresh, pres := some (resetPres p s) }) := by
        intro k hk e
        rw [e]
        refine ⟨⟨c.fresh_sound, ?_, ?_, fun _ => ⟨rfl, rfl, rfl⟩⟩, ?_, ?_⟩ <;> revert hk <;> cases k <;> simp
      revert ht
      cases p <;> cases s <;> intro ht <;> first
        | exact absurd rfl ht
        | exact hcode _ (by decide) rfl

/-! ## ENUM (R195-R199) -/

/-- The entries ENUM has found and counted so far: valid addresses, each in the slot the filter gave it, no more than
the directory holds. -/
structure FoundSound (p : Params) (r : Regs) (found : List Addr) (counts : Vector Byte 4) : Prop where
  valid : ∀ a ∈ found, addrValid a = true
  kept : ∀ a ∈ found, (r.famSlot (byteOf a 0)).isSome = true
  count : ∀ i : Fin 4, counts[i].toNat = found.countP fun a => r.famSlot (byteOf a 0) == some i
  le : found.length ≤ p.maxDevices

theorem foundSound_nil (p : Params) (r : Regs) : FoundSound p r [] (Vector.replicate 4 0) :=
  ⟨by simp, by simp, by simp, Nat.zero_le _⟩

/-- What the filter keeps is the address of a pass with OK, and its slot (R196). -/
theorem keptSlot_some {r : Regs} {res : PassResult} {i : Fin 4} {a : Addr} (h : keptSlot r res = some (i, a)) :
    res.code = .ok ∧ res.addr = some a ∧ r.famSlot (byteOf a 0) = some i := by
  unfold keptSlot at h
  split at h
  · rename_i a' h1 h2
    simp only [Option.map_eq_some_iff] at h
    obtain ⟨j, hj, he⟩ := h
    cases he
    exact ⟨h1, h2, hj⟩
  · exact absurd h (by simp)

theorem FoundSound.append {p : Params} {r : Regs} {found : List Addr} {counts : Vector Byte 4} {i : Fin 4} {a : Addr}
    (h : FoundSound p r found counts) (hp : p.maxDevices ≤ 255) (hlt : found.length < p.maxDevices)
    (hv : addrValid a = true) (hs : r.famSlot (byteOf a 0) = some i) :
    FoundSound p r (found ++ [a]) (countFamily counts i) where
  valid := by
    intro b hb
    rcases List.mem_append.mp hb with hb | hb
    · exact h.valid b hb
    · rw [List.mem_singleton.mp hb]; exact hv
  kept := by
    intro b hb
    rcases List.mem_append.mp hb with hb | hb
    · exact h.kept b hb
    · rw [List.mem_singleton.mp hb, hs]; rfl
  count := by
    intro j
    have hj := h.count j
    have hle : (found.countP fun a => r.famSlot (byteOf a 0) == some j) ≤ found.length := List.countP_le_length
    rw [List.countP_append, ← hj]
    by_cases hij : j = i
    · subst hij
      simp only [countFamily, Fin.getElem_fin, Vector.getElem_set_self, BitVec.toNat_add, List.countP_singleton, hs,
        beq_self_eq_true, if_true]
      simp only [Fin.getElem_fin] at hj
      have h1 : (1 : Byte).toNat = 1 := rfl
      omega
    · have hne : (i : Nat) ≠ j := fun e => hij (Fin.ext e.symm)
      have hij' : ¬i = j := fun e => hij e.symm
      simp [countFamily, Vector.getElem_set_ne (h := hne), hs, hij']
  le := by rw [List.length_append]; exact hlt

/-- What ENUM can stage: on OK the entries it found, counted, with CAP and the end of the walk; otherwise nothing. -/
structure EnumSound (p : Params) (r : Regs) (st : Staged) : Prop where
  cursor : ∃ c, st.cursor = some c ∧ c.Sound ∧ (st.code ≠ .ok → c.sld = 0 ∧ c.sdone = false) ∧
    (st.cap = some false → st.code = .ok → c.sdone = true)
  code : st.code ∈ [.ok, .noPresence, .lineStuck, .searchDataError, .passLimit]
  done : st.code = .ok → ∃ found counts, FoundSound p r found counts ∧ st.found = some found ∧
    st.dirCnt = some (BitVec.ofNat 8 found.length) ∧ st.fcnt = some counts ∧
    st.cap = some (decide (found.length = p.maxDevices)) ∧ st.pres = some true
  failed : st.code ≠ .ok → st.found = none ∧ st.dirCnt = some 0 ∧ st.fcnt = some (Vector.replicate 4 0) ∧
    st.cap = some false
  others : st.data = none ∧ st.crc = none ∧ st.rom = none ∧ st.spad = none ∧ st.temp = none

theorem enumFail_sound {p : Params} {r : Regs} {code : ResultCode} (c : Cursor) (pres : Option Bool)
    (h : code ∈ [.noPresence, .lineStuck, .searchDataError, .passLimit]) : EnumSound p r (enumFail code c pres) where
  cursor := ⟨_, rfl, c.fresh_sound, fun _ => ⟨rfl, rfl⟩, fun _ hk => by
    have e : code = .ok := hk
    subst e; exact absurd h (by decide)⟩
  code := List.mem_cons_of_mem _ h
  done := fun hk => by
    have e : code = .ok := hk
    subst e; exact absurd h (by decide)
  failed := fun _ => ⟨rfl, rfl, rfl, rfl⟩
  others := ⟨rfl, rfl, rfl, rfl, rfl⟩

theorem enumDone_sound {p : Params} {r : Regs} {c : Cursor} {found : List Addr} {counts : Vector Byte 4}
    (hc : c.Sound) (hf : FoundSound p r found counts) (he : found.length ≠ p.maxDevices → c.sdone = true) :
    EnumSound p r (enumDone p c (some true) found counts) where
  cursor := ⟨c, rfl, hc, fun h => absurd rfl h, fun h _ => he (by
    have : capFlag p found.length = false := Option.some.inj h
    simpa [capFlag] using this)⟩
  code := List.mem_cons_self
  done := fun _ => ⟨found, counts, hf, rfl, rfl, rfl, by simp [enumDone, capFlag]; rfl, rfl⟩
  failed := fun h => absurd rfl h
  others := ⟨rfl, rfl, rfl, rfl, rfl⟩

theorem enumLoop_all (p : Params) (r : Regs) (hp : p.maxDevices ≤ 255) (m : Nat) (c : Cursor) (pres : Option Bool)
    (found : List Addr) (counts : Vector Byte 4) (hc : c.Sound) (hd : c.sdone = false)
    (hf : FoundSound p r found counts) (hlt : found.length < p.maxDevices) :
    (enumLoop p (keptSlot r) m c pres found counts).All (EnumSound p r) := by
  induction m generalizing c pres found counts with
  | zero => exact enumFail_sound c pres (by decide)
  | succ m ih =>
    refine (searchPass_all c hc).bind fun res ⟨hs, hmem, hex⟩ => ?_
    have hnx : res.code ≠ .exhausted := fun h => by rw [hex, hd] at h; exact absurd h (by decide)
    cases hpf : passFails res.code with
    | true =>
      simp only [if_true]
      refine enumFail_sound _ _ ?_
      revert hpf hmem hnx
      cases res.code <;> decide
    | false =>
      simp only [Bool.false_eq_true, if_false]
      have hpres : res.pres = some true := by
        have : res.code = .ok ∨ res.code = .crcError := by
          revert hpf hmem hnx
          cases res.code <;> decide
        rcases this with h | h
        · obtain ⟨_, _, _, h⟩ := hs.ok h; exact h
        · obtain ⟨_, _, _, h⟩ := hs.crc h; exact h
      cases hk : keptSlot r res with
      | none =>
        simp only
        cases hsd : res.cursor.sdone with
        | true =>
          simp only [if_true]
          rw [hpres]
          exact enumDone_sound hs.cursor hf (fun _ => hsd)
        | false =>
          simp only [Bool.false_eq_true, if_false]
          exact ih _ _ _ _ hs.cursor hsd hf hlt
      | some ia =>
        obtain ⟨i, a⟩ := ia
        obtain ⟨hok, ha, hslot⟩ := keptSlot_some hk
        obtain ⟨a', ha', hv, _⟩ := hs.ok hok
        rw [ha] at ha'
        cases ha'
        have hf' := hf.append hp hlt hv hslot
        simp only
        by_cases hend : found.length + 1 = p.maxDevices ∨ res.cursor.sdone = true
        · rw [if_pos hend, hpres]
          refine enumDone_sound hs.cursor hf' fun hne => ?_
          rcases hend with h | h
          · exact absurd (by rw [List.length_append]; exact h) hne
          · exact h
        · rw [if_neg hend]
          have h1 : ¬found.length + 1 = p.maxDevices := fun h => hend (.inl h)
          have h2 : ¬res.cursor.sdone = true := fun h => hend (.inr h)
          refine ih _ _ _ _ hs.cursor (by simpa using h2) hf' ?_
          rw [List.length_append, List.length_singleton]; omega

/-- Everything ENUM can stage. -/
theorem procEnum_all (p : Params) (r : Regs) (h1 : 1 ≤ p.maxDevices) (h2 : p.maxDevices ≤ 255) :
    (procEnum p r).All (EnumSound p r) :=
  enumLoop_all p r h2 _ _ _ _ _ r.cursor.fresh_sound rfl (foundSound_nil p r) h1

/-! ## What a command commits -/

/-- TEMP is written with a temperature in the accepted range only (44_crc_decode.md R258, R265). -/
theorem checkAndDecode_temp {sp : Scratchpad} {v : BitVec 16} (h : (checkAndDecode sp).2 = some v) :
    -550 ≤ v.toInt ∧ v.toInt ≤ 1250 := by
  unfold checkAndDecode at h
  split at h
  · exact absurd h (by simp)
  · dsimp only at h
    split at h
    · rename_i hr
      cases h
      simp only [inRange, decide_eq_true_eq] at hr
      rw [BitVec.toInt_ofInt, Int.bmod_def]
      omega
    · exact absurd h (by simp)

/-- A commit that stages neither cursor, directory, CAP nor TEMP keeps the register invariant. -/
theorem Regs.Inv.commit_plain {p : Params} {r : Regs} {st : Staged} (h : r.Inv p) (h1 : st.cursor = none)
    (h2 : st.found = none) (h3 : st.dirCnt = none) (h4 : st.fcnt = none) (h5 : st.cap = none)
    (h6 : ∀ v, st.temp = some v → -550 ≤ v.toInt ∧ v.toInt ≤ 1250) : (r.commit st).Inv p := by
  obtain ⟨a1, a2, a3, a4, a5, a6, a7, a8, a9⟩ := h
  have ht : (r.commit st).temp = r.temp ∨ -550 ≤ (r.commit st).temp.toInt ∧ (r.commit st).temp.toInt ≤ 1250 := by
    unfold Regs.commit
    cases hv : st.temp with
    | none => exact .inl rfl
    | some v => exact .inr (h6 v hv)
  refine ⟨?_, ?_, ?_, ?_, ?_, ?_, ?_, ?_, ?_⟩
  case refine_9 =>
    rcases ht with e | e
    · rw [e]; exact a9
    · exact .inr e
  all_goals simp only [Regs.commit, h1, h2, h3, h4, h5, Option.getD_none, Option.map_none]
  all_goals assumption

/-- Nor does one that stages a sound cursor besides. -/
theorem Regs.Inv.commit_cursor {p : Params} {r : Regs} {st : Staged} {c : Cursor} (h : r.Inv p)
    (h1 : st.cursor = some c) (hc : c.Sound) (h2 : st.found = none) (h3 : st.dirCnt = none) (h4 : st.fcnt = none)
    (h5 : st.cap = none) (h6 : st.temp = none) : (r.commit st).Inv p := by
  obtain ⟨a1, a2, a3, a4, a5, a6, a7, a8, a9⟩ := h
  obtain ⟨c1, c2⟩ := hc
  constructor <;> simp only [Regs.commit, h1, h2, h3, h4, h5, h6, Option.getD_none, Option.getD_some, Option.map_none] <;>
    assumption

/-- The counts of a directory add up to its entries, each of which is in one slot. -/
theorem FoundSound.sum {p : Params} {r : Regs} {found : List Addr} {counts : Vector Byte 4}
    (h : FoundSound p r found counts) : fcntSum counts = found.length := by
  have hk := h.kept
  have h0 := h.count 0
  have h1 := h.count 1
  have h2 := h.count 2
  have h3 := h.count 3
  simp only [Fin.getElem_fin] at h0 h1 h2 h3
  unfold fcntSum
  have key : ∀ l : List Addr, (∀ a ∈ l, (r.famSlot (byteOf a 0)).isSome = true) →
      (l.countP fun a => r.famSlot (byteOf a 0) == some 0) + (l.countP fun a => r.famSlot (byteOf a 0) == some 1) +
        (l.countP fun a => r.famSlot (byteOf a 0) == some 2) + (l.countP fun a => r.famSlot (byteOf a 0) == some 3) =
      l.length := by
    intro l hl
    induction l with
    | nil => rfl
    | cons a l ih =>
      have := ih fun b hb => hl b (List.mem_cons_of_mem _ hb)
      have ha := hl a List.mem_cons_self
      obtain ⟨i, hi⟩ := Option.isSome_iff_exists.mp ha
      simp only [List.countP_cons, List.length_cons, hi]
      have : i = 0 ∨ i = 1 ∨ i = 2 ∨ i = 3 := by omega
      rcases this with rfl | rfl | rfl | rfl <;> simp <;> omega
  have := key found hk
  have e0 : counts[0].toNat = _ := h0
  have e1 : counts[1].toNat = _ := h1
  have e2 : counts[2].toNat = _ := h2
  have e3 : counts[3].toNat = _ := h3
  omega

/-- What ENUM stages keeps the register invariant. -/
theorem EnumSound.commit_inv {p : Params} {r : Regs} {st : Staged} (h : EnumSound p r st) (hr : r.Inv p)
    (hp : p.maxDevices ≤ 255) : (r.commit st).Inv p := by
  obtain ⟨⟨c, hc, hs, -, -⟩, -, hd, hf, ho1, ho2, ho3, ho4, ho5⟩ := h
  by_cases hk : st.code = .ok
  · obtain ⟨found, counts, hF, e1, e2, e3, e4, -⟩ := hd hk
    have hl := hF.le
    have hn : (BitVec.ofNat 8 found.length).toNat = found.length := by
      rw [BitVec.toNat_ofNat]; exact Nat.mod_eq_of_lt (by omega)
    have hsum := hF.sum
    constructor <;>
      simp only [Regs.commit, hc, e1, e2, e3, e4, ho5, Option.getD_none, Option.getD_some, Option.map_some, hn]
    · exact hs.sld_le
    · exact hs.sdone_sld
    · exact hl
    · simp
    · simp only [List.length_append, List.length_drop]
      have := hr.dir_le
      omega
    · rw [List.take_left']
      · exact hF.valid
      · rfl
    · exact hsum
    · simp
    · exact hr.temp_range
  · obtain ⟨e1, e2, e3, e4⟩ := hf hk
    constructor <;>
      simp only [Regs.commit, hc, e1, e2, e3, e4, ho5, Option.getD_none, Option.getD_some, Option.map_none]
    · exact hs.sld_le
    · exact hs.sdone_sld
    · exact Nat.zero_le _
    · exact Nat.zero_le _
    · exact hr.dir_le
    · simp
    · rfl
    · simp
    · exact hr.temp_range

/-- Whatever the bus answers, a command commits registers that keep the invariant. -/
theorem procOf_commit_inv (i : Instr) (p : Params) (r : Regs) (hp : p.wf = true) (hr : r.Inv p) :
    (procOf i p r).All fun st => (r.commit st).Inv p := by
  have hmax : 1 ≤ p.maxDevices ∧ p.maxDevices ≤ 255 := by
    simp only [Params.wf, Params.maxDevicesOk, Bool.and_eq_true, decide_eq_true_eq] at hp
    exact hp.1.1.1.1
  have plain : ∀ st : Staged, st.cursor = none → st.found = none → st.dirCnt = none → st.fcnt = none →
      st.cap = none → (∀ v, st.temp = some v → -550 ≤ v.toInt ∧ v.toInt ≤ 1250) → (r.commit st).Inv p :=
    fun st => hr.commit_plain
  have none_temp : ∀ v : BitVec 16, (none : Option (BitVec 16)) = some v → -550 ≤ v.toInt ∧ v.toInt ≤ 1250 :=
    fun v h => absurd h (by simp)
  cases i with
  | owrst => exact Proc.all_bind fun _ => plain _ rfl rfl rfl rfl rfl none_temp
  | owbit => exact fun _ => plain _ rfl rfl rfl rfl rfl none_temp
  | owbyte => exact Proc.all_bind fun _ => plain _ rfl rfl rfl rfl rfl none_temp
  | srchrst => exact hr.commit_cursor rfl r.cursor.fresh_sound rfl rfl rfl rfl rfl
  | srchnext =>
    exact (searchPass_all r.cursor ⟨hr.sld_le, hr.sdone_sld⟩).bind fun res h =>
      hr.commit_cursor rfl h.1.cursor rfl rfl rfl rfl rfl
  | enum => exact (procEnum_all p r hmax.1 hmax.2).mono fun st h => h.commit_inv hr hmax.2
  | dirld =>
    unfold procOf procDirld
    dsimp only
    split <;> exact plain _ rfl rfl rfl rfl rfl none_temp
  | select => exact Proc.all_bind fun _ => plain _ rfl rfl rfl rfl rfl none_temp
  | convt =>
    refine Proc.all_bind fun t => ?_
    split
    · exact plain _ rfl rfl rfl rfl rfl none_temp
    · exact Proc.all_bind fun _ => plain _ rfl rfl rfl rfl rfl none_temp
  | rdtemp =>
    refine Proc.all_bind fun t => ?_
    split
    · exact plain _ rfl rfl rfl rfl rfl none_temp
    · exact Proc.all_bind fun _ => Proc.all_bind fun sp =>
        plain _ rfl rfl rfl rfl rfl fun v h => checkAndDecode_temp h
  | crcclr => exact plain _ rfl rfl rfl rfl rfl none_temp
  | crcbyte => exact plain _ rfl rfl rfl rfl rfl none_temp
  | decode => exact plain _ rfl rfl rfl rfl rfl fun v h => checkAndDecode_temp h
  | searchRom => exact plain _ rfl rfl rfl rfl rfl none_temp
  | matchRom => exact plain _ rfl rfl rfl rfl rfl none_temp
  | convertT => exact plain _ rfl rfl rfl rfl rfl none_temp
  | readScratchpad => exact plain _ rfl rfl rfl rfl rfl none_temp

end Sys2Proof.Machine
end

