-- ==== Sys2Proof/Laws/Registers.lean ====
section
/-! SUPPORT. The register map and the bytes of wide registers: reading after writing. -/

namespace Sys2Proof.Machine

/-! ## Bytes of a wide value -/

theorem getLsbD_byteOf {w : Nat} (v : BitVec w) (k n : Nat) (hn : n < 8) :
    (byteOf v k).getLsbD n = v.getLsbD (8 * k + n) := by
  simp [byteOf, hn]

theorem getLsbD_setByte {w : Nat} (v : BitVec w) (k : Nat) (b : Byte) (n : Nat) (hn : n < w) :
    (setByte v k b).getLsbD n = if 8 * k ≤ n ∧ n < 8 * k + 8 then b.getLsbD (n - 8 * k) else v.getLsbD n := by
  have hm : ∀ m, (0xFF#8).getLsbD m = decide (m < 8) := by
    intro m
    have : (0xFF#8) = BitVec.allOnes 8 := by decide
    rw [this, BitVec.getLsbD_allOnes]
  simp only [setByte, BitVec.getLsbD_or, BitVec.getLsbD_and, BitVec.getLsbD_not, BitVec.getLsbD_shiftLeft,
    BitVec.getLsbD_setWidth, hm, hn, decide_true, Bool.true_and]
  by_cases h1 : n < 8 * k
  · have h2 : ¬(8 * k ≤ n ∧ n < 8 * k + 8) := by omega
    simp [h1, h2]
  · by_cases h3 : n - 8 * k < 8
    · have h2 : 8 * k ≤ n ∧ n < 8 * k + 8 := by omega
      have h4 : n - 8 * k < w := by omega
      simp [h1, h2, h3, h4]
    · have h2 : ¬(8 * k ≤ n ∧ n < 8 * k + 8) := by omega
      have h5 : b.getLsbD (n - 8 * k) = false := BitVec.getLsbD_of_ge _ _ (by omega)
      simp [h1, h2, h3, h5]

/-- A byte written reads back. -/
theorem byteOf_setByte_same {w : Nat} (v : BitVec w) (k : Nat) (b : Byte) (hk : 8 * k + 8 ≤ w) :
    byteOf (setByte v k b) k = b := by
  apply BitVec.eq_of_getLsbD_eq
  intro n hn
  rw [getLsbD_byteOf _ _ _ hn, getLsbD_setByte _ _ _ _ (by omega)]
  simp [hn]

/-- Writing a byte leaves the other bytes. -/
theorem byteOf_setByte_ne {w : Nat} (v : BitVec w) (j k : Nat) (b : Byte) (h : j ≠ k) (hj : 8 * j + 8 ≤ w) :
    byteOf (setByte v k b) j = byteOf v j := by
  apply BitVec.eq_of_getLsbD_eq
  intro n hn
  rw [getLsbD_byteOf _ _ _ hn, getLsbD_byteOf _ _ _ hn, getLsbD_setByte _ _ _ _ (by omega)]
  have : ¬(8 * k ≤ 8 * j + n ∧ 8 * j + n < 8 * k + 8) := by omega
  simp [this]

/-! ## The register map -/

/-- Each register stands at its own address. -/
theorem regAt_regAddr (r : Reg) : regAt (regAddr r) = some r := by
  cases r with
  | fam i => revert i; decide
  | rom k => revert k; decide
  | spad k => revert k; decide
  | fcnt i => revert i; decide
  | _ => rfl

/-- The register found at an address is the one that stands there. -/
theorem regAddr_of_regAt {a : Byte} {r : Reg} (h : regAt a = some r) : regAddr r = a := by
  have key : ∀ a : Byte, ∀ r, regAt a = some r → regAddr r = a := by
    have : ∀ a : Byte, (match regAt a with | some r => decide (regAddr r = a) | none => true) = true := by decide
    intro a r h
    have := this a
    rw [h] at this
    simpa using this
  exact key a r h

/-- A read of a register's address reads that register. -/
theorem memRead_regAddr (s : State) (r : Reg) : s.memRead (regAddr r) = s.readReg r := by
  unfold State.memRead; rw [regAt_regAddr]

/-- With the engine Idle CMD reads the last accepted opcode (10_state.md R32). -/
theorem readCmd_idle {s : State} (h : s.engine.seq = .idle) : s.readCmd = s.regs.cmd := by
  unfold State.readCmd; rw [h]

/-- While a command runs CMD reads what it read before (R52, 70_reset_and_hazards.md R341). -/
theorem readCmd_busy {s : State} (h : s.engine.seq ≠ .idle) : s.readCmd = s.engine.cmdBefore := by
  unfold State.readCmd
  cases hq : s.engine.seq with
  | idle => exact absurd hq h
  | busy opc k => rfl

/-! ## Reading after a write while Idle -/

/-- A host-writable byte register: what is written is what it holds (20_memory.md R82). -/
def storesByte (r : Reg) : Bool :=
  match r with
  | .data | .crc | .dirIdx | .fam _ | .rom _ | .spad _ => true
  | .cmd | .status | .result | .ctrl | .sld | .dirCnt | .famEn | .tempL | .tempH | .fcnt _ => false

theorem readReg_writeIdle_same (s : State) (r : Reg) (v : Byte) (hr : storesByte r = true) :
    ({ s with regs := s.regs.writeIdle r v } : State).readReg r = v := by
  cases r with
  | fam i => simp [State.readReg, Regs.writeIdle]
  | rom k => exact byteOf_setByte_same _ _ _ (by omega)
  | spad k => exact byteOf_setByte_same _ _ _ (by omega)
  | data => rfl
  | crc => rfl
  | dirIdx => rfl
  | _ => exact absurd hr Bool.false_ne_true

theorem readReg_writeIdle_ne (s : State) (r q : Reg) (v : Byte) (hr : r ≠ .status) (h : q ≠ r) :
    ({ s with regs := s.regs.writeIdle r v } : State).readReg q = s.readReg q := by
  cases r with
  | status => exact absurd rfl hr
  | fam i =>
    cases q <;> try rfl
    rename_i j
    have hij : i ≠ j := fun e => h (e ▸ rfl)
    simp only [State.readReg, Regs.writeIdle, Fin.getElem_fin]
    rw [Vector.getElem_set_ne]
    exact fun e => hij (Fin.ext e)
  | rom i =>
    cases q <;> try rfl
    rename_i j
    have hij : j ≠ i := fun e => h (e ▸ rfl)
    exact byteOf_setByte_ne _ _ _ _ (fun e => hij (Fin.ext e)) (by omega)
  | spad i =>
    cases q <;> try rfl
    rename_i j
    have hij : j ≠ i := fun e => h (e ▸ rfl)
    exact byteOf_setByte_ne _ _ _ _ (fun e => hij (Fin.ext e)) (by omega)
  | _ => cases q <;> first | rfl | exact absurd rfl h

/-- A write while Idle to a register other than CMD and CTRL. -/
theorem memWrite_idle {s : State} {a : Byte} {r : Reg} (v : Byte) (hi : s.engine.seq = .idle) (ha : regAt a = some r)
    (h1 : r ≠ .ctrl) (h2 : r ≠ .cmd) : s.memWrite a v = { s with regs := s.regs.writeIdle r v } := by
  have hc : ¬some r = some Reg.ctrl := fun e => h1 (Option.some.inj e)
  simp only [State.memWrite, ha, hi]
  rw [if_neg hc]

/-- A write to any register but CTRL while a command runs (R82, 70_reset_and_hazards.md R340). -/
theorem memWrite_busy {s : State} {a : Byte} (v : Byte) (hb : s.engine.seq ≠ .idle) (ha : regAt a ≠ some .ctrl) :
    s.memWrite a v = s.setOvr := by
  unfold State.memWrite
  rw [if_neg ha]
  cases hq : s.engine.seq with
  | idle => exact absurd hq hb
  | busy opc k => rfl

end Sys2Proof.Machine
end

