-- ==== Sys2Proof/Laws/Search.lean ====
section
/-! SUPPORT. What the bit positions of a search pass do on the line, whatever the bus answers: the pairs read, the path
taken, and where a (1,1) pair ends the pass (spec/42_search.md R183, R184, R186). -/

namespace Sys2Proof.Machine

theorem rombit_setPathBit (p : Addr) (n j : Nat) (d : Bool) (hn : 1 ≤ n) (h64 : n ≤ 64) (hj : 1 ≤ j) :
    rombit (setPathBit p n d) j = if j = n then (rombit p n || d) else rombit p j := by
  unfold rombit setPathBit
  cases d with
  | false => by_cases h : j = n <;> simp [h]
  | true =>
    by_cases h : j = n
    · subst h
      have : j - 1 < 64 := by omega
      simp [this]
    · have h1 : ¬(j - 1 < 64 ∧ n - 1 ≤ j - 1 ∧ j - 1 - (n - 1) = 0) := by omega
      simp only [if_true, h, if_false, BitVec.getLsbD_or, BitVec.getLsbD_shiftLeft, BitVec.getLsbD_one]
      have h2 : (decide (j - 1 < 64) && !decide (j - 1 < n - 1) && (decide (0 < 64) && decide (j - 1 - (n - 1) = 0))) =
          false := by
        simp only [Bool.and_eq_false_iff, decide_eq_false_iff_not, Bool.not_eq_false', decide_eq_true_eq]
        omega
      simp only [h2, Bool.or_false]

/-- The direction the pass takes at position `j` for the pairs `(b, cb)`. -/
def directions (c : Cursor) (b cb : Nat → Bool) (j : Nat) : Bool := c.direction j (b j) (cb j)

/-- The events of `k` positions from `n` on, newest first. -/
def positionsTrace (p : Params) (c : Cursor) (b cb x : Nat → Bool) (n k : Nat) : List LineEvent :=
  (List.range' n k).reverse.flatMap fun j => positionTrace p (b j) (cb j) (directions c b cb j) (x j)

/-- The end of the positions without a (1,1) pair: the path, and the highest position at which a 0 was chosen at
(0,0). -/
structure PassDone (c : Cursor) (b cb : Nat → Bool) (m n : Nat) (path : Addr) (lz : Nat) (path' : Addr) (lz' : Nat) :
    Prop where
  pairs : ∀ j, n ≤ j → j < n + m → ¬(b j = true ∧ cb j = true)
  bits : ∀ j, n ≤ j → j < n + m → rombit path' j = directions c b cb j
  below : ∀ j, 1 ≤ j → j < n → rombit path' j = rombit path j
  last_ge : ∀ j, n ≤ j → j < n + m → b j = false → cb j = false → directions c b cb j = false → j ≤ lz'
  last_eq : lz' = lz ∨ (n ≤ lz' ∧ lz' < n + m ∧ b lz' = false ∧ cb lz' = false ∧ directions c b cb lz' = false)

/-- The run of the bit positions: either every pair is other than (1,1), or the first (1,1) pair, at position `n + k`,
ends the pass after its two reads. -/
theorem searchBits_run (c : Cursor) (m n : Nat) (path : Addr) (lz : Nat) (s : State) (hn : 1 ≤ n) (hm : n + m = 65)
    (hz : ∀ j, n ≤ j → rombit path j = false) (hl : lz < n) :
    ∃ b cb x : Nat → Bool,
      (∃ path' lz', ((searchBits c m n path lz).run s).1 = some (path', lz') ∧
        PassDone c b cb m n path lz path' lz' ∧
        ((searchBits c m n path lz).run s).2.line.trace = positionsTrace s.params c b cb x n m ++ s.line.trace ∧
        ((searchBits c m n path lz).run s).2.line.slots = s.line.slots + 3 * m) ∨
      (∃ k, k < m ∧ ((searchBits c m n path lz).run s).1 = none ∧
        (∀ j, n ≤ j → j < n + k → ¬(b j = true ∧ cb j = true)) ∧ b (n + k) = true ∧ cb (n + k) = true ∧
        ((searchBits c m n path lz).run s).2.line.trace =
          bitTrace s.params true true ++ (bitTrace s.params true true ++
            (positionsTrace s.params c b cb x n k ++ s.line.trace)) ∧
        ((searchBits c m n path lz).run s).2.line.slots = s.line.slots + 3 * k + 2) := by
  induction m generalizing n path lz s with
  | zero =>
    exact ⟨fun _ => false, fun _ => false, fun _ => false, .inl ⟨path, lz, rfl,
      ⟨by omega, by omega, fun _ _ _ => rfl, by omega, .inl rfl⟩, by simp [searchBits, positionsTrace], rfl⟩⟩
  | succ m ih =>
    set b0 := (s.bitSlot true).1 with hb0
    set s1 := (s.bitSlot true).2 with hs1
    set cb0 := (s1.bitSlot true).1 with hcb0
    set s2 := (s1.bitSlot true).2 with hs2
    have t2 : s2.line.trace = bitTrace s.params true cb0 ++ (bitTrace s.params true b0 ++ s.line.trace) := by
      rw [hs2, bitSlot_trace, ← hcb0, hs1, bitSlot_trace, bitSlot_params, ← hb0]
    have l2 : s2.line.slots = s.line.slots + 2 := by rw [hs2, bitSlot_slots, hs1, bitSlot_slots]
    have p2 : s2.params = s.params := by rw [hs2, bitSlot_params, hs1, bitSlot_params]
    by_cases hp : (b0 && cb0) = true
    · have hrun : (searchBits c (m + 1) n path lz).run s = (none, s2) := by
        show Proc.run (if (b0 && cb0) = true then _ else _) s2 = _
        rw [if_pos hp]; rfl
      obtain ⟨e1, e2⟩ := Bool.and_eq_true_iff.mp hp
      refine ⟨fun _ => true, fun _ => true, fun _ => true, .inr ⟨0, by omega, ?_, by omega, rfl, rfl, ?_, ?_⟩⟩
      · rw [hrun]
      · rw [hrun]
        show s2.line.trace = _
        rw [t2, e1, e2]; simp [positionsTrace]
      · rw [hrun]; exact l2
    · set d := c.direction n b0 cb0 with hd
      set x0 := (s2.bitSlot d).1 with hx0
      set s3 := (s2.bitSlot d).2 with hs3
      have hrun : (searchBits c (m + 1) n path lz).run s =
          (searchBits c m (n + 1) (setPathBit path n d) (lastZero n b0 cb0 d lz)).run s3 := by
        show Proc.run (if (b0 && cb0) = true then _ else _) s2 = _
        rw [if_neg hp]; rfl
      have t3 : s3.line.trace = positionTrace s.params b0 cb0 d x0 ++ s.line.trace := by
        rw [hs3, bitSlot_trace, ← hx0, t2, p2]; simp [positionTrace]
      have l3 : s3.line.slots = s.line.slots + 3 := by rw [hs3, bitSlot_slots, l2]
      have p3 : s3.params = s.params := by rw [hs3, bitSlot_params, p2]
      have hz' : ∀ j, n + 1 ≤ j → rombit (setPathBit path n d) j = false := by
        intro j hj
        rw [rombit_setPathBit _ _ _ _ hn (by omega) (by omega), if_neg (by omega)]
        exact hz j (by omega)
      have hl' : lastZero n b0 cb0 d lz < n + 1 := by unfold lastZero; split <;> omega
      obtain ⟨b', cb', x', h⟩ := ih (n + 1) (setPathBit path n d) (lastZero n b0 cb0 d lz) s3 (by omega) (by omega) hz' hl'
      let b : Nat → Bool := fun j => if j = n then b0 else b' j
      let cb : Nat → Bool := fun j => if j = n then cb0 else cb' j
      let x : Nat → Bool := fun j => if j = n then x0 else x' j
      have bn : b n = b0 := if_pos rfl
      have cbn : cb n = cb0 := if_pos rfl
      have xn : x n = x0 := if_pos rfl
      have bo : ∀ j, n + 1 ≤ j → b j = b' j := fun j hj => if_neg (by omega)
      have cbo : ∀ j, n + 1 ≤ j → cb j = cb' j := fun j hj => if_neg (by omega)
      have xo : ∀ j, n + 1 ≤ j → x j = x' j := fun j hj => if_neg (by omega)
      have dn : directions c b cb n = d := by unfold directions; rw [bn, cbn]
      have do' : ∀ j, n + 1 ≤ j → directions c b cb j = directions c b' cb' j := by
        intro j hj; unfold directions; rw [bo j hj, cbo j hj]
      have hpair : ¬(b n = true ∧ cb n = true) := by
        rw [bn, cbn]; exact fun e => hp (Bool.and_eq_true_iff.mpr e)
      have htr : ∀ k, positionsTrace s.params c b cb x n (k + 1) ++ s.line.trace =
          positionsTrace s3.params c b' cb' x' (n + 1) k ++ s3.line.trace := by
        intro k
        unfold positionsTrace
        rw [List.range'_succ, List.reverse_cons, List.flatMap_append, t3, p3]
        have : ((List.range' (n + 1) k).reverse.flatMap fun j =>
            positionTrace s.params (b j) (cb j) (directions c b cb j) (x j)) =
            (List.range' (n + 1) k).reverse.flatMap fun j =>
              positionTrace s.params (b' j) (cb' j) (directions c b' cb' j) (x' j) := by
          apply List.flatMap_congr
          intro j hj
          have hj : n + 1 ≤ j := by
            have := List.mem_range'.mp (List.mem_reverse.mp hj)
            omega
          rw [bo j hj, cbo j hj, do' j hj, xo j hj]
        rw [this]
        simp [bn, cbn, dn, xn]
      refine ⟨b, cb, x, ?_⟩
      rw [hrun]
      rcases h with ⟨path', lz', h1, hd', h2, h3⟩ | ⟨k, hk, h1, h2, h3, h4, h5, h6⟩
      · refine .inl ⟨path', lz', h1, ⟨?_, ?_, ?_, ?_, ?_⟩, by rw [h2, ← htr], by rw [h3, l3]; omega⟩
        · intro j hj hj'
          by_cases e : j = n
          · rw [e]; exact hpair
          · rw [bo j (by omega), cbo j (by omega)]; exact hd'.pairs j (by omega) (by omega)
        · intro j hj hj'
          by_cases e : j = n
          · rw [e, hd'.below n hn (by omega), rombit_setPathBit _ _ _ _ hn (by omega) hn, if_pos rfl, hz n (le_refl n),
              Bool.false_or, dn]
          · rw [do' j (by omega)]; exact hd'.bits j (by omega) (by omega)
        · intro j hj hj'
          rw [hd'.below j hj (by omega), rombit_setPathBit _ _ _ _ hn (by omega) hj, if_neg (by omega)]
        · intro j hj hj' e1 e2 e3
          by_cases e : j = n
          · subst e
            rw [bn] at e1; rw [cbn] at e2; rw [dn] at e3
            have hlz : lastZero j b0 cb0 d lz = j := by unfold lastZero; rw [if_pos ⟨e1.trans e2.symm, e3⟩]
            rcases hd'.last_eq with e' | e'
            · rw [e', hlz]
            · omega
          · rw [bo j (by omega)] at e1; rw [cbo j (by omega)] at e2; rw [do' j (by omega)] at e3
            exact hd'.last_ge j (by omega) (by omega) e1 e2 e3
        · rcases hd'.last_eq with e' | ⟨e1, e2, e3, e4, e5⟩
          · rw [e']
            unfold lastZero
            split
            · rename_i hc
              refine .inr ⟨le_refl n, by omega, ?_, ?_, by rw [dn]; exact hc.2⟩
              · rw [bn]
                cases hb : b0
                · rfl
                · exact absurd (by rw [← hc.1, hb]; rfl) hp
              · rw [cbn]
                cases hb : cb0
                · rfl
                · exact absurd (by rw [hc.1, hb]; rfl) hp
            · exact .inl rfl
          · exact .inr ⟨by omega, by omega, by rw [bo _ e1]; exact e3, by rw [cbo _ e1]; exact e4,
              by rw [do' _ e1]; exact e5⟩
      · refine .inr ⟨k + 1, by omega, h1, ?_, ?_, ?_, ?_, by rw [h6, l3]; omega⟩
        · intro j hj hj'
          by_cases e : j = n
          · rw [e]; exact hpair
          · rw [bo j (by omega), cbo j (by omega)]; exact h2 j (by omega) (by omega)
        · rw [show n + (k + 1) = n + 1 + k by omega, bo _ (by omega)]; exact h3
        · rw [show n + (k + 1) = n + 1 + k by omega, cbo _ (by omega)]; exact h4
        · rw [h5, ← htr, p3]

end Sys2Proof.Machine
end

