-- ==== Sys2Proof/Tests/Slice0.lean ====
section
/-! SUPPORT. Tests and witnesses. Expected values are those of spec/95_test_vectors.md (each theorem names its vector)
and of the tables of spec/30_encoding.md; the default parameters of 00_scope.md R6 are used, as the vectors do. -/

namespace Sys2Proof.Tests

set_option Elab.async false

open Sys2Proof.Machine

/-! ## Small states -/

/-- A 64-bit address from its bytes, byte 0 (the family) first. -/
def addrOf (bs : List Byte) : Addr := bs.zipIdx.foldl (fun v p => setByte v p.2 p.1) 0

/-- A scratchpad from its nine bytes, byte 0 first. -/
def spadOf (bs : List Byte) : Scratchpad := bs.zipIdx.foldl (fun v p => setByte v p.2 p.1) 0

def addrA0 : Addr := addrOf [0x28, 0, 0, 0, 0, 0, 0, 0x1E]
def addrA1 : Addr := addrOf [0x28, 1, 0, 0, 0, 0, 0, 0x29]
def addrA2 : Addr := addrOf [0x10, 0, 0, 0, 0, 0, 0, 0xFB]
def addrX : Addr := addrOf [0x28, 0, 0, 0, 0, 0, 0, 0]
def spad25at11 : Scratchpad := spadOf [0x91, 0x01, 0x4B, 0x46, 0x5F, 0xFF, 0x0F, 0x10, 0x55]
def spadM10at11 : Scratchpad := spadOf [0x5E, 0xFF, 0x4B, 0x46, 0x5F, 0xFF, 0x02, 0x10, 0xC6]
def devA0 : Device := { addr := addrA0, spad := spad25at11, mode := .off }
def devA1 : Device := { addr := addrA1, spad := spadM10at11, mode := .off }
def devA2 : Device := { addr := addrA2, spad := BitVec.allOnes 72, mode := .off }

/-- Power-on with the default parameters. -/
def start : State := { State.reset with params := Params.defaults }

/-- The same with the reference devices on the bus (45_bus_environment.md R284). -/
def onBus (ds : List Device) : State := { start with bus := { start.bus with kind := .reference, devices := ds } }

/-- The same with the draws to come fixed. -/
def withDraws (bs : List Bool) : State := { start with bus := { start.bus with script := bs.map some } }

/-- The state with other registers. -/
def withRegs (s : State) (f : Regs → Regs) : State := { s with regs := f s.regs }

/-- The state with host accesses to come. -/
def withHost (s : State) (h : List Pending) : State := { s with host := h }

/-- Whether an outcome is a next state with a property. -/
def nextIs (o : Host.Outcome State Fault Refusal) (p : State → Bool) : Bool :=
  match o with
  | .next t => p t
  | .fault _ | .refused _ => false

theorem exists_of_nextIs {o : Host.Outcome State Fault Refusal} {p : State → Bool} (h : nextIs o p = true) :
    ∃ t, o = .next t ∧ p t = true := by
  cases o with
  | next t => exact ⟨t, rfl, h⟩
  | fault f => exact absurd h Bool.false_ne_true
  | refused r => exact absurd h Bool.false_ne_true

/-! ## Decoding: words from the tables of 30_encoding.md R112 and R117 -/

theorem test_decode_transport : decode .cmd8 0b00000001#8 = .ok .owrst ∧ decode .cmd8 0b00000010#8 = .ok .owbit ∧
    decode .cmd8 0b00000011#8 = .ok .owbyte := by decide
theorem test_decode_search : decode .cmd8 0b00010000#8 = .ok .srchrst ∧ decode .cmd8 0b00010001#8 = .ok .srchnext ∧
    decode .cmd8 0b00010010#8 = .ok .enum ∧ decode .cmd8 0b00010011#8 = .ok .dirld := by decide
theorem test_decode_sensor : decode .cmd8 0b00100000#8 = .ok .select ∧ decode .cmd8 0b00100001#8 = .ok .convt ∧
    decode .cmd8 0b00100010#8 = .ok .rdtemp := by decide
theorem test_decode_crc : decode .cmd8 0b00110000#8 = .ok .crcclr ∧ decode .cmd8 0b00110001#8 = .ok .crcbyte ∧
    decode .cmd8 0b00110010#8 = .ok .decode := by decide
theorem test_decode_wire : decode .wire8 0b11110000#8 = .ok .searchRom ∧ decode .wire8 0b01010101#8 = .ok .matchRom ∧
    decode .wire8 0b01000100#8 = .ok .convertT ∧ decode .wire8 0b10111110#8 = .ok .readScratchpad := by decide
theorem test_decode_rejects_by_name : decode .cmd8 0x04#8 = .error (.illegalOpcode 0x04) ∧
    decode .cmd8 0xBE#8 = .error (.illegalOpcode 0xBE) ∧ decode .wire8 0x12#8 = .error (.notWireCommand 0x12) := by
  decide
theorem test_table_word : decodeTableWord 8 0x12 = some .enum ∧ decodeTableWord 8 0x55 = some .matchRom ∧
    decodeTableWord 8 0x04 = none ∧ decodeTableWord 16 0x12 = none := by decide

/-- The very next step after reset runs the word: a host command and a wire byte. -/
theorem test_fetch_word : nextIs (step (State.reset.withFetchWord 8 0x31)) (fun t => t.regs.cmd == 0x31) = true ∧
    nextIs (step (start.withFetchWord 8 0xBE)) (fun t => t.line.slots == 8 && t.status == 0x00) = true := by
  decide +kernel

/-! ## Well-formedness: a term each check refuses -/

theorem test_wf_maxDevices : Params.wf { Params.defaults with maxDevices := 0 } = false ∧
    Params.wf { Params.defaults with maxDevices := 256 } = false := by decide
theorem test_wf_passLimit : Params.wf { Params.defaults with enumPassLimit := 0 } = false ∧
    Params.wf { Params.defaults with enumPassLimit := 256 } = false := by decide
theorem test_wf_positive : Params.wf { Params.defaults with tPds := 0 } = false ∧
    Params.wf { Params.defaults with fClk := 0 } = false := by decide
theorem test_wf_sample : Params.wf { Params.defaults with tLow1 := 0 } = false ∧
    Params.wf { Params.defaults with tMsr := 0 } = false ∧
    Params.wf { Params.defaults with tLow0 := 15 } = false := by decide
theorem test_wf_recovery : Params.wf { Params.defaults with tRec := 0 } = false ∧
    Params.wf { Params.defaults with tSlot := 69 } = false := by decide
theorem test_wf_defaults : Params.wf Params.defaults = true := by decide
theorem test_wf_access : HostOp.wf (.wide .bits16 0x0A) = false ∧ HostOp.wf (.rd 0x0A) = true := by decide
theorem test_wf_line : Line.wf (.cmd .searchRom) = false ∧ Line.wf (.run .convertT) = false ∧
    Line.wf (.cmd .enum) = true := by decide

/-! ## Transport -/

/-- V-B1. -/
theorem test_owrst_present : nextIs (exec .owrst (withDraws [false, true])) (fun t => t.status == 0x06 &&
    t.line.trace.reverse == [.low 0, .rel 480, .smp 550 false, .smp 960 true]) = true := by decide +kernel
/-- V-B4. -/
theorem test_owrst_stuck_has_priority : nextIs (exec .owrst (withDraws [true, false]))
    (fun t => t.regs.result == .lineStuck && t.regs.pres == false) = true := by decide +kernel
/-- V-B9: DATA = 0x03 and no device drives. -/
theorem test_owbit_extends_the_bit : nextIs (exec .owbit (withRegs (onBus []) ({ · with data := 0x03 })))
    (fun t => t.regs.data == 0x01 && t.line.trace.reverse == [.low 0, .rel 6, .smp 15 true]) = true := by
  decide +kernel
/-- V-B8: DATA = 0xFE sends 0. -/
theorem test_owbit_sends_bit_zero : nextIs (exec .owbit (withRegs (withDraws [true]) ({ · with data := 0xFE })))
    (fun t => t.regs.data == 0x00 && t.status == 0x02 &&
      t.line.trace.reverse == [.low 0, .smp 15 false, .rel 60]) = true := by decide +kernel
/-- V-B10: the selected device sends 0xA5. -/
theorem test_owbyte_reads_lsb_first : nextIs (exec .owbyte (withRegs
    (onBus [{ addr := addrA0, spad := spadOf [0xA5, 0, 0, 0, 0, 0, 0, 0, 0], mode := .tx 0 }]) ({ · with data := 0xFF })))
    (fun t => t.regs.data == 0xA5 && t.line.slots == 8) = true := by decide +kernel
/-- V-B12: DATA = 0x0F and no device drives. -/
theorem test_owbyte_masks_its_zeros : nextIs (exec .owbyte (withRegs (onBus []) ({ · with data := 0x0F })))
    (fun t => t.regs.data == 0x0F && t.line.trace.head? == some (.rel 60)) = true := by decide +kernel
/-- V-B15: HOST_I is 1 again after the slot. -/
theorem test_owbit_restores_host_interrupts : nextIs (exec .owbit
    { start with hostI := true, params := { Params.defaults with realisation := .bitBang } })
    (fun t => t.hostI == true && t.engine.savedI == none) = true := by decide +kernel

/-! ## Search and directory -/

/-- V-S18: SRCHRST from SLD = 9. -/
theorem test_srchrst : nextIs (exec .srchrst (withRegs start
    (fun r => { r with cursor := { sld := 9, sdone := false, spath := addrA1 } })))
    (fun t => t.regs.cursor == { sld := 0, sdone := false, spath := addrA1 } && t.line.slots == 0) = true := by
  decide +kernel
/-- V-S1: set A from reset. -/
theorem test_srchnext_first_pass : nextIs (exec .srchnext (onBus [devA0, devA1, devA2]))
    (fun t => t.regs.rom == addrA2 && t.regs.cursor.sld == 4 && t.status == 0x06 && t.line.slots == 201) = true := by
  decide +kernel
/-- V-S2, pass 2: retrace to bit 4, take 1 there, then 0 at bit 9. -/
theorem test_srchnext_second_pass : nextIs (exec .srchnext (withRegs (onBus [devA0, devA1, devA2])
    (fun r => { r with cursor := { sld := 4, sdone := false, spath := addrA2 } })))
    (fun t => t.regs.rom == addrA0 && t.regs.cursor.sld == 9 && t.status == 0x06) = true := by decide +kernel
/-- V-S5: ENUM on set A with FAM0 = 0x28 and FAMEN = 0x01. -/
theorem test_enum_keeps_the_listed_family : nextIs (exec .enum (withRegs (onBus [devA0, devA1, devA2])
    (fun r => { r with famEn := 1, fam := r.fam.set 0 0x28 })))
    (fun t => t.regs.dirCnt == 2 && t.regs.dir == [addrA0, addrA1] && t.regs.fcnt[0] == 2 && t.regs.cap == false &&
      t.status == 0x0E && t.regs.rom == 0 && t.line.slots == 603) = true := by decide +kernel
/-- V-S14: ENUM on an empty bus. -/
theorem test_enum_empty_bus : nextIs (exec .enum (onBus []))
    (fun t => t.regs.result == .noPresence && t.status == 0x02 && t.line.slots == 1) = true := by decide +kernel
/-- V-S5: DIRLD of entry 1. -/
theorem test_dirld_loads : nextIs (exec .dirld (withRegs start
    (fun r => { r with dir := [addrA0, addrA1], dirCnt := 2, dirIdx := 1 })))
    (fun t => t.regs.rom == addrA1 && t.regs.result == .ok) = true := by decide +kernel
/-- V-S19: DIRIDX = 255. -/
theorem test_dirld_index_error : nextIs (exec .dirld (withRegs start
    (fun r => { r with dir := [addrA0, addrA1], dirCnt := 2, dirIdx := 255, rom := addrA2 })))
    (fun t => t.regs.rom == addrA2 && t.regs.result == .indexError) = true := by decide +kernel

/-! ## Sensors -/

/-- V-T3. -/
theorem test_select : nextIs (exec .select (withRegs (onBus [devA0]) ({ · with rom := addrA0 })))
    (fun t => t.status == 0x06 && t.regs.result == .ok && t.line.slots == 73 &&
      t.bus.devices.map (·.mode) == [.selected]) = true := by decide +kernel
/-- V-T4. -/
theorem test_convt : nextIs (exec .convt (withRegs (onBus [devA0]) ({ · with rom := addrA0 })))
    (fun t => t.regs.result == .ok && t.line.slots == 81) = true := by decide +kernel
/-- V-T1. -/
theorem test_rdtemp_reads_25_degrees : nextIs (exec .rdtemp (withRegs (onBus [devA0]) ({ · with rom := addrA0 })))
    (fun t => t.regs.temp == 0x00FA && t.regs.spad == spad25at11 && t.status == 0x06 && t.line.slots == 153) = true := by
  decide +kernel
/-- V-T9: the other devices leave the transaction. -/
theorem test_rdtemp_addresses_one_device : nextIs (exec .rdtemp (withRegs (onBus [devA0, devA1, devA2])
    ({ · with rom := addrA1 }))) (fun t => t.regs.temp == 0xFF9B && t.regs.result == .ok) = true := by decide +kernel

/-! ## CRC and decode -/

/-- V-C1. -/
theorem test_crcclr : nextIs (exec .crcclr (withRegs start ({ · with crc := 0x5E })))
    (fun t => t.regs.crc == 0x00 && t.regs.result == .ok) = true := by decide +kernel
/-- V-C2. -/
theorem test_crcbyte : nextIs (exec .crcbyte (withRegs start ({ · with data := 0x80 })))
    (fun t => t.regs.crc == 0x8C && t.regs.data == 0x80) = true := by decide +kernel
/-- V-C4, V-C5: the CRC over A0's first seven bytes is its last, and the check string's CRC. -/
theorem test_crc_strings : crc8 [0x28, 0, 0, 0, 0, 0, 0] = 0x1E ∧
    crc8 [0x31, 0x32, 0x33, 0x34, 0x35, 0x36, 0x37, 0x38, 0x39] = 0xA1 := by decide +kernel
/-- V-D5: the example of R257. -/
theorem test_decode_negative : nextIs (exec .decode (withRegs start
    ({ · with spad := spadOf [0x5E, 0xFF, 0x4B, 0x46, 0x7F, 0xFF, 0x02, 0x10, 0xB6] })))
    (fun t => t.regs.temp == 0xFF9B && t.regs.result == .ok) = true := by decide +kernel
/-- V-D5: -55.1 degrees is out of range, and TEMP keeps 0x8000. -/
theorem test_decode_range_error : nextIs (exec .decode (withRegs start
    ({ · with spad := spadOf [0x8E, 0xFC, 0x4B, 0x46, 0x7F, 0xFF, 0x0C, 0x10, 0xA2] })))
    (fun t => t.regs.temp == 0x8000 && t.regs.result == .rangeError) = true := by decide +kernel
/-- V-D1, raw 0xFF5E and 0x0191, and V-D2 and V-D3 at the edges of the range. -/
theorem test_decode_values : decodeTenths 0xFF5E 0x1F = -100 ∧ decodeTenths 0xFF5E 0x7F = -101 ∧
    decodeTenths 0x0191 0x5F = 250 ∧ decodeTenths 0x0191 0x7F = 251 ∧ decodeTenths 0x07D4 0x1F = 1250 ∧
    decodeTenths 0x07D4 0x3F = 1253 ∧ decodeTenths 0xFC8E 0x5F = -551 ∧ decodeTenths 0x8000 0x7F = -20480 := by decide +kernel

/-! ## Wire bytes: R117's bytes as bit slots, LSB first (V-B7, V-B6 give a slot's trace) -/

theorem test_searchRom_starts_with_zeros : nextIs (exec .searchRom (onBus []))
    (fun t => (t.line.trace.reverse.take 3) == [.low 0, .smp 15 false, .rel 60] &&
      t.line.trace.take 3 == [.smp 15 true, .rel 6, .low 0]) = true := by decide +kernel
theorem test_matchRom_starts_with_a_one : nextIs (exec .matchRom (onBus []))
    (fun t => (t.line.trace.reverse.take 3) == [.low 0, .rel 6, .smp 15 true] &&
      t.line.trace.take 3 == [.rel 60, .smp 15 false, .low 0]) = true := by decide +kernel
theorem test_convertT_slots : nextIs (exec .convertT (onBus []))
    (fun t => t.line.slots == 8 && t.line.trace.countP (· == .rel 6) == 2) = true := by decide +kernel
theorem test_readScratchpad_slots : nextIs (exec .readScratchpad (onBus []))
    (fun t => t.line.slots == 8 && t.line.trace.countP (· == .rel 60) == 2) = true := by decide +kernel

/-! ## The host interface -/

/-- V-H1. -/
theorem test_reads_after_power_on : start.memRead 0x0B = 0x80 ∧ start.memRead 0x0A = 0x00 ∧
    start.memRead 0x18 = 0xFF ∧ start.memRead 0x20 = 0xFF ∧ start.memRead 0x01 = 0x00 := by decide
/-- V-H2: the write that lands in OWRST's slot is ignored and sets OVR. -/
theorem test_write_while_busy : nextIs (Sys2Proof.core.run 7 (withHost (onBus [devA0])
    [⟨none, .wr 0x00 0x01⟩, ⟨some 2, .wr 0x04 0x55⟩])) (fun t => t.status == 0x16 && t.regs.data == 0x00) = true := by
  decide +kernel
/-- V-H2 as a launched program (R318): with no WAIT before it, the write may land inside the command, and may not. -/
theorem test_launched_write_lands_in_the_command :
    nextIs (Sys2Proof.core.run 9 ((onBus [devA0]).launch [.cmd .owrst, .wr (.named .data) 0x55, .wait] [0, 2, 1]))
      (fun t => t.status == 0x16 && t.regs.data == 0x00 && t.ended) = true ∧
    nextIs (Sys2Proof.core.run 7 ((onBus [devA0]).launch [.cmd .owrst, .wr (.named .data) 0x55] [0, 9]))
      (fun t => t.status == 0x06 && t.regs.data == 0x55 && t.ended) = true := by decide +kernel
/-- V-H8 as a launched program: a read that lands inside RDTEMP returns the pre-command value. -/
theorem test_launched_read_sees_the_old_value :
    nextIs (Sys2Proof.core.run 30 ((withRegs (onBus [devA0]) ({ · with rom := addrA0 })).launch
      [.cmd .rdtemp, .rd (.named .tempL), .rd (.named (.spad 8))] [0, 7, 3]))
      (fun t => t.busy && t.reads == [(0x20, 0xFF), (0x0A, 0x00)]) = true := by decide +kernel
/-- R341 and R32: CMD reads its pre-command value inside a command, and the command's opcode after it. -/
theorem test_cmd_read_while_busy :
    nextIs (Sys2Proof.core.run 5 ((withRegs start ({ · with cmd := 0x30 })).launch
      [.cmd .owrst, .rd (.named .cmd)] [0, 3])) (fun t => t.busy && t.reads == [(0x00, 0x30)]) = true ∧
    nextIs (exec .crcclr start) (fun t => t.memRead 0x00 == 0x30) = true := by decide +kernel
/-- R301: the number of each code. -/
theorem test_result_codes : ([.ok, .noPresence, .lineStuck, .searchDataError, .crcError, .rangeError, .illegalCmd,
    .indexError, .exhausted, .passLimit] : List ResultCode).map
      (fun c => (withRegs start ({ · with result := c })).memRead 0x02) = [0, 1, 2, 3, 4, 5, 6, 7, 8, 9] := by decide
/-- V-H5: IE is written first, then the soft reset clears it. -/
theorem test_soft_reset_after_ie : (start.memWrite 0x03 0x03).regs.ie = false ∧
    ((withRegs start ({ · with dirIdx := 7 })).memWrite 0x03 0x02).regs.dirIdx = 0x00 := by decide
/-- V-H4: IRQ, and its acknowledgement. -/
theorem test_irq : ((withRegs start ({ · with done := true })).memWrite 0x03 0x01).irq = true ∧
    (((withRegs start ({ · with done := true })).memWrite 0x03 0x01).memWrite 0x01 0x02).irq = false := by decide
/-- V-H7 and V-H10. -/
theorem test_reserved_and_read_only : (start.memWrite 0x30 0x5A).memRead 0x30 = 0x00 ∧
    (start.memWrite 0x09 0xFF).memRead 0x09 = 0x0F ∧ (start.memWrite 0x0A 0x12).memRead 0x0A = 0x00 ∧
    (start.memWrite 0x06 0x05).status = 0x00 := by decide
/-- V-H6: an illegal opcode. -/
theorem test_illegal_opcode : nextIs (step (withHost start [⟨none, .wr 0x00 0xFF⟩]))
    (fun t => t.regs.result == .illegalCmd && t.regs.cmd == 0xFF && t.status == 0x02 && t.line.slots == 0) = true := by
  decide +kernel
/-- R120: the expansion of SET_ROM's first and last byte and of RUN. -/
theorem test_program_lines : lineOps (.run .enum) = [.wr 0x00 0x12, .wait, .rd 0x02] ∧
    (lineOps (.setRom 1 2 3 4 5 6 7 8)).head? = some (.wr 0x10 1) ∧ lineOps .ack = [.wr 0x01 0x02] := by decide

/-! ## Witnesses: states and operands that meet the hypotheses of each statement -/

/-- A command in progress: OWRST accepted, no slot begun. -/
def busyState : State := start.issue 0x01

/-- OWRST in progress inside its reset slot: two of its four events have happened. -/
def midSlot : State := busyState.engineStep.engineStep

/-- The same in the BitBang realisation. -/
def midGuarded : State :=
  ({ start with hostI := true, params := { Params.defaults with realisation := .bitBang } } : State).issue 0x01 |>.engineStep

theorem witness_StepRunsTheWrittenCommand : ∃ (s : State) (v : Byte) (i : Instr) (arrive : Option Nat) (rest : List Pending),
    s.engine.seq = .idle ∧ s.engine.txByte = none ∧ s.host = ⟨arrive, .wr 0x00 v⟩ :: rest ∧
    ({ s with host := rest } : State).accessDue = false ∧ decode .cmd8 v = .ok i :=
  ⟨withHost start [⟨none, .wr 0x00 0x12⟩, ⟨none, .rd 0x02⟩], 0x12, .enum, none, [⟨none, .rd 0x02⟩], rfl, rfl, rfl, rfl, rfl⟩

theorem witness_StepSendsTheWaitingWireByte : ∃ (s : State) (v : Byte) (i : Instr),
    s.engine.seq = .idle ∧ s.engine.txByte = some v ∧ decode .wire8 v = .ok i :=
  ⟨start.withFetchWord 8 0x44, 0x44, .convertT, rfl, rfl, rfl⟩

theorem witness_StepAcceptsACommandWithAnAccessDue : ∃ (s : State) (v : Byte) (i : Instr) (arrive : Option Nat) (n : Nat)
    (op : HostOp) (rest : List Pending), s.engine.seq = .idle ∧ s.engine.txByte = none ∧
    s.host = ⟨arrive, .wr 0x00 v⟩ :: ⟨some n, op⟩ :: rest ∧ decode .cmd8 v = .ok i :=
  ⟨withHost start [⟨none, .wr 0x00 0x22⟩, ⟨some 0, .rd 0x0A⟩], 0x22, .rdtemp, none, 0, .rd 0x0A, [], rfl, rfl, rfl, rfl⟩

theorem witness_IllegalOpcodeOnlyReportsItself : ∃ (s : State) (v : Byte) (e : DecodeError) (arrive : Option Nat)
    (rest : List Pending), s.engine.seq = .idle ∧ s.engine.txByte = none ∧ s.host = ⟨arrive, .wr 0x00 v⟩ :: rest ∧
    decode .cmd8 v = .error e :=
  ⟨withHost start [⟨none, .wr 0x00 0xFF⟩], 0xFF, .illegalOpcode 0xFF, none, [], rfl, rfl, rfl, rfl⟩

/-- The address clauses of the write table: each at the ends of its range, and every address but CTRL in one alone. -/
theorem witness_HostWritesFollowTheTable : start.engine.seq = .idle ∧ busyState.engine.seq ≠ .idle ∧
    (0x0C#8 ≤ 0x0C#8 ∧ 0x0C#8 ≤ 0x20#8) ∧ (0x0C#8 ≤ 0x20#8 ∧ 0x20#8 ≤ 0x20#8) ∧ 0x21#8 ≤ 0x21#8 ∧ 0x21#8 ≤ 0xFF#8 ∧
    ((List.range 256).all fun n =>
      let a := BitVec.ofNat 8 n
      ([a == 0x03, a == 0x00, a == 0x01, decide (a = 0x04 ∨ a = 0x05 ∨ a = 0x07 ∨ (0x0C ≤ a ∧ a ≤ 0x20)), a == 0x09,
        decide (a = 0x02 ∨ a = 0x06 ∨ a = 0x08 ∨ a = 0x0A ∨ a = 0x0B ∨ 0x21 ≤ a)].count true) == 1) = true := by
  decide +kernel

/-- The step clause: a write while Idle, and a CTRL write landing inside a command. -/
theorem witness_HostWritesFollowTheTable_step : ∃ (s u : State) (arrive : Option Nat),
    (s.host = ⟨arrive, .wr 0x04 0x55⟩ :: [] ∧ s.engine.seq = .idle ∧ s.engine.txByte = none ∧ (0x04 : Byte) ≠ 0x00) ∧
    (u.host = ⟨some 0, .wr 0x03 0x02⟩ :: [] ∧ u.engine.seq ≠ .idle) :=
  ⟨withHost start [⟨none, .wr 0x04 0x55⟩], withHost busyState [⟨some 0, .wr 0x03 0x02⟩], none,
    ⟨rfl, rfl, rfl, by decide⟩, rfl, by decide⟩

theorem witness_WriteLandingInACommandOnlySetsOvr : ∃ (s : State) (opc : Byte) (k : Nat) (a v : Byte) (rest : List Pending),
    s.engine.seq = .busy opc k ∧ s.host = ⟨some 0, .wr a v⟩ :: rest ∧ a ≠ 0x03 :=
  ⟨withHost busyState [⟨some 0, .wr 0x04 0x55⟩], 0x01, 0, 0x04, 0x55, [], rfl, rfl, by decide⟩

theorem witness_ReadsHaveNoSideEffects_idle : ∃ (s : State) (arrive : Option Nat) (a : Byte) (rest : List Pending),
    s.host = ⟨arrive, .rd a⟩ :: rest ∧ s.engine.seq = .idle ∧ s.engine.txByte = none :=
  ⟨withHost start [⟨none, .rd 0xFF⟩], none, 0xFF, [], rfl, rfl, rfl⟩
theorem witness_ReadsHaveNoSideEffects_busy : ∃ (s : State) (arrive : Option Nat) (a : Byte) (rest : List Pending),
    s.host = ⟨arrive, .rd a⟩ :: rest ∧ s.engine.seq ≠ .idle ∧ arrive = some 0 :=
  ⟨withHost busyState [⟨some 0, .rd 0x01⟩], some 0, 0x01, [], rfl, by decide, rfl⟩

/-- The WAIT clauses: with the engine Idle, landing inside a command, and waiting for its end. -/
theorem witness_ReadsHaveNoSideEffects_wait : ∃ s u w : State,
    (s.host = ⟨none, .wait⟩ :: [] ∧ s.engine.seq = .idle ∧ s.engine.txByte = none) ∧
    (u.host = ⟨some 0, .wait⟩ :: [] ∧ u.engine.seq ≠ .idle) ∧ (w.host = ⟨none, .wait⟩ :: [] ∧ w.engine.seq ≠ .idle) :=
  ⟨withHost start [⟨none, .wait⟩], withHost busyState [⟨some 0, .wait⟩], withHost busyState [⟨none, .wait⟩],
    ⟨rfl, rfl, rfl⟩, ⟨rfl, by decide⟩, rfl, by decide⟩

/-- Of each result code, a state that holds it. -/
theorem witness_StatusBitsReadWhereTheTableSays : ∀ c : ResultCode, ∃ s : State, s.regs.result = c :=
  fun c => ⟨withRegs start ({ · with result := c }), rfl⟩

/-- The two clauses for CMD. -/
theorem witness_StatusBitsReadWhereTheTableSays_cmd : start.engine.seq = .idle ∧ busyState.engine.seq ≠ .idle := by
  decide

theorem witness_ReservedSpaceIsInert : start.engine.seq = .idle ∧ busyState.engine.seq ≠ .idle ∧ 0x25#8 ≤ 0x25#8 ∧
    0x25#8 ≤ 0xFF#8 ∧ (0x00#8 &&& 0x03 = 0xFC#8 &&& 0x03) ∧ (0x0F#8 &&& 0x0F = 0xFF#8 &&& 0x0F) ∧
    (0x12#8 &&& 0x3F = 0xD2#8 &&& 0x3F) := by decide

theorem witness_WideAccessIsRefused_idle : ∃ (s : State) (arrive : Option Nat) (w : WideWidth) (a : Byte)
    (rest : List Pending), s.host = ⟨arrive, .wide w a⟩ :: rest ∧ s.engine.seq = .idle ∧ s.engine.txByte = none :=
  ⟨withHost start [⟨none, .wide .bits16 0x0A⟩], none, .bits16, 0x0A, [], rfl, rfl, rfl⟩
theorem witness_WideAccessIsRefused_busy : ∃ (s : State) (arrive : Option Nat) (w : WideWidth) (a : Byte)
    (rest : List Pending), s.host = ⟨arrive, .wide w a⟩ :: rest ∧ s.engine.seq ≠ .idle ∧ arrive = some 0 :=
  ⟨withHost busyState [⟨some 0, .wide .bits32 0x0A⟩], some 0, .bits32, 0x0A, [], rfl, by decide, rfl⟩

theorem witness_NoStepFaultsAndOnlyWideAccessIsRefused : ∃ s r, step s = .refused r :=
  ⟨withHost start [⟨none, .wide .bits16 0x0A⟩], .wideAccess, rfl⟩

theorem witness_SoftResetRestoresPowerOn : (0x02#8).getLsbD 1 = true ∧ busyState.engine.pos = 0 ∧
    0 < midSlot.engine.pos ∧ 0 < midGuarded.engine.pos ∧ midGuarded.params.realisation = .bitBang ∧
    midGuarded.engine.savedI = some true := by decide

theorem witness_InterruptIsEnableAndDone : start.engine.seq = .idle ∧ (0x02#8).getLsbD 1 = true ∧
    (0xFE#8).getLsbD 0 = false := by decide

/-- Of every statement whose one hypothesis is that the engine is Idle. -/
theorem witness_idle : start.engine.seq = .idle ∧ State.reset.engine.seq = .idle := ⟨rfl, rfl⟩

theorem witness_ResetSamplesAreTheNextTwoDraws : ∃ (s : State) (p q : Bool) (rest : List (Option Bool)),
    s.engine.seq = .idle ∧ s.bus.script = some p :: some q :: rest :=
  ⟨withDraws [false, true], false, true, [], rfl, rfl⟩

theorem witness_OwbitExchangesOneBit : start.engine.seq = .idle ∧ start.regs.data.getLsbD 0 = false := by decide

theorem witness_AnswersArriveLsbFirst : ∃ (s : State) (bs : List Bool) (rest : List (Option Bool)),
    s.engine.seq = .idle ∧ s.regs.data = 0xFF ∧ bs.length = 8 ∧ s.bus.script = bs.map some ++ rest :=
  ⟨withRegs (withDraws [true, false, true, false, false, true, false, true]) ({ · with data := 0xFF }),
    [true, false, true, false, false, true, false, true], [], rfl, rfl, rfl, rfl⟩

theorem witness_SrchnextCompletesWithItsCodes_exhausted : ∃ s : State, s.engine.seq = .idle ∧ s.regs.cursor.sdone = true :=
  ⟨withRegs start (fun r => { r with cursor := { sld := 0, sdone := true, spath := addrA0 } }), rfl, rfl⟩

theorem witness_SrchnextFromDoneSendsNothing : ∃ s : State, s.engine.seq = .idle ∧ s.regs.cursor.sdone = true :=
  witness_SrchnextCompletesWithItsCodes_exhausted

/-- A pass that fails, in each of its three ways: V-S14, V-S15, V-S16 with the (1,1) pair at bit 1, and V-S4 with it at a
later bit. -/
theorem witness_FailedPassRestartsCleanly :
    (∃ t, exec .srchnext (onBus []) = .next t ∧ (t.regs.result == .noPresence) = true) ∧
    (∃ t, exec .srchnext (withDraws [false, false]) = .next t ∧ (t.regs.result == .lineStuck) = true) ∧
    (∃ t, exec .srchnext (withDraws [false, true, true, true, true, true, true, true]) = .next t ∧
      (t.regs.result == .searchDataError) = true) ∧
    (∃ t, exec .srchnext { onBus [devA0, devA2] with
        bus := { (onBus [devA0, devA2]).bus with script := List.replicate 8 none ++ [some true, some true] } } = .next t ∧
      (t.regs.result == .searchDataError && t.line.slots == 14) = true) :=
  ⟨exists_of_nextIs (by decide +kernel), exists_of_nextIs (by decide +kernel), exists_of_nextIs (by decide +kernel),
    exists_of_nextIs (by decide +kernel)⟩

/-- A completed pass with each of its codes: V-S1 and V-S12. -/
theorem witness_CompletedPassFollowsTheBranchRule :
    (∃ t, exec .srchnext (onBus [devA0, devA2]) = .next t ∧
      (t.regs.result == .ok && t.regs.cursor.sld == 4) = true) ∧
    (∃ t, exec .srchnext (onBus [{ devA0 with addr := addrX }]) = .next t ∧
      (t.regs.result == .crcError && t.regs.rom == addrX) = true) :=
  ⟨exists_of_nextIs (by decide +kernel), exists_of_nextIs (by decide +kernel)⟩

theorem witness_SearchEnumeratesEveryDeviceInKOrder : ∃ (s : State) (ds : List Device), s.engine.seq = .idle ∧
    s.onReferenceBus ds ∧ ds ≠ [] ∧ s.regs.cursor.sld = 0 ∧ s.regs.cursor.sdone = false :=
  ⟨onBus [devA0, devA1, devA2], [devA0, devA1, devA2], rfl, ⟨rfl, rfl, rfl, by decide +kernel⟩, by decide, rfl, rfl⟩

theorem witness_SearchFindsALoneDevice : ∃ (s : State) (d : Device), s.engine.seq = .idle ∧ s.onReferenceBus [d] ∧
    s.regs.cursor.sld = 0 ∧ s.regs.cursor.sdone = false :=
  ⟨onBus [devA0], devA0, rfl, ⟨rfl, rfl, rfl, by decide +kernel⟩, rfl, rfl⟩

/-- ENUM with OK, below its cap and at its cap (V-S5, V-S9's CAP). -/
theorem witness_EnumKeepsListedFamiliesAndCountsThem : start.params.wf = true ∧
    (∃ t, exec .enum (withRegs (onBus [devA0, devA2]) (fun r => { r with famEn := 1, fam := r.fam.set 0 0x28 })) = .next t ∧
      (t.regs.result == .ok && t.regs.cap == false && t.regs.dirCnt == 1) = true) ∧
    (∃ t, exec .enum { withRegs (onBus [devA0, devA1]) (fun r => { r with famEn := 1, fam := r.fam.set 0 0x28 }) with
        params := { Params.defaults with maxDevices := 1 } } = .next t ∧
      (t.regs.result == .ok && t.regs.cap == true) = true) :=
  ⟨by decide, exists_of_nextIs (by decide +kernel), exists_of_nextIs (by decide +kernel)⟩

/-- ENUM that fails: on an empty bus, on a stuck line, on a (1,1) pair, and at its pass limit (V-S10); with PRES as R56
says of the last reset slot. -/
theorem witness_FailedEnumKeepsNothing : start.params.wf = true ∧
    Params.wf { Params.defaults with enumPassLimit := 1 } = true ∧
    (∃ t, exec .enum (onBus []) = .next t ∧ (t.regs.result == .noPresence && !t.regs.pres) = true) ∧
    (∃ t, exec .enum (withDraws [false, false]) = .next t ∧ (t.regs.result == .lineStuck && !t.regs.pres) = true) ∧
    (∃ t, exec .enum (withDraws [false, true, true, true, true, true, true, true]) = .next t ∧
      (t.regs.result == .searchDataError && t.regs.pres) = true) ∧
    (∃ t, exec .enum { onBus [devA0, devA2] with params := { Params.defaults with enumPassLimit := 1 } } = .next t ∧
      (t.regs.result == .passLimit && t.regs.pres) = true) :=
  ⟨by decide, by decide, exists_of_nextIs (by decide +kernel), exists_of_nextIs (by decide +kernel),
    exists_of_nextIs (by decide +kernel), exists_of_nextIs (by decide +kernel)⟩

/-- DIRLD at the two sides of DIRCNT. -/
theorem witness_DirldLoadsAnEntryInRange : ∃ s u : State, s.engine.seq = .idle ∧ u.engine.seq = .idle ∧
    s.regs.dirCnt.toNat ≤ s.regs.dirIdx.toNat ∧ s.regs.dirIdx = 2 ∧ u.regs.dirIdx.toNat < u.regs.dirCnt.toNat ∧
    u.regs.dirIdx = 1 ∧ u.regs.dir[u.regs.dirIdx.toNat]? = some addrA1 :=
  ⟨withRegs start (fun r => { r with dir := [addrA0, addrA1], dirCnt := 2, dirIdx := 2 }),
    withRegs start (fun r => { r with dir := [addrA0, addrA1], dirCnt := 2, dirIdx := 1 }),
    rfl, rfl, by decide, rfl, by decide, rfl, rfl⟩

theorem witness_DecodeRepeatsRdtempsVerdict : ∃ t, exec .rdtemp (withRegs (onBus [devA0]) ({ · with rom := addrA0 })) = .next t ∧
    (t.regs.pres && nextIs (exec .decode t) (fun u => u.regs.result == .ok)) = true :=
  exists_of_nextIs (by decide +kernel)

theorem witness_RdtempReadsTheAddressedDevice : ∃ (s : State) (ds : List Device) (d : Device), s.engine.seq = .idle ∧
    s.onReferenceBus ds ∧ d ∈ ds ∧ d.addr = s.regs.rom :=
  ⟨withRegs (onBus [devA0, devA1, devA2]) ({ · with rom := addrA1 }), [devA0, devA1, devA2], devA1, rfl,
    ⟨rfl, rfl, rfl, by decide +kernel⟩, by simp, rfl⟩

theorem witness_AbsentTargetIsACrcErrorOfRdtempOnly : ∃ (s : State) (ds : List Device), s.engine.seq = .idle ∧
    s.onReferenceBus ds ∧ ds ≠ [] ∧ ∀ d ∈ ds, d.addr ≠ s.regs.rom :=
  ⟨withRegs (onBus [devA0]) ({ · with rom := addrA1 }), [devA0], rfl, ⟨rfl, rfl, rfl, by decide +kernel⟩, by decide,
    by decide +kernel⟩

theorem witness_CrcbyteFoldsInData : start.engine.seq = .idle ∧ start.regs.crc = start.regs.data := ⟨rfl, rfl⟩

/-- DECODE with OK (V-D5's all-zero scratchpad). -/
theorem witness_DecodeChecksThenStoresTheTemperature : ∃ t, exec .decode (withRegs start ({ · with spad := 0 })) = .next t ∧
    (t.regs.result == .ok) = true :=
  exists_of_nextIs (by decide +kernel)

theorem witness_CrcDetectsEverySingleBitFlip : crc8 (bytesOf spad25at11 9) = 0x00 ∧ 0 < 72 ∧ 71 < 72 := by decide +kernel

/-- Of each line of the table of accepted readings (R265), its last accepted raw and the first rejected one. -/
theorem witness_AcceptedRawsPerResolution : resolutionField 0x1F = 0b00#2 ∧ resolutionField 0x3F = 0b01#2 ∧
    resolutionField 0x5F = 0b10#2 ∧ resolutionField 0x7F = 0b11#2 ∧
    inRange (decodeTenths 0x07D7 0x1F) = true ∧ inRange (decodeTenths 0x07D8 0x1F) = false ∧
    inRange (decodeTenths 0xFC8D 0x3F) = true ∧ inRange (decodeTenths 0xFC8C 0x3F) = false ∧
    inRange (decodeTenths 0xFC8F 0x5F) = true ∧ inRange (decodeTenths 0xFC8E 0x5F) = false := by decide +kernel

theorem witness_WireBytesAreExchangedOnTheLine : Instr.format .searchRom = .wire8 ∧ Instr.format .matchRom = .wire8 ∧
    Instr.format .convertT = .wire8 ∧ Instr.format .readScratchpad = .wire8 := ⟨rfl, rfl, rfl, rfl⟩

theorem witness_CommandsWriteOnlyTheirRegisters : Instr.format .enum = .cmd8 ∧ start.engine.seq = .idle := ⟨rfl, rfl⟩

theorem witness_CommandWhileBusyOnlySetsOvr : Instr.format .owrst = .cmd8 ∧ busyState.engine.seq ≠ .idle :=
  ⟨rfl, by decide⟩

/-- A command in progress that stays in progress, and one whose next step ends it. -/
theorem witness_ResultsStayInvisibleUntilTheCommit : busyState.busy = true ∧ (start.issue 0x30).busy = true ∧
    (∃ t, step busyState = .next t ∧ t.busy = true) ∧ ∃ t, step (start.issue 0x30) = .next t ∧ t.busy = false :=
  ⟨rfl, rfl, ⟨_, rfl, rfl⟩, ⟨_, rfl, rfl⟩⟩

/-- The acceptance clause, at STATUS and at CMD. -/
theorem witness_ResultsStayInvisibleUntilTheCommit_acceptance : start.engine.seq = .idle ∧
    decode .cmd8 0x22 = .ok .rdtemp ∧ (start.issue 0x22).memRead 0x01 = 0x01 ∧ (start.issue 0x22).memRead 0x00 = 0x00 :=
  ⟨rfl, rfl, by decide, by decide⟩

/-- Accesses of each kind that may land in a command and leave it in progress. -/
def landing : List Pending :=
  [⟨some 1, .rd 0x0A⟩, ⟨some 0, .wr 0x04 0x55⟩, ⟨some 2, .wr 0x03 0x01⟩, ⟨some 0, .wait⟩]

theorem witness_EventByEventRunEndsAsExec : Instr.format .owrst = .cmd8 ∧ start.engine.seq = .idle ∧
    start.accessDue = false ∧ (withHost start landing).engine.seq = .idle ∧
    (∀ p ∈ (withHost start landing).host, leavesCommand p.op = true) ∧
    (withHost busyState landing).busy = true ∧ (withHost busyState landing).host = ⟨some 1, .rd 0x0A⟩ :: landing.tail ∧
    busyState.busy = true ∧ busyState.accessDue = false := ⟨rfl, rfl, rfl, rfl, by decide, rfl, rfl, rfl, rfl⟩

/-- R304, R340: OWRST with these accesses landing in it ends with OWRST's result, OVR and IE set. -/
theorem test_command_ends_with_accesses_in_it : nextIs (Sys2Proof.core.run 9 ((withHost (onBus [devA0]) landing).issue 0x01))
    (fun t => t.status == 0x16 && t.regs.data == 0x00 && t.regs.ie && t.host == [⟨none, .wait⟩]) = true := by
  decide +kernel

/-- A sound state between slots. -/
theorem inv_start : start.Inv where
  params_wf := by decide
  regs := by constructor <;> simp [start, State.reset, Regs.reset, fcntSum]
  busy_legal := fun opc k h => absurd h (by simp [start, State.reset, Engine.reset])
  busy_done := fun h => absurd h (by simp [start, State.busy, State.reset, Engine.reset])
  idle_rest := fun _ => ⟨rfl, rfl, rfl⟩
  between := fun _ => ⟨rfl, rfl, rfl⟩
  inside := fun h => absurd h (by decide)
  guarded := fun h => absurd h (by decide)
  unguarded := fun _ => rfl

/-- A sound state inside a reset slot: the line has been released, no sample is taken yet. -/
theorem inv_midSlot : midSlot.Inv where
  params_wf := by decide
  regs := by
    have h : midSlot.regs = { Regs.reset with cmd := 0x01 } := rfl
    have hp : midSlot.params = Params.defaults := rfl
    rw [h, hp]
    constructor <;> simp [Regs.reset, fcntSum]
  busy_legal := fun opc k h => by cases h; exact ⟨rfl, .owrst, rfl⟩
  busy_done := fun _ => rfl
  idle_rest := fun h => absurd h (by decide)
  between := fun h => absurd h (by decide)
  inside := fun _ => ⟨.reset, rfl, by decide, rfl, rfl⟩
  guarded := fun _ h => absurd h (by decide)
  unguarded := fun _ => rfl

/-- The invariant says nothing of the host's accesses. -/
theorem inv_midSlot_landing : (withHost midSlot landing).Inv :=
  have h := inv_midSlot
  ⟨h.params_wf, h.regs, h.busy_legal, h.busy_done, h.idle_rest, h.between, h.inside, h.guarded, h.unguarded⟩

theorem witness_EveryCommandInProgressEnds : midSlot.Inv ∧ midSlot.busy = true ∧ midSlot.accessDue = false ∧
    (∀ p ∈ midSlot.host, leavesCommand p.op = true) ∧ (withHost midSlot landing).Inv ∧
    (withHost midSlot landing).busy = true ∧ (∀ p ∈ (withHost midSlot landing).host, leavesCommand p.op = true) ∧
    start.Inv :=
  ⟨inv_midSlot, rfl, rfl, by decide, inv_midSlot_landing, rfl, by decide, inv_start⟩

theorem witness_EveryStepKeepsTheInvariant : (start.Inv ∧ ∃ t, step start = .next t) ∧
    midSlot.Inv ∧ ∃ t, step midSlot = .next t :=
  ⟨⟨inv_start, _, rfl⟩, inv_midSlot, _, rfl⟩

end Sys2Proof.Tests
end

/-! Host accesses to reserved space and to CTRL and STATUS, and the interrupt output (10_state.md R49, R51). -/

namespace Sys2Proof.Machine

/-! ## Reserved addresses -/

/-- Every implemented register stands below the reserved addresses (R30). -/
theorem regAddr_lt_reserved (r : Reg) : regAddr r < 0x25 := by
  cases r with
  | fam i => revert i; decide
  | rom k => revert k; decide
  | spad k => revert k; decide
  | fcnt i => revert i; decide
  | _ => decide

theorem regAt_reserved {a : Byte} (h : 0x25 ≤ a) : regAt a = none := by
  cases hr : regAt a with
  | none => rfl
  | some r =>
    have hlt : a < 0x25 := regAddr_of_regAt hr ▸ regAddr_lt_reserved r
    exact absurd hlt (BitVec.not_lt.mpr h)

theorem memRead_none (s : State) {a : Byte} (ha : regAt a = none) : s.memRead a = 0x00 := by
  simp only [State.memRead, ha]

theorem memWrite_none_idle {s : State} {a : Byte} (v : Byte) (hi : s.engine.seq = .idle) (ha : regAt a = none) :
    s.memWrite a v = s := by
  simp [State.memWrite, ha, hi]

/-! ## Reserved bits as they read -/

/-- A flag reads 0 under a mask that leaves its position out. -/
theorem flagBit_and_eq_zero (b : Bool) {n : Nat} {m : Byte} (h : m.getLsbD n = false) : flagBit b n &&& m = 0#8 := by
  cases b with
  | false => exact BitVec.zero_and
  | true =>
    calc 1#8 <<< n &&& m
      _ = BitVec.twoPow 8 n &&& m := by rw [BitVec.twoPow_eq]
      _ = 0#8 := by rw [BitVec.twoPow_and, h]; rfl

/-- STATUS bits 7:6 read 0 (R33). -/
theorem status_reserved_bits (s : State) : s.status &&& 0xC0 = 0#8 := by
  simp only [State.status, BitVec.and_or_distrib_right, BitVec.or_eq_zero_iff]
  refine ⟨⟨⟨⟨⟨?busy, ?done⟩, ?pres⟩, ?sdone⟩, ?ovr⟩, ?cap⟩ <;> exact flagBit_and_eq_zero _ rfl

/-- CTRL reads 0 in SRST and in bits 7:2 (R35). -/
theorem ctrl_reserved_bits (r : Regs) : r.ctrl &&& 0xFE = 0#8 := flagBit_and_eq_zero r.ie rfl

/-- A four-bit field reads 0 in the upper half of its byte (R34, R41). -/
theorem setWidth_nibble_reserved_bits (x : BitVec 4) : x.setWidth 8 &&& 0xF0#8 = 0#8 := by
  revert x; decide

/-! ## Writes that differ in reserved bits only -/

/-- Bytes that agree under a mask agree in each bit of the mask. -/
theorem getLsbD_eq_of_and_eq {v w m : Byte} {n : Nat} (h : v &&& m = w &&& m) (hm : m.getLsbD n = true) :
    v.getLsbD n = w.getLsbD n := by
  simpa [hm] using congrArg (·.getLsbD n) h

/-- A write of CTRL is accepted at any time (20_memory.md R82). -/
theorem memWrite_ctrl (s : State) (v : Byte) : s.memWrite 0x03 v = s.writeCtrl v :=
  if_pos (regAt_regAddr .ctrl)

/-- CTRL takes bits 0 and 1 of what is written and no other (R35). -/
theorem writeCtrl_congr (s : State) {v w : Byte} (h0 : v.getLsbD 0 = w.getLsbD 0) (h1 : v.getLsbD 1 = w.getLsbD 1) :
    s.writeCtrl v = s.writeCtrl w := by
  simp only [State.writeCtrl, h0, h1]

/-- Two bytes with one effect on an Idle engine's registers have one effect, while a command runs too. -/
theorem memWrite_congr (s : State) {a v w : Byte} {r : Reg} (ha : regAt a = some r) (h1 : r ≠ .ctrl) (h2 : r ≠ .cmd)
    (h : s.regs.writeIdle r v = s.regs.writeIdle r w) : s.memWrite a v = s.memWrite a w := by
  by_cases hi : s.engine.seq = .idle
  · rw [memWrite_idle v hi ha h1 h2, memWrite_idle w hi ha h1 h2, h]
  · have hc : regAt a ≠ some .ctrl := fun e => h1 (Option.some.inj (ha.symm.trans e))
    rw [memWrite_busy v hi hc, memWrite_busy w hi hc]

/-- STATUS takes bits 1 and 4 of what is written and no other (R33). -/
theorem writeIdle_status_congr (g : Regs) {v w : Byte} (h1 : v.getLsbD 1 = w.getLsbD 1)
    (h4 : v.getLsbD 4 = w.getLsbD 4) : g.writeIdle .status v = g.writeIdle .status w := by
  simp only [Regs.writeIdle, h1, h4]

/-- FAMEN takes the low half of what is written (R41). -/
theorem writeIdle_famEn_congr (g : Regs) {v w : Byte} (h : v &&& 0x0F = w &&& 0x0F) :
    g.writeIdle .famEn v = g.writeIdle .famEn w := by
  have hx : v.extractLsb' 0 4 = w.extractLsb' 0 4 := by
    apply BitVec.eq_of_getLsbD_eq
    intro n hn
    have hm : ∀ n < 4, (0x0F#8).getLsbD n = true := by decide
    simpa [hn] using getLsbD_eq_of_and_eq h (hm n hn)
  simp only [Regs.writeIdle, hx]

/-- Settles O11: a reserved address names no register, and each write takes only the bits its register implements. -/
theorem reservedSpaceIsInert : Obligations.ReservedSpaceIsInert := by
  intro s a v w
  refine ⟨fun ha => ?reservedAddress, ⟨?status, ?result, ?ctrl, ?famEn⟩, fun h => ?writeCtrl, fun h => ?writeFamEn,
    fun h => ?writeStatus⟩
  case reservedAddress =>
    have hn := regAt_reserved ha
    exact ⟨memRead_none s hn, fun hi => memWrite_none_idle v hi hn, fun hb => memWrite_busy v hb (by simp [hn])⟩
  case status => exact status_reserved_bits s
  case result => exact setWidth_nibble_reserved_bits s.regs.result.bits
  case ctrl => exact ctrl_reserved_bits s.regs
  case famEn => exact setWidth_nibble_reserved_bits s.regs.famEn
  case writeCtrl =>
    rw [memWrite_ctrl, memWrite_ctrl]
    exact writeCtrl_congr s (getLsbD_eq_of_and_eq h rfl) (getLsbD_eq_of_and_eq h rfl)
  case writeFamEn =>
    exact memWrite_congr s (regAt_regAddr .famEn) (by simp) (by simp) (writeIdle_famEn_congr s.regs h)
  case writeStatus =>
    exact memWrite_congr s (regAt_regAddr .status) (by simp) (by simp)
      (writeIdle_status_congr s.regs (getLsbD_eq_of_and_eq h rfl) (getLsbD_eq_of_and_eq h rfl))

/-! ## The interrupt output -/

/-- The soft reset restores the registers of power-on (70_reset_and_hazards.md R331). -/
@[simp] theorem State.softReset_regs (s : State) : s.softReset.regs = Regs.reset := rfl

theorem irq_of_done_false {s : State} (h : s.regs.done = false) : s.irq = false := by
  simp [State.irq, h]

theorem irq_of_ie_false {s : State} (h : s.regs.ie = false) : s.irq = false := by
  simp [State.irq, h]

/-- A CTRL write that clears IE leaves it 0, the soft reset of the same write included. -/
theorem writeCtrl_ie_false (s : State) {v : Byte} (h : v.getLsbD 0 = false) : (s.writeCtrl v).regs.ie = false := by
  unfold State.writeCtrl
  split
  · rw [State.softReset_regs]; rfl
  · exact h

/-- A write of 1 to STATUS bit 1 clears DONE (R33). -/
theorem writeIdle_status_done (g : Regs) {v : Byte} (h : v.getLsbD 1 = true) :
    (g.writeIdle .status v).done = false := by
  simp [Regs.writeIdle, h]

/-- Settles O17: the first two events clear DONE, the third clears IE. -/
theorem interruptIsEnableAndDone : Obligations.InterruptIsEnableAndDone := by
  refine ⟨rfl, fun s => ⟨rfl, fun v hi hv => ?clearDone, fun v => ?acceptance, fun v hv => ?clearIe⟩⟩
  case clearDone =>
    have hw : s.memWrite 0x01 v = { s with regs := s.regs.writeIdle .status v } :=
      memWrite_idle v hi (regAt_regAddr .status) (by simp) (by simp)
    rw [hw]
    exact irq_of_done_false (writeIdle_status_done s.regs hv)
  case acceptance => exact irq_of_done_false rfl
  case clearIe =>
    rw [memWrite_ctrl]
    exact irq_of_ie_false (writeCtrl_ie_false s hv)

end Sys2Proof.Machine

/-! Host accesses at the step, the write table and the refusal of wide accesses (20_memory.md R82, R90). -/

namespace Sys2Proof.Machine

/-! ## The step that performs an access -/

/-- With the engine Idle and no wire byte waiting, a step performs the next access. -/
theorem step_access_idle {s : State} {arrive : Option Nat} {op : HostOp} {rest : List Pending}
    (hi : s.engine.seq = .idle) (ht : s.engine.txByte = none) (hh : s.host = ⟨arrive, op⟩ :: rest) :
    step s = ({ s with host := rest } : State).perform op := by
  simp only [step, State.idleStep, hi, ht, hh]

/-- While a command runs, a step performs the access that lands now. -/
theorem step_access_landing {s : State} {op : HostOp} {rest : List Pending} (hb : s.engine.seq ≠ .idle)
    (hh : s.host = ⟨some 0, op⟩ :: rest) : step s = ({ s with host := rest } : State).perform op := by
  cases hq : s.engine.seq with
  | idle => exact absurd hq hb
  | busy opc k => simp only [step, State.busyStep, hq, hh]

/-- A write is `memWrite`, but for a write of CMD to an Idle engine. -/
theorem perform_wr {s : State} {a : Byte} (v : Byte) (h : s.engine.seq ≠ .idle ∨ a ≠ 0x00) :
    s.perform (.wr a v) = .next (s.memWrite a v) := by
  simp only [State.perform]
  split
  · rename_i hi ha
    obtain hb | hne := h
    · exact absurd hi hb
    · exact absurd (regAddr_of_regAt ha).symm hne
  · rfl

/-- Settles O13: either way the step performs the access, and a wide one is refused. -/
theorem wideAccessIsRefused : Obligations.WideAccessIsRefused := by
  rintro s arrive w a rest hh (⟨hi, ht⟩ | ⟨hb, rfl⟩)
  · rw [step_access_idle hi ht hh]; rfl
  · rw [step_access_landing hb hh]; rfl

/-! ## Which addresses store and which ignore a byte -/

/-- A host-visible register that a write while Idle leaves alone (R82). -/
def ignoresWrite (r : Reg) : Bool :=
  match r with
  | .result | .sld | .dirCnt | .tempL | .tempH | .fcnt _ => true
  | .cmd | .status | .ctrl | .data | .crc | .dirIdx | .famEn | .fam _ | .rom _ | .spad _ => false

theorem regAt_storesByte {a : Byte} (h : a = 0x04 ∨ a = 0x05 ∨ a = 0x07 ∨ (0x0C ≤ a ∧ a ≤ 0x20)) :
    ∃ r, regAt a = some r ∧ storesByte r = true := by
  have key : ∀ a : Byte, a = 0x04 ∨ a = 0x05 ∨ a = 0x07 ∨ (0x0C ≤ a ∧ a ≤ 0x20) →
      (regAt a).any storesByte = true := by decide
  exact (Option.any_eq_true _ _).mp (key a h)

theorem regAt_ignoresWrite {a : Byte} {r : Reg}
    (h : a = 0x02 ∨ a = 0x06 ∨ a = 0x08 ∨ a = 0x0A ∨ a = 0x0B ∨ 0x21 ≤ a) (ha : regAt a = some r) :
    ignoresWrite r = true := by
  have key : ∀ a : Byte, a = 0x02 ∨ a = 0x06 ∨ a = 0x08 ∨ a = 0x0A ∨ a = 0x0B ∨ 0x21 ≤ a →
      (regAt a).all ignoresWrite = true := by decide
  simpa [ha] using key a h

/-! ## The write table while Idle -/

theorem memRead_some (s : State) {a : Byte} {r : Reg} (ha : regAt a = some r) : s.memRead a = s.readReg r := by
  simp only [State.memRead, ha]

/-- A write of CMD while Idle issues its command. -/
theorem memWrite_cmd_idle {s : State} {a : Byte} (v : Byte) (hi : s.engine.seq = .idle) (ha : regAt a = some .cmd) :
    s.memWrite a v = s.issue v := by
  simp [State.memWrite, ha, hi]

/-- A write while Idle to any register but CTRL, CMD and STATUS changes what no other address reads. -/
theorem memRead_memWrite_idle_ne {s : State} {a b : Byte} {r : Reg} (v : Byte) (hi : s.engine.seq = .idle)
    (ha : regAt a = some r) (h1 : r ≠ .ctrl) (h2 : r ≠ .cmd) (h3 : r ≠ .status) (hab : b ≠ a) :
    (s.memWrite a v).memRead b = s.memRead b := by
  rw [memWrite_idle v hi ha h1 h2]
  cases hb : regAt b with
  | none => rw [memRead_none _ hb, memRead_none _ hb]
  | some q =>
    have hqr : q ≠ r := by
      rintro rfl
      exact hab ((regAddr_of_regAt hb).symm.trans (regAddr_of_regAt ha))
    rw [memRead_some _ hb, memRead_some _ hb, readReg_writeIdle_ne s r q v h3 hqr]

theorem storesByte_ne {r : Reg} (hr : storesByte r = true) : r ≠ .ctrl ∧ r ≠ .cmd ∧ r ≠ .status := by
  refine ⟨?_, ?_, ?_⟩ <;> rintro rfl <;> exact absurd hr Bool.false_ne_true

/-- A stored byte changes no register but the writable ones. -/
theorem writeIdle_storesByte_frame (g : Regs) {r : Reg} (v : Byte) (hr : storesByte r = true) :
    ∃ data crc dirIdx fam rom spad, g.writeIdle r v =
      { g with data := data, crc := crc, dirIdx := dirIdx, fam := fam, rom := rom, spad := spad } := by
  refine ⟨(g.writeIdle r v).data, (g.writeIdle r v).crc, (g.writeIdle r v).dirIdx, (g.writeIdle r v).fam,
    (g.writeIdle r v).rom, (g.writeIdle r v).spad, ?_⟩
  cases r with
  | data | crc | dirIdx | fam i | rom k | spad k => rfl
  | _ => exact absurd hr Bool.false_ne_true

theorem writeIdle_ignoresWrite (g : Regs) {r : Reg} (v : Byte) (hr : ignoresWrite r = true) : g.writeIdle r v = g := by
  cases r with
  | result | sld | dirCnt | tempL | tempH | fcnt i => rfl
  | _ => exact absurd hr Bool.false_ne_true

theorem ignoresWrite_ne {r : Reg} (hr : ignoresWrite r = true) : r ≠ .ctrl ∧ r ≠ .cmd := by
  refine ⟨?_, ?_⟩ <;> rintro rfl <;> exact absurd hr Bool.false_ne_true

/-- A write while Idle to a read-only register is ignored. -/
theorem memWrite_ignoresWrite {s : State} {a : Byte} {r : Reg} (v : Byte) (hi : s.engine.seq = .idle)
    (ha : regAt a = some r) (hr : ignoresWrite r = true) : s.memWrite a v = s := by
  obtain ⟨h1, h2⟩ := ignoresWrite_ne hr
  rw [memWrite_idle v hi ha h1 h2, writeIdle_ignoresWrite s.regs v hr]

/-- Settles O8: each address names its register, and the register's kind (CTRL, CMD, W1C, stored byte, FAMEN, read-only
or none) gives its row of the table. -/
theorem hostWritesFollowTheTable : Obligations.HostWritesFollowTheTable := by
  intro s a v
  refine ⟨fun arrive rest hh h => ?step, fun ha => ?ctrl, fun ha hb => ?busy, fun hi => ⟨fun ha => ?cmd,
    fun ha => ?status, fun ha => ?store, fun ha => ?famEn, fun ha => ?ignored⟩⟩
  case step =>
    obtain ⟨hi, ht, ha⟩ | ⟨hb, rfl⟩ := h
    · rw [step_access_idle hi ht hh, perform_wr v (.inr ha)]
    · rw [step_access_landing hb hh, perform_wr (s := { s with host := rest }) v (.inl hb)]
  case ctrl =>
    subst ha
    exact memWrite_ctrl s v
  case busy => exact memWrite_busy v hb fun hc => ha (regAddr_of_regAt hc).symm
  case cmd =>
    subst ha
    exact memWrite_cmd_idle v hi (regAt_regAddr .cmd)
  case status =>
    subst ha
    exact memWrite_idle v hi (regAt_regAddr .status) (by simp) (by simp)
  case store =>
    obtain ⟨r, hra, hr⟩ := regAt_storesByte ha
    obtain ⟨h1, h2, h3⟩ := storesByte_ne hr
    have hw := memWrite_idle v hi hra h1 h2
    refine ⟨?_, fun b hb => memRead_memWrite_idle_ne v hi hra h1 h2 h3 hb, ?_⟩
    · rw [hw, memRead_some _ hra, readReg_writeIdle_same s r v hr]
    · obtain ⟨data, crc, dirIdx, fam, rom, spad, hg⟩ := writeIdle_storesByte_frame s.regs v hr
      exact ⟨data, crc, dirIdx, fam, rom, spad, by rw [hw, hg]⟩
  case famEn =>
    subst ha
    have hra : regAt 0x09 = some .famEn := regAt_regAddr .famEn
    have hw := memWrite_idle v hi hra (by simp) (by simp)
    refine ⟨?_, fun b hb => memRead_memWrite_idle_ne v hi hra (by simp) (by simp) (by simp) hb, hw⟩
    rw [hw, memRead_some _ hra]
    rfl
  case ignored =>
    cases hra : regAt a with
    | none => exact memWrite_none_idle v hi hra
    | some r => exact memWrite_ignoresWrite v hi hra (regAt_ignoresWrite ha hra)

end Sys2Proof.Machine

/-! A whole command seen from outside, and OWRST (41_transport.md R143, R149). -/

namespace Sys2Proof.Machine

/-! ## A command from an Idle engine -/

/-- Slots leave a waiting wire byte waiting. -/
theorem OnlyLine.txByte {s t : State} (h : OnlyLine s t) : t.engine.txByte = s.engine.txByte := by
  rcases h.rest with e | e <;> rw [e]
  rfl

/-- From an Idle engine a host command answers a next state. Its registers are those at acceptance with one commit of
what the procedure staged; its line and bus environment are those the procedure left. -/
theorem exec_cmd8_idle {i : Instr} (hi : i.format = .cmd8) {s u : State} (h : s.engine.seq = .idle) {st : Staged}
    (hrun : (procOf i s.params (s.regs.accept (encode i))).run (s.accept (encode i)) = (st, u)) :
    ∃ t, exec i s = .next t ∧ AfterCommand s t ∧ t.regs = (s.regs.accept (encode i)).commit st ∧
      t.line = u.line ∧ t.bus = u.bus := by
  have hq : OnlyLine (s.accept (encode i)) u := by
    simpa only [hrun] using Proc.run_onlyLine (procOf i s.params (s.regs.accept (encode i))) (s.accept (encode i))
  refine ⟨u.finish st, ?next, ?frame, ?regs, rfl, rfl⟩
  case next => rw [exec_cmd8 i hi, runCommand_idle i _ h, hrun]
  case frame => exact ⟨hq.params, hq.hostI, hq.host, hq.reads, rfl, hq.txByte⟩
  case regs => rw [State.finish_regs, hq.regs, State.accept_regs]

/-! ## OWRST -/

/-- OWRST makes one reset slot, and stages the code and the PRES bit of its two samples (R143, R149). -/
theorem procOwrst_run (c : Params) (r : Regs) (s : State) :
    (procOwrst c r).run s =
      ({ code := resetCode s.resetSlot.1.1 s.resetSlot.1.2, pres := some (resetPres s.resetSlot.1.1 s.resetSlot.1.2) },
        s.resetSlot.2) := rfl

/-- Settles O18: the samples are those of the reset slot that follows acceptance; the commit writes RESULT, DONE and
PRES alone. -/
theorem owrstReportsItsResetSlot : Obligations.OwrstReportsItsResetSlot := by
  intro s hs
  obtain ⟨t, hexec, hframe, hregs, hline, -⟩ :=
    exec_cmd8_idle (i := .owrst) rfl hs (procOwrst_run s.params (s.regs.accept 0x01) (s.accept 0x01))
  refine ⟨t, (s.accept 0x01).resetSlot.1.1, (s.accept 0x01).resetSlot.1.2, hexec, hframe, ?regs, ?trace, ?slots⟩
  case regs => rw [hregs, Regs.commit_pres]; rfl
  case trace => rw [hline, resetSlot_trace, State.accept_params, State.accept_line]
  case slots => rw [hline, resetSlot_slots, State.accept_line]

end Sys2Proof.Machine

/-! Commands that make no slot, SRCHRST and DIRLD (42_search.md R187, R200). -/

namespace Sys2Proof.Machine

/-! ## A command without slots -/

/-- From an Idle engine a host command whose procedure makes no slot answers a next state with the line, the bus
environment and the drive as they were; its registers are those at acceptance with one commit. -/
theorem exec_cmd8_noSlot {i : Instr} (hi : i.format = .cmd8) {s : State} (h : s.engine.seq = .idle) {st : Staged}
    (hp : procOf i s.params (s.regs.accept (encode i)) = .done st) :
    ∃ t, exec i s = .next t ∧ NoSlot s t ∧ t.regs = (s.regs.accept (encode i)).commit st := by
  refine ⟨(s.accept (encode i)).finish st, ?next, ⟨?after, rfl, rfl, rfl⟩, rfl⟩
  case next => rw [exec_cmd8 i hi, runCommand_idle i _ h, hp, Proc.run_done]
  case after => exact ⟨rfl, rfl, rfl, rfl, rfl, rfl⟩

/-- A command that stages the cursor writes RESULT, DONE and the cursor alone. -/
theorem Regs.commit_cursor (r : Regs) (c : ResultCode) (cur : Cursor) :
    r.commit { code := c, cursor := some cur } = { r with result := c, done := true, cursor := cur } := rfl

/-- A command that stages ROM writes RESULT, DONE and ROM alone. -/
theorem Regs.commit_rom (r : Regs) (c : ResultCode) (a : Addr) :
    r.commit { code := c, rom := some a } = { r with result := c, done := true, rom := a } := rfl

/-! ## SRCHRST -/

/-- Settles O25: SRCHRST stages OK and the Fresh cursor, which keeps SPATH (R187). -/
theorem srchrstRestartsTheSearch : Obligations.SrchrstRestartsTheSearch := by
  intro s hs
  obtain ⟨t, hexec, hframe, hregs⟩ :=
    exec_cmd8_noSlot (i := .srchrst) (st := { code := .ok, cursor := some s.regs.cursor.fresh }) rfl hs rfl
  refine ⟨t, hexec, hframe, ?regs⟩
  case regs => rw [hregs, Regs.commit_cursor]; rfl

/-! ## DIRLD -/

/-- DIRLD of an index at or above DIRCNT stages its code and no register (R200). -/
theorem procDirld_of_le (p : Params) {r : Regs} (h : r.dirCnt.toNat ≤ r.dirIdx.toNat) :
    procDirld p r = .done { code := .indexError } :=
  if_pos (BitVec.le_def.mpr h)

/-- DIRLD of an index below DIRCNT stages the indexed entry for ROM (R200). -/
theorem procDirld_of_lt (p : Params) {r : Regs} (h : r.dirIdx.toNat < r.dirCnt.toNat) :
    procDirld p r = .done { code := .ok, rom := some (r.dirEntry r.dirIdx.toNat) } :=
  if_neg (BitVec.not_le.mpr (BitVec.lt_def.mpr h))

/-- An entry ENUM has written is the entry that DIRLD reads (R48). -/
theorem Regs.dirEntry_of_getElem? {r : Regs} {i : Nat} {a : Addr} (h : r.dir[i]? = some a) : r.dirEntry i = a := by
  rw [Regs.dirEntry, h, Option.getD_some]

/-- Settles O36: DIRIDX and DIRCNT stand at acceptance as before it, and their order says what DIRLD stages. -/
theorem dirldLoadsAnEntryInRange : Obligations.DirldLoadsAnEntryInRange := by
  intro s hs
  refine ⟨fun hle => ?indexError, fun hlt => ?entry⟩
  case indexError =>
    obtain ⟨t, hexec, hframe, hregs⟩ :=
      exec_cmd8_noSlot (i := .dirld) rfl hs (procDirld_of_le s.params (r := s.regs.accept 0x13) hle)
    refine ⟨t, hexec, hframe, ?_⟩
    rw [hregs, Regs.commit_code]
    rfl
  case entry =>
    obtain ⟨t, hexec, hframe, hregs⟩ :=
      exec_cmd8_noSlot (i := .dirld) rfl hs (procDirld_of_lt s.params (r := s.regs.accept 0x13) hlt)
    rw [Regs.commit_rom] at hregs
    exact ⟨t, hexec, hframe, hregs, fun a ha => (congrArg Regs.rom hregs).trans (Regs.dirEntry_of_getElem? ha)⟩

end Sys2Proof.Machine

/-! The CRC commands, DECODE and the fraction table (44_crc_decode.md R255-R258, R264). -/

namespace Sys2Proof.Machine

/-! ## CRCCLR and CRCBYTE -/

/-- A command that stages CRC writes RESULT, DONE and CRC alone. -/
theorem Regs.commit_crc (r : Regs) (c : ResultCode) (b : Byte) :
    r.commit { code := c, crc := some b } = { r with result := c, done := true, crc := b } := rfl

/-- Settles O43: CRCCLR stages OK and 0x00 for CRC (R255). -/
theorem crcclrClearsTheAccumulator : Obligations.CrcclrClearsTheAccumulator := by
  intro s hs
  obtain ⟨t, hexec, hframe, hregs⟩ :=
    exec_cmd8_noSlot (i := .crcclr) (st := { code := .ok, crc := some 0x00 }) rfl hs rfl
  refine ⟨t, hexec, hframe, ?regs⟩
  case regs => rw [hregs, Regs.commit_crc]; rfl

/-- A byte folded into an accumulator equal to it leaves 0x00: the eight shifts keep 0x00 (R250). -/
theorem crc8Update_self (c : Byte) : crc8Update c c = 0x00 := by
  have hzero : crc8Step 0#8 = 0x00 := by decide
  rw [crc8Update, BitVec.xor_self, hzero]

/-- Settles O44: CRC and DATA stand at acceptance as before it, and CRCBYTE stages the update of the one by the other
(R256). -/
theorem crcbyteFoldsInData : Obligations.CrcbyteFoldsInData := by
  intro s hs
  obtain ⟨t, hexec, hframe, hregs⟩ :=
    exec_cmd8_noSlot (i := .crcbyte) (st := { code := .ok, crc := some (crc8Update s.regs.crc s.regs.data) }) rfl hs rfl
  rw [Regs.commit_crc] at hregs
  refine ⟨t, hexec, hframe, hregs, fun heq => ?equal⟩
  case equal =>
    calc t.regs.crc
      _ = crc8Update s.regs.crc s.regs.data := congrArg Regs.crc hregs
      _ = 0x00 := by rw [heq, crc8Update_self]

/-! ## The check and decode of a scratchpad -/

/-- The value a scratchpad decodes to, in tenths of a degree: its bytes 0 and 1 under its configuration byte 4 (R258,
R262). -/
def spadTenths (sp : Scratchpad) : Int := decodeTenths (byteOf sp 1 ++ byteOf sp 0) (byteOf sp 4)

theorem checkAndDecode_of_crc_ne {sp : Scratchpad} (h : crc8 (bytesOf sp 9) ≠ 0x00) :
    checkAndDecode sp = (.crcError, none) :=
  if_pos h

theorem checkAndDecode_of_inRange {sp : Scratchpad} (h : crc8 (bytesOf sp 9) = 0x00)
    (hr : inRange (spadTenths sp) = true) : checkAndDecode sp = (.ok, some (BitVec.ofInt 16 (spadTenths sp))) :=
  (if_neg (not_not_intro h)).trans (if_pos hr)

theorem checkAndDecode_of_not_inRange {sp : Scratchpad} (h : crc8 (bytesOf sp 9) = 0x00)
    (hr : ¬inRange (spadTenths sp) = true) : checkAndDecode sp = (.rangeError, none) :=
  (if_neg (not_not_intro h)).trans (if_neg hr)

/-- The code of the check: the CRC first, then the range (R258). -/
theorem checkAndDecode_code (sp : Scratchpad) :
    (checkAndDecode sp).1 =
      if crc8 (bytesOf sp 9) ≠ 0x00 then .crcError else if inRange (spadTenths sp) then .ok else .rangeError := by
  by_cases hc : crc8 (bytesOf sp 9) = 0x00
  · rw [if_neg (not_not_intro hc)]
    by_cases hr : inRange (spadTenths sp) = true
    · rw [checkAndDecode_of_inRange hc hr, if_pos hr]
    · rw [checkAndDecode_of_not_inRange hc hr, if_neg hr]
  · rw [checkAndDecode_of_crc_ne hc, if_pos hc]

/-- TEMP after the check: the value when both checks pass, and otherwise what it was (R258). -/
theorem checkAndDecode_temp_getD (sp : Scratchpad) (old : BitVec 16) :
    (checkAndDecode sp).2.getD old =
      if crc8 (bytesOf sp 9) = 0x00 ∧ inRange (spadTenths sp) = true then BitVec.ofInt 16 (spadTenths sp) else old := by
  by_cases hc : crc8 (bytesOf sp 9) = 0x00
  · by_cases hr : inRange (spadTenths sp) = true
    · rw [checkAndDecode_of_inRange hc hr, if_pos ⟨hc, hr⟩, Option.getD_some]
    · rw [checkAndDecode_of_not_inRange hc hr, if_neg fun h => hr h.2, Option.getD_none]
  · rw [checkAndDecode_of_crc_ne hc, if_neg fun h => hc h.1, Option.getD_none]

/-- OK is reported only when both checks pass (R258). -/
theorem checkAndDecode_ok {sp : Scratchpad} (h : (checkAndDecode sp).1 = .ok) :
    crc8 (bytesOf sp 9) = 0x00 ∧ inRange (spadTenths sp) = true := by
  by_cases hc : crc8 (bytesOf sp 9) = 0x00
  · by_cases hr : inRange (spadTenths sp) = true
    · exact ⟨hc, hr⟩
    · simp [checkAndDecode_of_not_inRange hc hr] at h
  · simp [checkAndDecode_of_crc_ne hc] at h

theorem inRange_iff (v : Int) : inRange v = true ↔ -550 ≤ v ∧ v ≤ 1250 := decide_eq_true_iff

/-- A value in the accepted range is what TEMP's sixteen bits read as in two's complement. -/
theorem toInt_ofInt_of_inRange {v : Int} (h : inRange v = true) : (BitVec.ofInt 16 v).toInt = v := by
  obtain ⟨hlo, hhi⟩ := (inRange_iff v).mp h
  exact BitVec.toInt_ofInt_eq_self (by decide) (by omega) (by omega)

/-! ## DECODE -/

/-- A command that stages a code and perhaps TEMP writes RESULT, DONE and TEMP alone. -/
theorem Regs.commit_temp (r : Regs) (c : ResultCode) (v : Option (BitVec 16)) :
    r.commit { code := c, temp := v } = { r with result := c, done := true, temp := v.getD r.temp } := rfl

/-- DECODE stages what the check and decode of SPAD gives; acceptance leaves SPAD as it was (R257). -/
theorem procDecode_accept (p : Params) (r : Regs) (v : Byte) :
    procDecode p (r.accept v) = .done { code := (checkAndDecode r.spad).1, temp := (checkAndDecode r.spad).2 } := rfl

/-- Settles O45: the code and TEMP are those of SPAD's check and decode, and a value that passes the range check fits
TEMP. -/
theorem decodeChecksThenStoresTheTemperature : Obligations.DecodeChecksThenStoresTheTemperature := by
  intro s hs
  obtain ⟨t, hexec, hframe, hregs⟩ :=
    exec_cmd8_noSlot (i := .decode) rfl hs (procDecode_accept s.params s.regs 0x32)
  rw [Regs.commit_temp] at hregs
  refine ⟨t, hexec, hframe, ?regs, fun hok => ?stored⟩
  case regs =>
    rw [hregs, checkAndDecode_code, checkAndDecode_temp_getD]
    rfl
  case stored =>
    obtain ⟨hcrc, hr⟩ := checkAndDecode_ok ((congrArg Regs.result hregs).symm.trans hok)
    have htemp : t.regs.temp = BitVec.ofInt 16 (spadTenths s.regs.spad) := by
      rw [hregs, checkAndDecode_of_inRange hcrc hr]
      rfl
    have hval : t.regs.temp.toInt = spadTenths s.regs.spad := by rw [htemp, toInt_ofInt_of_inRange hr]
    obtain ⟨hlo, hhi⟩ := (inRange_iff _).mp hr
    exact ⟨hlo.trans_eq hval.symm, hval.trans_le hhi, hval⟩

/-! ## The fraction table -/

/-- Settles O50: the sixteen nibbles of each row of R264, evaluated. -/
theorem fractionTableIsAsymmetric : Obligations.FractionTableIsAsymmetric :=
  ⟨by decide, by decide⟩

end Sys2Proof.Machine

/-! Writes that land inside a command, and the power-on values (70_reset_and_hazards.md R330, R340). -/

namespace Sys2Proof.Machine

/-! ## A write inside a command -/

/-- Settles O9: the step performs the write that lands, and a write to any register but CTRL while a command runs sets
OVR. -/
theorem writeLandingInACommandOnlySetsOvr : Obligations.WriteLandingInACommandOnlySetsOvr := by
  intro s opc k a v rest hq hh ha
  have hb : s.engine.seq ≠ .idle := by simp [hq]
  have hctrl : regAt a ≠ some .ctrl := fun hc => ha (regAddr_of_regAt hc).symm
  calc step s
    _ = ({ s with host := rest } : State).perform (.wr a v) := step_access_landing hb hh
    _ = .next (({ s with host := rest } : State).memWrite a v) := perform_wr v (.inl hb)
    _ = .next ({ s with host := rest } : State).setOvr := congrArg _ (memWrite_busy v hb hctrl)

/-! ## The power-on values -/

/-- The reset value of a register as it reads (10_state.md R30). -/
def resetValue (r : Reg) : Byte :=
  match r with
  | .tempH => 0x80
  | .spad _ => 0xFF
  | .cmd | .status | .result | .ctrl | .data | .crc | .sld | .dirIdx | .dirCnt | .famEn | .tempL | .fam _ | .rom _
  | .fcnt _ => 0x00

/-- After power-on each register reads its reset value (R330). -/
theorem readReg_reset (r : Reg) : State.reset.readReg r = resetValue r := by
  cases r with
  | fam i => revert i; decide
  | rom k => revert k; decide
  | spad k => revert k; decide
  | fcnt i => revert i; decide
  | _ => rfl

/-- The reset values by address: a reserved one reads 0 (R49). -/
theorem regAt_resetValue (a : Byte) :
    (regAt a).elim 0x00 resetValue = if a = 0x0B then 0x80 else if 0x18 ≤ a ∧ a ≤ 0x20 then 0xFF else 0x00 := by
  revert a; decide

theorem memRead_reset (a : Byte) : State.reset.memRead a = (regAt a).elim 0x00 resetValue := by
  cases ha : regAt a with
  | none => exact memRead_none _ ha
  | some r => exact (memRead_some _ ha).trans (readReg_reset r)

/-- Settles O15: an address reads the reset value of its register, and the internal state is what power-on sets. -/
theorem powerOnStateIsAsListed : Obligations.PowerOnStateIsAsListed :=
  ⟨fun a => (memRead_reset a).trans (regAt_resetValue a), rfl, rfl, rfl, rfl, rfl, rfl, rfl⟩

end Sys2Proof.Machine

/-! The invariant of sound states (10_state.md sections 3 and 4, 41_transport.md R148): what each kind of step makes of
it. -/

namespace Sys2Proof.Machine

/-! ## States between slots, and states that differ outside the invariant -/

/-- With the engine Idle the invariant is about the parameters, the registers and an engine at rest. -/
theorem State.Inv.of_idle {s : State} (hp : s.params.wf = true) (hr : s.regs.Inv s.params)
    (hq : s.engine.seq = .idle) (hpos : s.engine.pos = 0) (hsam : s.engine.samples = [])
    (hcmd : s.engine.cmdBefore = 0x00) (hslot : s.engine.slotSamples = []) (hld : s.engine.ldOut = .released)
    (hsav : s.engine.savedI = none) : s.Inv where
  params_wf := hp
  regs := hr
  busy_legal := fun opc k h => by simp [hq] at h
  busy_done := fun h => by simp [State.busy, hq] at h
  idle_rest := fun _ => ⟨hpos, hsam, hcmd⟩
  between := fun _ => ⟨hslot, hld, hsav⟩
  inside := fun h => by omega
  guarded := fun h => by omega
  unguarded := fun _ => hsav

/-- The current slot depends on the sequencer, and on what the rest of the command depends on. -/
theorem currentSlot_congr {s t : State} (hq : t.engine.seq = s.engine.seq)
    (hr : ∀ opc, t.remaining opc = s.remaining opc) : t.currentSlot = s.currentSlot := by
  unfold State.currentSlot
  rw [hq]
  cases s.engine.seq with
  | idle => rfl
  | busy opc k => simp only [hr]

/-- The invariant says nothing of the line, the bus environment, the host's accesses and reads, and a waiting wire
byte. -/
theorem State.Inv.frame {s t : State} (h : s.Inv) (hp : t.params = s.params) (hr : t.regs = s.regs)
    (hh : t.hostI = s.hostI) (he : t.engine = { s.engine with txByte := t.engine.txByte }) : t.Inv := by
  have hq : t.engine.seq = s.engine.seq := by rw [he]
  have hpos : t.engine.pos = s.engine.pos := by rw [he]
  have hsam : t.engine.samples = s.engine.samples := by rw [he]
  have hslot : t.engine.slotSamples = s.engine.slotSamples := by rw [he]
  have hld : t.engine.ldOut = s.engine.ldOut := by rw [he]
  have hsav : t.engine.savedI = s.engine.savedI := by rw [he]
  have hcmd : t.engine.cmdBefore = s.engine.cmdBefore := by rw [he]
  have hcur : t.currentSlot = s.currentSlot := currentSlot_congr hq fun opc => remaining_congr hp hr hsam opc
  have hbusy : t.busy = s.busy := by simp only [State.busy, hq]
  obtain ⟨h1, h2, h3, h4, h5, h6, h7, h8, h9⟩ := h
  constructor <;> simp only [hp, hr, hq, hpos, hsam, hslot, hld, hsav, hcmd, hcur, hbusy, hh] <;> assumption

/-- The registers' invariant says nothing of CMD, DONE, PRES, OVR, RESULT, IE, DATA, CRC, DIRIDX, FAMEN, FAM, ROM and
SPAD. -/
theorem Regs.Inv.frame {p : Params} {r r' : Regs} (h : r.Inv p) (hc : r'.cursor = r.cursor)
    (hn : r'.dirCnt = r.dirCnt) (hd : r'.dir = r.dir) (hf : r'.fcnt = r.fcnt) (hcap : r'.cap = r.cap)
    (ht : r'.temp = r.temp) : r'.Inv p := by
  obtain ⟨h1, h2, h3, h4, h5, h6, h7, h8, h9⟩ := h
  constructor <;> simp only [hc, hn, hd, hf, hcap, ht] <;> assumption

/-! ## Host accesses -/

/-- What is left of a command does not depend on OVR and IE (60_exceptions.md R304). -/
theorem remaining_flags (s : State) (o e : Bool) (opc : Byte) :
    ({ s with regs := { s.regs with ovr := o, ie := e } } : State).remaining opc = s.remaining opc := by
  unfold State.remaining procOfOpcode
  cases decode .cmd8 opc with
  | error err => rfl
  | ok i =>
    have hp : procOf i s.params { s.regs with ovr := o, ie := e } = procOf i s.params s.regs :=
      (procOf_ie i s.params { s.regs with ovr := o } e).trans (procOf_ovr i s.params s.regs o)
    exact congrArg (fun p => p.resume s.engine.samples) hp

/-- OVR and IE may change at any time. -/
theorem State.Inv.flags {s : State} (h : s.Inv) (o e : Bool) :
    ({ s with regs := { s.regs with ovr := o, ie := e } } : State).Inv := by
  have hcur := currentSlot_congr (s := s) (t := { s with regs := { s.regs with ovr := o, ie := e } }) rfl
    (remaining_flags s o e)
  exact ⟨h.params_wf, h.regs.frame rfl rfl rfl rfl rfl rfl, h.busy_legal, h.busy_done, h.idle_rest, h.between,
    by rw [hcur]; exact h.inside, h.guarded, h.unguarded⟩

/-- An Idle engine's registers may change within their own invariant. -/
theorem State.Inv.idle_regs {s : State} (h : s.Inv) (hq : s.engine.seq = .idle) {r : Regs} (hr : r.Inv s.params) :
    ({ s with regs := r } : State).Inv := by
  obtain ⟨hpos, hsam, hcmd⟩ := h.idle_rest hq
  obtain ⟨hslot, hld, hsav⟩ := h.between hpos
  exact .of_idle h.params_wf hr hq hpos hsam hcmd hslot hld hsav

/-- A write while Idle changes no register the invariant speaks of. -/
theorem Regs.Inv.writeIdle {p : Params} {g : Regs} (h : g.Inv p) (r : Reg) (v : Byte) : (g.writeIdle r v).Inv p := by
  cases r <;> exact h.frame rfl rfl rfl rfl rfl rfl

/-- The power-on registers are sound whatever the parameters (70_reset_and_hazards.md R330). -/
theorem Regs.reset_inv (p : Params) : Regs.reset.Inv p := by
  constructor <;> simp [Regs.reset, fcntSum]

@[simp] theorem State.softReset_params (s : State) : s.softReset.params = s.params := by
  unfold State.softReset; split <;> simp

/-- The soft reset leaves a sound state. -/
theorem State.Inv.softReset {s : State} (h : s.Inv) : s.softReset.Inv :=
  .of_idle (by rw [State.softReset_params]; exact h.params_wf) (Regs.reset_inv _) rfl rfl rfl rfl rfl rfl rfl

theorem State.Inv.writeCtrl {s : State} (h : s.Inv) (v : Byte) : (s.writeCtrl v).Inv := by
  have hie : ({ s with regs := { s.regs with ie := v.getLsbD 0 } } : State).Inv := h.flags s.regs.ovr (v.getLsbD 0)
  unfold State.writeCtrl
  split
  · exact hie.softReset
  · exact hie

/-! ## Acceptance and commit -/

/-- Acceptance of a legal opcode by an Idle engine. -/
theorem State.Inv.accept {s : State} (h : s.Inv) (hq : s.engine.seq = .idle) {v : Byte} {i : Instr}
    (hv : decode .cmd8 v = .ok i) : (s.accept v).Inv := by
  obtain ⟨hpos, -, -⟩ := h.idle_rest hq
  obtain ⟨-, hld, hsav⟩ := h.between hpos
  exact {
    params_wf := h.params_wf
    regs := h.regs.frame rfl rfl rfl rfl rfl rfl
    busy_legal := fun opc k e => by cases e; exact ⟨rfl, i, hv⟩
    busy_done := fun _ => rfl
    idle_rest := fun e => by simp at e
    between := fun _ => ⟨rfl, hld, hsav⟩
    inside := fun e => absurd e (lt_irrefl 0)
    guarded := fun e => absurd e (lt_irrefl 0)
    unguarded := fun _ => hsav }

/-- A commit between slots that keeps the registers' invariant. -/
theorem State.Inv.finish {s : State} (h : s.Inv) (hpos : s.engine.pos = 0) {st : Staged}
    (hr : (s.regs.commit st).Inv s.params) : (s.finish st).Inv := by
  obtain ⟨-, hld, hsav⟩ := h.between hpos
  exact .of_idle h.params_wf hr rfl rfl rfl rfl rfl hld hsav

/-- Slots run from a sound state between slots leave a sound state: everything but the line and the bus environment is
as it was. -/
theorem State.Inv.run {s : State} (h : s.Inv) (hpos : s.engine.pos = 0) {α : Type} (p : Proc α) : (p.run s).2.Inv := by
  obtain ⟨-, hld, hsav⟩ := h.between hpos
  have hl := p.run_onlyLine s
  exact h.frame hl.params hl.regs hl.hostI (by rw [hl.engine_eq hld hsav])

/-- An illegal opcode written to an Idle engine, and a legal one. -/
theorem State.Inv.issue {s : State} (h : s.Inv) (hq : s.engine.seq = .idle) (v : Byte) : (s.issue v).Inv := by
  obtain ⟨hpos, -, -⟩ := h.idle_rest hq
  obtain ⟨-, hld, hsav⟩ := h.between hpos
  unfold State.issue
  cases hv : decode .cmd8 v with
  | ok i => exact h.accept hq hv
  | error e => exact .of_idle h.params_wf (h.regs.frame rfl rfl rfl rfl rfl rfl) rfl rfl rfl rfl rfl hld hsav

/-- A host command run through from an Idle engine. -/
theorem State.Inv.exec_cmd8 {s t : State} (h : s.Inv) (hq : s.engine.seq = .idle) {v : Byte} {i : Instr}
    (hv : decode .cmd8 v = .ok i) (ht : exec i s = .next t) : t.Inv := by
  obtain ⟨hi, rfl⟩ := encode_of_decode hv
  rw [Machine.exec_cmd8 i hi, runCommand_idle i _ hq] at ht
  cases ht
  have ha := h.accept hq hv
  refine (ha.run rfl _).finish ?_ ?_
  · rw [(Proc.run_onlyLine _ _).engine_eq (ha.between rfl).2.1 (ha.between rfl).2.2]; rfl
  · rw [Proc.run_regs, Proc.run_params]
    exact (procOf_commit_inv i s.params (s.regs.accept (encode i)) h.params_wf ha.regs).run _

/-- A wire byte sent by itself from an Idle engine. -/
theorem State.Inv.exec_wire8 {s t : State} (h : s.Inv) (hq : s.engine.seq = .idle) {i : Instr} (hi : i.format = .wire8)
    (ht : exec i s = .next t) : t.Inv := by
  rw [Machine.exec_wire8 i hi] at ht
  cases ht
  exact h.run (h.idle_rest hq).1 _

/-! ## An event of a slot -/

/-- The drive after one more event. -/
def LineOp.drive (d : LineDrive) (op : LineOp) : LineDrive :=
  match op with
  | .low _ => .low
  | .rel _ => .released
  | .smp _ _ | .recover _ => d

/-- The samples one event takes. -/
def LineOp.samples (op : LineOp) : Nat :=
  match op with
  | .smp _ _ => 1
  | .low _ | .rel _ | .recover _ => 0

theorem driveAfter_concat (l : List LineOp) (op : LineOp) : driveAfter (l ++ [op]) = op.drive (driveAfter l) := by
  cases op <;> simp [driveAfter, LineOp.drive]

theorem samplesIn_concat (l : List LineOp) (op : LineOp) : samplesIn (l ++ [op]) = samplesIn l + op.samples := by
  cases op <;> simp [samplesIn, LineOp.samples]

/-- A whole slot leaves the line released. -/
theorem driveAfter_ops (k : SlotKind) (p : Params) : driveAfter (k.ops p) = .released := by
  cases k with
  | reset => rfl
  | bit o => cases o <;> rfl

@[simp] theorem lineOp_params (s : State) (op : LineOp) : (s.lineOp op).params = s.params := by cases op <;> rfl
@[simp] theorem lineOp_regs (s : State) (op : LineOp) : (s.lineOp op).regs = s.regs := by cases op <;> rfl
@[simp] theorem lineOp_hostI (s : State) (op : LineOp) : (s.lineOp op).hostI = s.hostI := by cases op <;> rfl
@[simp] theorem lineOp_host (s : State) (op : LineOp) : (s.lineOp op).host = s.host := by cases op <;> rfl
@[simp] theorem lineOp_reads (s : State) (op : LineOp) : (s.lineOp op).reads = s.reads := by cases op <;> rfl

@[simp] theorem lineOp_seq (s : State) (op : LineOp) : (s.lineOp op).engine.seq = s.engine.seq := by cases op <;> rfl
@[simp] theorem lineOp_samples (s : State) (op : LineOp) : (s.lineOp op).engine.samples = s.engine.samples := by
  cases op <;> rfl
@[simp] theorem lineOp_savedI (s : State) (op : LineOp) : (s.lineOp op).engine.savedI = s.engine.savedI := by
  cases op <;> rfl
@[simp] theorem lineOp_ldOut (s : State) (op : LineOp) : (s.lineOp op).engine.ldOut = op.drive s.engine.ldOut := by
  cases op <;> rfl

theorem lineOp_slotSamples_length (s : State) (op : LineOp) :
    (s.lineOp op).engine.slotSamples.length = s.engine.slotSamples.length + op.samples := by
  cases op <;> simp [State.lineOp, LineOp.samples]

/-- The state in which the next event of a slot happens: before the first one the slot begins. -/
def State.openSlot (s : State) : State := if s.engine.pos = 0 then s.beginSlot else s

@[simp] theorem openSlot_params (s : State) : s.openSlot.params = s.params := by
  unfold State.openSlot; split <;> simp
@[simp] theorem openSlot_regs (s : State) : s.openSlot.regs = s.regs := by
  unfold State.openSlot; split <;> simp
@[simp] theorem openSlot_host (s : State) : s.openSlot.host = s.host := by
  unfold State.openSlot; split <;> simp
@[simp] theorem openSlot_reads (s : State) : s.openSlot.reads = s.reads := by
  unfold State.openSlot; split <;> simp

/-- Of the engine the beginning of a slot changes the guard alone. -/
theorem openSlot_engine (s : State) : s.openSlot.engine = { s.engine with savedI := s.openSlot.engine.savedI } := by
  unfold State.openSlot
  split
  · rw [State.beginSlot_engine]
  · rfl

@[simp] theorem openSlot_seq (s : State) : s.openSlot.engine.seq = s.engine.seq := by rw [openSlot_engine]
@[simp] theorem openSlot_samples (s : State) : s.openSlot.engine.samples = s.engine.samples := by rw [openSlot_engine]
@[simp] theorem openSlot_slotSamples (s : State) : s.openSlot.engine.slotSamples = s.engine.slotSamples := by
  rw [openSlot_engine]
@[simp] theorem openSlot_ldOut (s : State) : s.openSlot.engine.ldOut = s.engine.ldOut := by rw [openSlot_engine]

/-- Inside a slot of the BitBang realisation the guard is held (41_transport.md R148). -/
theorem State.Inv.openSlot_guarded {s : State} (h : s.Inv) (hr : s.params.realisation = .bitBang) :
    s.openSlot.hostI = false ∧ s.openSlot.engine.savedI.isSome = true := by
  unfold State.openSlot
  split
  · simp [State.beginSlot_hostI, State.beginSlot_engine, hr]
  · exact h.guarded (by omega) hr

/-- The Peripheral realisation holds none. -/
theorem State.Inv.openSlot_unguarded {s : State} (h : s.Inv) (hr : s.params.realisation = .peripheral) :
    s.openSlot.engine.savedI = none := by
  unfold State.openSlot
  split
  · simp only [State.beginSlot_engine, hr]
    exact h.unguarded hr
  · exact h.unguarded hr

/-- An event that does not end its slot: the next position. -/
theorem slotEvent_of_lt {s : State} {k : SlotKind} {op : LineOp} (hop : (k.ops s.params)[s.engine.pos]? = some op)
    (hlt : s.engine.pos + 1 < (k.ops s.params).length) :
    s.slotEvent k =
      { s.openSlot.lineOp op with engine := { (s.openSlot.lineOp op).engine with pos := s.engine.pos + 1 } } := by
  have hne : ¬s.engine.pos + 1 = (k.ops s.params).length := by omega
  simp only [State.slotEvent, hop, if_neg hne]
  rfl

/-- The event that ends its slot. -/
theorem slotEvent_of_last {s : State} {k : SlotKind} {op : LineOp} (hop : (k.ops s.params)[s.engine.pos]? = some op)
    (hlast : s.engine.pos + 1 = (k.ops s.params).length) : s.slotEvent k = (s.openSlot.lineOp op).closeSlot k := by
  simp only [State.slotEvent, hop, if_pos hlast]
  rfl

@[simp] theorem closeSlot_seq (s : State) (k : SlotKind) : (s.closeSlot k).engine.seq = s.engine.seq.nextSlot := by
  simp only [State.closeSlot, State.endSlot_engine]
@[simp] theorem closeSlot_ldOut (s : State) (k : SlotKind) : (s.closeSlot k).engine.ldOut = s.engine.ldOut := by
  simp only [State.closeSlot, State.endSlot_engine]

/-- The end of a slot releases the guard. -/
theorem closeSlot_savedI {s : State} (k : SlotKind) (h : s.params.realisation = .peripheral → s.engine.savedI = none) :
    (s.closeSlot k).engine.savedI = none := by
  simp only [State.closeSlot, State.endSlot_engine]
  cases hr : s.params.realisation with
  | peripheral => exact h hr
  | bitBang => rfl

/-- Before each event the drive and the samples are those of the events before it. -/
theorem State.Inv.slot_progress {s : State} (h : s.Inv) {k : SlotKind} (hk : s.currentSlot = some k) :
    s.engine.pos < (k.ops s.params).length ∧
      s.engine.ldOut = driveAfter ((k.ops s.params).take s.engine.pos) ∧
      s.engine.slotSamples.length = samplesIn ((k.ops s.params).take s.engine.pos) := by
  rcases Nat.eq_zero_or_pos s.engine.pos with h0 | h0
  · obtain ⟨hslot, hld, -⟩ := h.between h0
    rw [h0, hslot, hld, List.take_zero]
    exact ⟨by simp, rfl, rfl⟩
  · obtain ⟨k', hk', hrest⟩ := h.inside h0
    obtain rfl : k = k' := Option.some.inj (hk.symm.trans hk')
    exact hrest

/-- A machine at a slot has a command in progress. -/
theorem busy_of_currentSlot {s : State} {k : SlotKind} (hk : s.currentSlot = some k) :
    ∃ opc n, s.engine.seq = .busy opc n := by
  cases hq : s.engine.seq with
  | idle => simp [State.currentSlot, hq] at hk
  | busy opc n => exact ⟨opc, n, rfl⟩

/-- An event inside a slot leaves the command at that slot. -/
theorem currentSlot_slotEvent_of_lt {s : State} {k : SlotKind} (hk : s.currentSlot = some k) {op : LineOp}
    (hop : (k.ops s.params)[s.engine.pos]? = some op) (hlt : s.engine.pos + 1 < (k.ops s.params).length) :
    (s.slotEvent k).currentSlot = some k := by
  rw [slotEvent_of_lt hop hlt, ← hk]
  exact currentSlot_congr (by simp) (remaining_congr (by simp) (by simp) (by simp))

/-- An event inside a slot keeps the invariant. -/
theorem State.Inv.slotEvent_of_lt {s : State} (h : s.Inv) {k : SlotKind} (hk : s.currentSlot = some k) {op : LineOp}
    (hop : (k.ops s.params)[s.engine.pos]? = some op) (hlt : s.engine.pos + 1 < (k.ops s.params).length) :
    (s.slotEvent k).Inv := by
  obtain ⟨-, hld, hlen⟩ := h.slot_progress hk
  obtain ⟨opc, n, hq⟩ := busy_of_currentSlot hk
  have hsav : (s.openSlot.lineOp op).engine.savedI = s.openSlot.engine.savedI := lineOp_savedI _ _
  have htake : (k.ops s.params).take (s.engine.pos + 1) = (k.ops s.params).take s.engine.pos ++ [op] := by
    rw [List.take_add_one, hop]; rfl
  have hcur := currentSlot_slotEvent_of_lt hk hop hlt
  rw [Machine.slotEvent_of_lt hop hlt] at hcur ⊢
  exact {
    params_wf := by simpa using h.params_wf
    regs := by simpa using h.regs
    busy_legal := by simpa using h.busy_legal
    busy_done := fun _ => by simpa using h.busy_done (by simp [State.busy, hq])
    idle_rest := fun e => by simp [hq] at e
    between := fun e => by simp at e
    inside := fun _ => ⟨k, hcur, by simpa using hlt,
      by simp [htake, driveAfter_concat, ← hld],
      by simp [htake, samplesIn_concat, ← hlen, lineOp_slotSamples_length]⟩
    guarded := fun _ hr => by simpa [hsav] using h.openSlot_guarded (by simpa using hr)
    unguarded := fun hr => by simpa [hsav] using h.openSlot_unguarded (by simpa using hr) }

/-- The event that ends a slot keeps the invariant: the line is released and the guard with it. -/
theorem State.Inv.slotEvent_of_last {s : State} (h : s.Inv) {k : SlotKind} (hk : s.currentSlot = some k) {op : LineOp}
    (hop : (k.ops s.params)[s.engine.pos]? = some op) (hlast : s.engine.pos + 1 = (k.ops s.params).length) :
    (s.slotEvent k).Inv := by
  obtain ⟨-, hld, -⟩ := h.slot_progress hk
  obtain ⟨opc, n, hq⟩ := busy_of_currentSlot hk
  have hall : k.ops s.params = (k.ops s.params).take s.engine.pos ++ [op] := by
    conv_lhs => rw [← List.take_length (l := k.ops s.params), ← hlast, List.take_add_one, hop]
    rfl
  have hrel : op.drive s.engine.ldOut = .released := by
    rw [hld, ← driveAfter_concat, ← hall, driveAfter_ops]
  have hsav : ((s.openSlot.lineOp op).closeSlot k).engine.savedI = none :=
    closeSlot_savedI k fun hr => by simpa using h.openSlot_unguarded (by simpa using hr)
  rw [Machine.slotEvent_of_last hop hlast]
  exact {
    params_wf := by simpa using h.params_wf
    regs := by simpa using h.regs
    busy_legal := fun o m e => by
      obtain ⟨rfl, -⟩ : opc = o ∧ n + 1 = m := by simpa [hq, Seq.nextSlot] using e
      simpa using h.busy_legal opc n hq
    busy_done := fun _ => by simpa using h.busy_done (by simp [State.busy, hq])
    idle_rest := fun e => by simp [hq, Seq.nextSlot] at e
    between := fun _ => ⟨rfl, by simpa using hrel, hsav⟩
    inside := fun e => absurd e (lt_irrefl 0)
    guarded := fun e => absurd e (lt_irrefl 0)
    unguarded := fun _ => hsav }

/-- A slot event keeps the invariant. -/
theorem State.Inv.slotEvent {s : State} (h : s.Inv) {k : SlotKind} (hk : s.currentSlot = some k) :
    (s.slotEvent k).Inv := by
  obtain ⟨hpos, -, -⟩ := h.slot_progress hk
  have hop := List.getElem?_eq_getElem hpos
  rcases Nat.lt_or_ge (s.engine.pos + 1) (k.ops s.params).length with hlt | hge
  · exact h.slotEvent_of_lt hk hop hlt
  · exact h.slotEvent_of_last hk hop (by omega)

/-! ## An engine step, an access, a step -/

/-- The commit of a command in progress comes between slots. -/
theorem State.Inv.pos_of_done {s : State} (h : s.Inv) {opc : Byte} {n : Nat} {st : Staged}
    (hq : s.engine.seq = .busy opc n) (hr : s.remaining opc = .done st) : s.engine.pos = 0 := by
  by_contra hne
  obtain ⟨k, hk, -⟩ := h.inside (Nat.pos_of_ne_zero hne)
  simp [State.currentSlot, hq, hr] at hk

/-- What the command in progress can still commit keeps the registers' invariant. -/
theorem State.Inv.remaining_all {s : State} (h : s.Inv) (opc : Byte) :
    (s.remaining opc).All fun st => (s.regs.commit st).Inv s.params := by
  refine Proc.All.resume ?_ _
  unfold procOfOpcode
  cases decode .cmd8 opc with
  | ok i => exact procOf_commit_inv i s.params s.regs h.params_wf h.regs
  | error e => exact h.regs.frame rfl rfl rfl rfl rfl rfl

theorem State.Inv.engineStep {s : State} (h : s.Inv) : s.engineStep.Inv := by
  cases hq : s.engine.seq with
  | idle => rw [engineStep_idle hq]; exact h
  | busy opc n =>
    cases hr : s.remaining opc with
    | done st =>
      rw [engineStep_done hq hr]
      have hall := h.remaining_all opc
      rw [hr] at hall
      exact h.finish (h.pos_of_done hq hr) hall
    | reset f =>
      rw [engineStep_reset hq hr]
      exact h.slotEvent (by simp [State.currentSlot, hq, hr])
    | bit o f =>
      rw [engineStep_bit hq hr]
      exact h.slotEvent (by simp [State.currentSlot, hq, hr])

theorem State.Inv.memWrite {s : State} (h : s.Inv) (a v : Byte) : (s.memWrite a v).Inv := by
  by_cases hc : regAt a = some .ctrl
  · rw [State.memWrite, if_pos hc]
    exact h.writeCtrl v
  by_cases hq : s.engine.seq = .idle
  · cases hr : regAt a with
    | none => rw [memWrite_none_idle v hq hr]; exact h
    | some r =>
      by_cases hcmd : r = .cmd
      · rw [memWrite_cmd_idle v hq (hcmd ▸ hr)]
        exact h.issue hq v
      · rw [memWrite_idle v hq hr (fun e => hc (e ▸ hr)) hcmd]
        exact h.idle_regs hq (h.regs.writeIdle r v)
  · rw [memWrite_busy v hq hc]
    exact h.flags true s.regs.ie

theorem State.Inv.writeCmd {s t : State} (h : s.Inv) (hq : s.engine.seq = .idle) {v : Byte}
    (ht : s.writeCmd v = .next t) : t.Inv := by
  unfold State.writeCmd at ht
  cases hv : decode .cmd8 v with
  | error e => simp only [hv] at ht; cases ht; exact h.issue hq v
  | ok i =>
    simp only [hv] at ht
    split at ht
    · cases ht; exact h.issue hq v
    · exact h.exec_cmd8 hq hv ht

theorem State.Inv.perform {s t : State} (h : s.Inv) {op : HostOp} (ht : s.perform op = .next t) : t.Inv := by
  cases op with
  | rd a => cases ht; exact h.frame rfl rfl rfl rfl
  | wr a v =>
    by_cases hw : s.engine.seq ≠ .idle ∨ a ≠ 0x00
    · rw [perform_wr v hw] at ht
      cases ht
      exact h.memWrite a v
    · obtain ⟨hq, rfl⟩ : s.engine.seq = .idle ∧ a = 0x00 := by simpa only [not_or, ne_eq, not_not] using hw
      exact h.writeCmd hq (by rw [← ht, State.perform, hq]; rfl)
  | wait =>
    simp only [State.perform] at ht
    split at ht <;> cases ht
    · exact h
    · exact h.frame rfl rfl rfl rfl
  | wide w a => cases ht

theorem State.Inv.sendWire {s t : State} (h : s.Inv) (hq : s.engine.seq = .idle) {b : Byte}
    (ht : s.sendWire b = .next t) : t.Inv := by
  have h' : ({ s with engine := { s.engine with txByte := none } } : State).Inv := h.frame rfl rfl rfl rfl
  unfold State.sendWire at ht
  cases hb : decode .wire8 b with
  | error e => simp only [hb] at ht; cases ht; exact h'
  | ok i => simp only [hb] at ht; exact h'.exec_wire8 hq (encode_of_decode hb).1 ht

/-- The host's accesses to come are no part of the invariant. -/
theorem State.Inv.withHost {s : State} (h : s.Inv) (host : List Pending) : ({ s with host := host } : State).Inv :=
  h.frame rfl rfl rfl rfl

/-- A step with a command in progress performs the access that lands now, or is one engine step, which at most counts
down the next access. -/
theorem step_busy_cases {s : State} (hb : s.engine.seq ≠ .idle) :
    (∃ op rest, s.host = ⟨some 0, op⟩ :: rest ∧ step s = ({ s with host := rest } : State).perform op) ∨
      ∃ host, host.map Pending.op = s.host.map Pending.op ∧
        step s = .next ({ s with host := host } : State).engineStep := by
  have hstep : step s = s.busyStep := by
    cases hq : s.engine.seq with
    | idle => exact absurd hq hb
    | busy opc k => simp only [step, hq]
  rw [hstep]
  obtain ⟨params, regs, engine, hostI, bus, line, host, reads⟩ := s
  match host with
  | ⟨some 0, op⟩ :: rest => exact .inl ⟨op, rest, rfl, rfl⟩
  | ⟨some (n + 1), op⟩ :: rest => exact .inr ⟨⟨some n, op⟩ :: rest, rfl, rfl⟩
  | ⟨none, op⟩ :: rest => exact .inr ⟨⟨none, op⟩ :: rest, rfl, rfl⟩
  | [] => exact .inr ⟨[], rfl, rfl⟩

/-- A step with the engine Idle sends a waiting wire byte, performs the next access, or has nothing to do. -/
theorem step_idle_cases {s : State} (hq : s.engine.seq = .idle) :
    (∃ b, s.engine.txByte = some b ∧ step s = s.sendWire b) ∨
      (∃ p rest, s.engine.txByte = none ∧ s.host = p :: rest ∧
        step s = ({ s with host := rest } : State).perform p.op) ∨
      (s.engine.txByte = none ∧ s.host = [] ∧ step s = .next s) := by
  cases hb : s.engine.txByte with
  | some b => exact .inl ⟨b, rfl, by simp only [step, hq, hb]⟩
  | none =>
    cases hh : s.host with
    | nil => exact .inr (.inr ⟨rfl, rfl, by simp only [step, hq, hb, State.idleStep, hh]⟩)
    | cons p rest => exact .inr (.inl ⟨p, rest, rfl, rfl, by simp only [step, hq, hb, State.idleStep, hh]⟩)

/-- Settles O59: a step is an engine step, a host access or a wire byte, and each keeps the invariant. -/
theorem everyStepKeepsTheInvariant : Obligations.EveryStepKeepsTheInvariant := by
  intro s t h ht
  by_cases hq : s.engine.seq = .idle
  · obtain ⟨b, -, hs⟩ | ⟨p, rest, -, -, hs⟩ | ⟨-, -, hs⟩ := step_idle_cases hq
    · exact h.sendWire hq (hs ▸ ht)
    · exact (h.withHost rest).perform (hs ▸ ht)
    · cases hs.symm.trans ht
      exact h
  · obtain ⟨op, rest, -, hs⟩ | ⟨host, -, hs⟩ := step_busy_cases hq
    · exact (h.withHost rest).perform (hs ▸ ht)
    · cases hs.symm.trans ht
      exact (h.withHost host).engineStep

/-- The parameters built from any raw choices are admissible (00_scope.md R6). -/
theorem Params.ofRaw_wf (raw : Nat → Nat) : (Params.ofRaw raw).wf = true := by
  simp only [Params.wf, Params.maxDevicesOk, Params.passLimitOk, Params.positiveOk, Params.sampleOk,
    Params.recoveryOk, Bool.and_eq_true, decide_eq_true_eq]
  simp only [Params.ofRaw]
  omega

/-- Settles O60: the engine is Idle and at rest, and the registers hold their power-on values. -/
theorem powerOnStateMeetsTheInvariant : Obligations.PowerOnStateMeetsTheInvariant :=
  .of_idle (Params.ofRaw_wf Config.rawParam) (Regs.reset_inv _) rfl rfl rfl rfl rfl rfl rfl

end Sys2Proof.Machine

/-! What a step, an instruction and a host access answer, and what they leave as it was (10_state.md R52, 20_memory.md
R81, R82, 60_exceptions.md R305). -/

namespace Sys2Proof.Machine

/-! ## Encoding -/

/-- Settles O1: the opcode tables at the seven bytes. -/
theorem tableBytesDecodeToTheirRows : Obligations.TableBytesDecodeToTheirRows :=
  ⟨rfl, rfl, rfl, rfl, rfl, rfl, rfl⟩

/-- Settles O2, from the statement of each row. -/
theorem encodedInstructionsDecodeBack : Obligations.EncodedInstructionsDecodeBack := by
  intro i
  cases i with
  | owrst => exact Laws.Encoding.owrst
  | owbit => exact Laws.Encoding.owbit
  | owbyte => exact Laws.Encoding.owbyte
  | srchrst => exact Laws.Encoding.srchrst
  | srchnext => exact Laws.Encoding.srchnext
  | enum => exact Laws.Encoding.enum
  | dirld => exact Laws.Encoding.dirld
  | select => exact Laws.Encoding.select
  | convt => exact Laws.Encoding.convt
  | rdtemp => exact Laws.Encoding.rdtemp
  | crcclr => exact Laws.Encoding.crcclr
  | crcbyte => exact Laws.Encoding.crcbyte
  | decode => exact Laws.Encoding.decode
  | searchRom => exact Laws.Encoding.searchRom
  | matchRom => exact Laws.Encoding.matchRom
  | convertT => exact Laws.Encoding.convertT
  | readScratchpad => exact Laws.Encoding.readScratchpad

/-- The byte of a host command decodes to it. -/
theorem decode_encode_cmd8 {i : Instr} (hi : i.format = .cmd8) : decode .cmd8 (encode i) = .ok i := by
  rw [← hi]; exact (encodedInstructionsDecodeBack i).1

/-- Settles O3: the 256 bytes evaluated. -/
theorem illegalOpcodesAreTheOther243 : Obligations.IllegalOpcodesAreTheOther243 :=
  ⟨by decide +kernel, rfl, rfl⟩

/-! ## Instructions -/

/-- Settles O55: the meaning of a host command while another runs is the ignored write. -/
theorem commandWhileBusyOnlySetsOvr : Obligations.CommandWhileBusyOnlySetsOvr := by
  intro i s hi hb
  cases hq : s.engine.seq with
  | idle => exact absurd hq hb
  | busy opc k => rw [exec_cmd8 i hi, runCommand_busy i _ hq]; rfl

/-- Settles O24: a command from an Idle engine and a wire byte are slots, each of which restores HOST_I, and a command
while another runs touches OVR alone. -/
theorem instructionsKeepHostInterruptEnable : Obligations.InstructionsKeepHostInterruptEnable := by
  intro i s
  cases hi : i.format with
  | wire8 =>
    rw [exec_wire8 i hi]
    exact ⟨_, rfl, Proc.run_hostI _ s⟩
  | cmd8 =>
    by_cases hq : s.engine.seq = .idle
    · obtain ⟨t, hexec, hafter, -⟩ := exec_cmd8_idle hi hq rfl
      exact ⟨t, hexec, hafter.hostI⟩
    · exact ⟨_, commandWhileBusyOnlySetsOvr i s hi hq, rfl⟩

/-- Every instruction answers a next state. -/
theorem exec_next (i : Instr) (s : State) : ∃ t, exec i s = .next t := by
  obtain ⟨t, ht, -⟩ := instructionsKeepHostInterruptEnable i s
  exact ⟨t, ht⟩

/-! ## The answer of a step -/

theorem writeCmd_next (s : State) (v : Byte) : ∃ t, s.writeCmd v = .next t := by
  unfold State.writeCmd
  split
  · split
    · exact ⟨_, rfl⟩
    · exact exec_next _ s
  · exact ⟨_, rfl⟩

/-- An access is performed, but for a wide one, which is refused (20_memory.md R90). -/
theorem perform_outcome (s : State) (op : HostOp) :
    (∃ t, s.perform op = .next t) ∨ ∃ w a, op = .wide w a ∧ s.perform op = .refused .wideAccess := by
  cases op with
  | rd a => exact .inl ⟨_, rfl⟩
  | wr a v =>
    simp only [State.perform]
    split
    · exact .inl (writeCmd_next s v)
    · exact .inl ⟨_, rfl⟩
  | wait =>
    simp only [State.perform]
    split <;> exact .inl ⟨_, rfl⟩
  | wide w a => exact .inr ⟨w, a, rfl, rfl⟩

theorem sendWire_next (s : State) (b : Byte) : ∃ t, s.sendWire b = .next t := by
  unfold State.sendWire
  dsimp only
  split
  · exact exec_next _ _
  · exact ⟨_, rfl⟩

/-- A step answers a next state, or refuses a wide access at the head of the host's program. -/
theorem step_outcome (s : State) :
    (∃ t, step s = .next t) ∨
      ∃ arrive w a rest, s.host = ⟨arrive, .wide w a⟩ :: rest ∧ step s = .refused .wideAccess := by
  have access : ∀ (p : Pending) (rest : List Pending), s.host = p :: rest →
      step s = ({ s with host := rest } : State).perform p.op →
      (∃ t, step s = .next t) ∨
        ∃ arrive w a rest, s.host = ⟨arrive, .wide w a⟩ :: rest ∧ step s = .refused .wideAccess := by
    intro p rest hh hs
    obtain ⟨arrive, op⟩ := p
    rcases perform_outcome { s with host := rest } op with ⟨t, ht⟩ | ⟨w, a, rfl, hr⟩
    · exact .inl ⟨t, hs.trans ht⟩
    · exact .inr ⟨arrive, w, a, rest, hh, hs.trans hr⟩
  by_cases hq : s.engine.seq = .idle
  · obtain ⟨b, -, hs⟩ | ⟨p, rest, -, hh, hs⟩ | ⟨-, -, hs⟩ := step_idle_cases hq
    · obtain ⟨t, ht⟩ := sendWire_next s b
      exact .inl ⟨t, hs.trans ht⟩
    · exact access p rest hh hs
    · exact .inl ⟨s, hs⟩
  · obtain ⟨op, rest, hh, hs⟩ | ⟨host, -, hs⟩ := step_busy_cases hq
    · exact access ⟨some 0, op⟩ rest hh hs
    · exact .inl ⟨_, hs⟩

/-- Settles O14. -/
theorem noStepFaultsAndOnlyWideAccessIsRefused : Obligations.NoStepFaultsAndOnlyWideAccessIsRefused := by
  intro s
  rcases step_outcome s with ⟨t, ht⟩ | ⟨arrive, w, a, rest, hh, hr⟩
  · exact ⟨fun f h => by simp [ht] at h, fun r h => by simp [ht] at h⟩
  · refine ⟨fun f h => by simp [hr] at h, fun r h => ⟨?_, arrive, w, a, rest, hh⟩⟩
    cases hr.symm.trans h
    rfl

/-! ## The step that writes CMD or sends a wire byte -/

/-- A step that performs a write of CMD to an Idle engine. -/
theorem step_writeCmd {s : State} {v : Byte} {arrive : Option Nat} {rest : List Pending} (hq : s.engine.seq = .idle)
    (ht : s.engine.txByte = none) (hh : s.host = ⟨arrive, .wr 0x00 v⟩ :: rest) :
    step s = ({ s with host := rest } : State).writeCmd v := by
  rw [step_access_idle hq ht hh]
  have hcmd : regAt 0x00 = some .cmd := regAt_regAddr .cmd
  simp only [State.perform, hq, hcmd]

/-- Settles O4. -/
theorem stepRunsTheWrittenCommand : Obligations.StepRunsTheWrittenCommand := by
  intro s v i arrive rest hq ht hh hdue hv
  rw [step_writeCmd hq ht hh]
  simp [State.writeCmd, hv, hdue]

/-- Settles O5. -/
theorem stepSendsTheWaitingWireByte : Obligations.StepSendsTheWaitingWireByte := by
  intro s v i hq ht hv
  simp only [step, hq, ht, State.sendWire, hv]

/-- A legal opcode is accepted. -/
theorem issue_of_ok {s : State} {v : Byte} {i : Instr} (hv : decode .cmd8 v = .ok i) : s.issue v = s.accept v := by
  simp only [State.issue, hv]

/-- An illegal one completes at once (30_encoding.md R114). -/
theorem issue_of_error {s : State} {v : Byte} {e : DecodeError} (hv : decode .cmd8 v = .error e) :
    s.issue v = (s.accept v).finish { code := .illegalCmd } := by
  simp only [State.issue, hv]

/-- Settles O6: with an access due the write issues its command and no more. -/
theorem stepAcceptsACommandWithAnAccessDue : Obligations.StepAcceptsACommandWithAnAccessDue := by
  intro s v i arrive n op rest hq ht hh hv
  rw [step_writeCmd hq ht hh]
  simp only [State.writeCmd, hv, State.accessDue, if_true, issue_of_ok hv]
  rfl

/-- Settles O7: acceptance and commit in one step, with no slot between. -/
theorem illegalOpcodeOnlyReportsItself : Obligations.IllegalOpcodeOnlyReportsItself := by
  intro s v e arrive rest hq ht hh hv
  refine ⟨({ s with host := rest } : State).issue v, ?next, ?rest⟩
  case next =>
    rw [step_writeCmd hq ht hh]
    simp only [State.writeCmd, hv]
  case rest =>
    rw [issue_of_error hv]
    exact ⟨rfl, rfl, rfl, rfl, rfl, rfl, rfl, rfl, rfl⟩

/-! ## Reads and polls -/

/-- A slot event ends its slot, or moves to the slot's next position. -/
theorem slotEvent_cases (s : State) (k : SlotKind) :
    s.slotEvent k = s.openSlot.closeSlot k ∨ (∃ op, s.slotEvent k = (s.openSlot.lineOp op).closeSlot k) ∨
      ∃ op, s.slotEvent k =
        { s.openSlot.lineOp op with engine := { (s.openSlot.lineOp op).engine with pos := s.engine.pos + 1 } } := by
  cases hop : (k.ops s.params)[s.engine.pos]? with
  | none => exact .inl (by simp only [State.slotEvent, hop]; rfl)
  | some op =>
    rcases Nat.lt_or_ge (s.engine.pos + 1) (k.ops s.params).length with hlt | hge
    · exact .inr (.inr ⟨op, slotEvent_of_lt hop hlt⟩)
    · have hpos : s.engine.pos < (k.ops s.params).length := (List.getElem?_eq_some_iff.mp hop).1
      exact .inr (.inl ⟨op, slotEvent_of_last hop (by omega)⟩)

@[simp] theorem lineOp_cmdBefore (s : State) (op : LineOp) :
    (s.lineOp op).engine.cmdBefore = s.engine.cmdBefore := by cases op <;> rfl
@[simp] theorem openSlot_cmdBefore (s : State) : s.openSlot.engine.cmdBefore = s.engine.cmdBefore := by
  rw [openSlot_engine]
@[simp] theorem closeSlot_cmdBefore (s : State) (k : SlotKind) :
    (s.closeSlot k).engine.cmdBefore = s.engine.cmdBefore := by
  simp only [State.closeSlot, State.endSlot_engine]

@[simp] theorem slotEvent_params (s : State) (k : SlotKind) : (s.slotEvent k).params = s.params := by
  rcases slotEvent_cases s k with h | ⟨op, h⟩ | ⟨op, h⟩ <;> simp [h]
@[simp] theorem slotEvent_regs (s : State) (k : SlotKind) : (s.slotEvent k).regs = s.regs := by
  rcases slotEvent_cases s k with h | ⟨op, h⟩ | ⟨op, h⟩ <;> simp [h]
@[simp] theorem slotEvent_host (s : State) (k : SlotKind) : (s.slotEvent k).host = s.host := by
  rcases slotEvent_cases s k with h | ⟨op, h⟩ | ⟨op, h⟩ <;> simp [h]
@[simp] theorem slotEvent_cmdBefore (s : State) (k : SlotKind) :
    (s.slotEvent k).engine.cmdBefore = s.engine.cmdBefore := by
  rcases slotEvent_cases s k with h | ⟨op, h⟩ | ⟨op, h⟩ <;> simp [h]

/-- A slot event leaves the command in progress: the sequencer at most moves to its next slot. -/
theorem slotEvent_seq {s : State} {opc : Byte} {n : Nat} (hq : s.engine.seq = .busy opc n) (k : SlotKind) :
    ∃ m, (s.slotEvent k).engine.seq = .busy opc m := by
  rcases slotEvent_cases s k with h | ⟨op, h⟩ | ⟨op, h⟩ <;> simp [h, hq, Seq.nextSlot]

/-- An engine step commits the command in progress, or is an event of its current slot. -/
theorem engineStep_cases {s : State} {opc : Byte} {n : Nat} (hq : s.engine.seq = .busy opc n) :
    (∃ st, s.remaining opc = .done st ∧ s.engineStep = s.finish st) ∨
      ∃ k, s.currentSlot = some k ∧ s.engineStep = s.slotEvent k := by
  cases hr : s.remaining opc with
  | done st => exact .inl ⟨st, rfl, engineStep_done hq hr⟩
  | reset f => exact .inr ⟨.reset, by simp [State.currentSlot, hq, hr], engineStep_reset hq hr⟩
  | bit o f => exact .inr ⟨.bit o, by simp [State.currentSlot, hq, hr], engineStep_bit hq hr⟩

@[simp] theorem engineStep_host (s : State) : s.engineStep.host = s.host := by
  cases hq : s.engine.seq with
  | idle => rw [engineStep_idle hq]
  | busy opc n => obtain ⟨st, -, h⟩ | ⟨k, -, h⟩ := engineStep_cases hq <;> simp [h]

/-- Settles O10: a read is recorded; a poll is done, goes on waiting, or waits while the engine steps. -/
theorem readsHaveNoSideEffects : Obligations.ReadsHaveNoSideEffects := by
  intro s arrive rest
  refine ⟨fun a hh h => ?read, fun hh => ⟨fun hq ht => ?pollDone, fun hb ha => ?pollAgain, fun hb ha => ?waiting⟩⟩
  case read =>
    obtain ⟨hq, ht⟩ | ⟨hb, rfl⟩ := h
    · rw [step_access_idle hq ht hh]; rfl
    · rw [step_access_landing hb hh]; rfl
  case pollDone =>
    rw [step_access_idle hq ht hh]
    simp only [State.perform, hq]
  case pollAgain =>
    subst ha
    rw [step_access_landing hb hh]
    cases hq : s.engine.seq with
    | idle => exact absurd hq hb
    | busy opc k => simp only [State.perform, hq]
  case waiting =>
    subst ha
    cases hq : s.engine.seq with
    | idle => exact absurd hq hb
    | busy opc k =>
      exact ⟨s.engineStep, by simp only [step, hq, State.busyStep, hh], engineStep_host s⟩

/-! ## Registers as they read -/

theorem getLsbD_flagBit (b : Bool) {n m : Nat} (hn : n < 8) : (flagBit b n).getLsbD m = (b && decide (m = n)) := by
  cases b with
  | false => simp [flagBit]
  | true =>
    simp only [flagBit, if_true, ← BitVec.twoPow_eq, BitVec.getLsbD_twoPow, Bool.true_and]
    grind

/-- STATUS, bit by bit (10_state.md R33). -/
theorem getLsbD_status (s : State) (m : Nat) :
    s.status.getLsbD m =
      ((s.busy && decide (m = 0)) || (s.regs.done && decide (m = 1)) || (s.regs.pres && decide (m = 2)) ||
        (s.regs.cursor.sdone && decide (m = 3)) || (s.regs.ovr && decide (m = 4)) || (s.regs.cap && decide (m = 5))) := by
  simp only [State.status, BitVec.getLsbD_or, getLsbD_flagBit _ (show (0 : Nat) < 8 by decide),
    getLsbD_flagBit _ (show (1 : Nat) < 8 by decide), getLsbD_flagBit _ (show (2 : Nat) < 8 by decide),
    getLsbD_flagBit _ (show (3 : Nat) < 8 by decide), getLsbD_flagBit _ (show (4 : Nat) < 8 by decide),
    getLsbD_flagBit _ (show (5 : Nat) < 8 by decide)]

theorem busy_iff (s : State) : s.busy = true ↔ s.engine.seq ≠ .idle := by
  unfold State.busy
  cases s.engine.seq <;> simp

/-- Settles O12: each address names its register, which reads as `readReg` says. -/
theorem statusBitsReadWhereTheTableSays : Obligations.StatusBitsReadWhereTheTableSays := by
  intro s
  have hstatus : s.memRead 0x01 = s.status := memRead_regAddr s .status
  have hctrl : s.memRead 0x03 = flagBit s.regs.ie 0 := memRead_regAddr s .ctrl
  have hresult : s.memRead 0x02 = s.regs.result.bits.setWidth 8 := memRead_regAddr s .result
  have htemp : s.memRead 0x0B ++ s.memRead 0x0A = s.regs.temp := by
    rw [show s.memRead 0x0B = s.regs.temp.extractLsb' 8 8 from memRead_regAddr s .tempH,
      show s.memRead 0x0A = s.regs.temp.extractLsb' 0 8 from memRead_regAddr s .tempL]
    apply BitVec.eq_of_getLsbD_eq
    intro n hn
    rw [BitVec.getLsbD_append]
    grind
  refine ⟨?busy, ?done, ?pres, ?sdone, ?ovr, ?cap, busy_iff s, ?ie, ?codes, htemp, fun hq => ?cmdIdle,
    fun hb => ?cmdBusy, memRead_regAddr s .data, memRead_regAddr s .crc, memRead_regAddr s .sld,
    memRead_regAddr s .dirIdx, memRead_regAddr s .dirCnt, memRead_regAddr s .famEn,
    fun i => memRead_regAddr s (.fam i), fun k => memRead_regAddr s (.rom k), fun k => memRead_regAddr s (.spad k),
    fun i => memRead_regAddr s (.fcnt i)⟩
  case ie => rw [hctrl, getLsbD_flagBit _ (by decide)]; simp
  case codes =>
    intro c hc h
    rw [hresult, h]
    clear h
    revert c
    decide
  case cmdIdle => exact (memRead_regAddr s .cmd).trans (readCmd_idle hq)
  case cmdBusy => exact (memRead_regAddr s .cmd).trans (readCmd_busy hb)
  all_goals rw [hstatus, getLsbD_status]; simp

/-! ## The soft reset -/

/-- Settles O16. -/
theorem softResetRestoresPowerOn : Obligations.SoftResetRestoresPowerOn := by
  intro s v hv
  set t : State := { s with regs := { s.regs with ie := v.getLsbD 0 } } with ht
  have hw : s.memWrite 0x03 v = t.softReset := by
    rw [memWrite_ctrl, State.writeCtrl, if_pos hv]
  rw [hw]
  refine ⟨rfl, rfl, rfl, State.softReset_params t, ?host, ?reads, fun hpos => ?between, fun hpos => ?inside⟩
  case host => unfold State.softReset; split <;> simp [ht]
  case reads => unfold State.softReset; split <;> simp [ht]
  case between =>
    have hp : t.engine.pos = 0 := hpos
    unfold State.softReset
    rw [if_pos hp]
    exact ⟨rfl, rfl, rfl⟩
  case inside =>
    have hp : ¬t.engine.pos = 0 := Nat.ne_of_gt hpos
    unfold State.softReset
    rw [if_neg hp]
    refine ⟨rfl, rfl, fun b hr hb => ?_⟩
    simp [State.restoreHostI_hostI, ht, hr, hb]

/-! ## Results during a command -/

/-- Registers that differ in OVR and IE at most read the same everywhere but in STATUS and CTRL. -/
theorem memRead_congr {s t : State} {o e : Bool} (hr : t.regs = { s.regs with ovr := o, ie := e })
    (hc : t.readCmd = s.readCmd) {a : Byte} (h1 : a ≠ 0x01) (h3 : a ≠ 0x03) : t.memRead a = s.memRead a := by
  cases ha : regAt a with
  | none => rw [memRead_none _ ha, memRead_none _ ha]
  | some r =>
    rw [memRead_some _ ha, memRead_some _ ha]
    have hra := regAddr_of_regAt ha
    cases r with
    | status => exact absurd hra.symm h1
    | ctrl => exact absurd hra.symm h3
    | cmd => exact hc
    | _ => simp only [State.readReg, hr]

/-- STATUS but for OVR. -/
theorem status_and_congr {s t : State} {o e : Bool} (hr : t.regs = { s.regs with ovr := o, ie := e })
    (hb : t.busy = s.busy) : t.status &&& 0xEF = s.status &&& 0xEF := by
  have hovr : ∀ b : Bool, flagBit b 4 &&& 0xEF = 0#8 := fun b => flagBit_and_eq_zero b rfl
  simp only [State.status, BitVec.and_or_distrib_right, hr, hb, hovr]

/-- What a step that leaves the command in progress keeps. -/
structure StaysInProgress (s t : State) : Prop where
  regs : ∃ o e, t.regs = { s.regs with ovr := o, ie := e }
  busy : t.busy = s.busy
  cmdBefore : t.engine.cmdBefore = s.engine.cmdBefore

/-- A step with a command in progress leaves it in progress, or ends it with DONE set, or is a soft reset. -/
theorem step_busy_progress {s t : State} (hb : s.engine.seq ≠ .idle) (ht : step s = .next t) :
    StaysInProgress s t ∨ t.engine.seq = .idle ∧ (t.regs.done = true ∨ t.regs = Regs.reset) := by
  obtain ⟨opc, n, hq⟩ : ∃ opc n, s.engine.seq = .busy opc n := by
    cases hq : s.engine.seq with
    | idle => exact absurd hq hb
    | busy opc n => exact ⟨opc, n, rfl⟩
  have hbusy : s.busy = true := (busy_iff s).mpr hb
  obtain ⟨op, rest, -, hs⟩ | ⟨host, -, hs⟩ := step_busy_cases hb
  · rw [hs] at ht
    cases op with
    | rd a => cases ht; exact .inl ⟨⟨_, _, rfl⟩, rfl, rfl⟩
    | wait =>
      simp only [State.perform, hq] at ht
      cases ht
      exact .inl ⟨⟨_, _, rfl⟩, by simp [State.busy, hq], rfl⟩
    | wide w a => cases ht
    | wr a v =>
      rw [perform_wr (s := { s with host := rest }) v (.inl hb)] at ht
      cases ht
      by_cases hc : regAt a = some .ctrl
      · rw [State.memWrite, if_pos hc, State.writeCtrl]
        split
        · exact .inr ⟨rfl, .inr rfl⟩
        · exact .inl ⟨⟨_, _, rfl⟩, rfl, rfl⟩
      · rw [memWrite_busy (s := { s with host := rest }) v hb hc]
        exact .inl ⟨⟨true, s.regs.ie, rfl⟩, rfl, rfl⟩
  · cases hs.symm.trans ht
    obtain ⟨st, -, h⟩ | ⟨k, -, h⟩ := engineStep_cases (s := { s with host := host }) hq
    · rw [h]; exact .inr ⟨rfl, .inl rfl⟩
    · obtain ⟨m, hm⟩ := slotEvent_seq (s := { s with host := host }) hq k
      rw [h]
      exact .inl ⟨⟨s.regs.ovr, s.regs.ie, slotEvent_regs _ k⟩, by simp [State.busy, hm, hq], slotEvent_cmdBefore _ k⟩

/-- Acceptance changes what STATUS reads in BUSY and DONE alone. -/
theorem status_accept {s : State} (hq : s.engine.seq = .idle) (v : Byte) :
    (s.accept v).status = (s.status &&& 0xFC) ||| 0x01 := by
  have key : ∀ done pres sdone ovr cap : Bool,
      flagBit true 0 ||| flagBit false 1 ||| flagBit pres 2 ||| flagBit sdone 3 ||| flagBit ovr 4 ||| flagBit cap 5 =
        ((flagBit false 0 ||| flagBit done 1 ||| flagBit pres 2 ||| flagBit sdone 3 ||| flagBit ovr 4 |||
          flagBit cap 5) &&& 0xFC) ||| 0x01 := by decide
  have hb : s.busy = false := by simp [State.busy, hq]
  rw [State.status, State.status, hb]
  exact key s.regs.done s.regs.pres s.regs.cursor.sdone s.regs.ovr s.regs.cap

/-- Acceptance changes what no other address reads. -/
theorem memRead_accept {s : State} (hq : s.engine.seq = .idle) (v : Byte) {a : Byte} (h1 : a ≠ 0x01) :
    (s.accept v).memRead a = s.memRead a := by
  cases ha : regAt a with
  | none => rw [memRead_none _ ha, memRead_none _ ha]
  | some r =>
    rw [memRead_some _ ha, memRead_some _ ha]
    cases r with
    | status => exact absurd (regAddr_of_regAt ha).symm h1
    | cmd => exact (readCmd_busy (s := s.accept v) (by simp)).trans (readCmd_idle hq).symm
    | _ => rfl

/-- Settles O56. -/
theorem resultsStayInvisibleUntilTheCommit : Obligations.ResultsStayInvisibleUntilTheCommit := by
  refine ⟨fun s v a i hq hv => ?acceptance, fun s t hb ht => ⟨fun htb => ?stays, fun htb => ?ends⟩⟩
  case acceptance =>
    rw [issue_of_ok hv]
    split
    · rename_i ha
      subst ha
      rw [show (0x01 : Byte) = regAddr .status from rfl, memRead_regAddr, memRead_regAddr]
      exact status_accept hq v
    · rename_i ha
      exact memRead_accept hq v ha
  case stays =>
    have hidle : t.engine.seq ≠ .idle := (busy_iff t).mp htb
    obtain ⟨⟨o, e, hr⟩, hbusy, hcmd⟩ | ⟨hq, -⟩ := step_busy_progress ((busy_iff s).mp hb) ht
    · have hread : t.readCmd = s.readCmd := by
        rw [readCmd_busy hidle, readCmd_busy ((busy_iff s).mp hb), hcmd]
      refine ⟨⟨o, e, hr⟩, fun a h1 h3 => memRead_congr hr hread h1 h3, ?_⟩
      rw [show (0x01 : Byte) = regAddr .status from rfl, memRead_regAddr, memRead_regAddr]
      exact status_and_congr hr hbusy
    · exact absurd hq hidle
  case ends =>
    obtain ⟨-, hbusy, -⟩ | ⟨-, h⟩ := step_busy_progress ((busy_iff s).mp hb) ht
    · simp [hbusy, hb] at htb
    · exact h

/-! ## What a command may write -/

/-- The staged registers a command may write (30_encoding.md R115). -/
structure StagedBy (i : Instr) (st : Staged) : Prop where
  pres : i ∉ [.owrst, .srchnext, .enum, .select, .convt, .rdtemp] → st.pres = none
  data : i ∉ [.owbit, .owbyte] → st.data = none
  crc : i ∉ [.crcclr, .crcbyte] → st.crc = none
  cursor : i ∉ [.srchrst, .srchnext, .enum] → st.cursor = none
  rom : i ∉ [.srchnext, .dirld] → st.rom = none
  spad : i ≠ .rdtemp → st.spad = none
  temp : i ∉ [.rdtemp, .decode] → st.temp = none
  dir : i ≠ .enum → st.found = none ∧ st.dirCnt = none ∧ st.fcnt = none ∧ st.cap = none

/-- ENUM stages neither DATA, CRC, ROM, SPAD nor TEMP, whatever the parameters. -/
theorem enumLoop_stagedBy (p : Params) (keep : PassResult → Option (Fin 4 × Addr)) (m : Nat) (c : Cursor)
    (pres : Option Bool) (found : List Addr) (counts : Vector Byte 4) :
    (enumLoop p keep m c pres found counts).All (StagedBy .enum) := by
  have hfail : ∀ code c pres, StagedBy .enum (enumFail code c pres) := by
    intros; constructor <;> simp [enumFail]
  have hdone : ∀ c pres found counts, StagedBy .enum (enumDone p c pres found counts) := by
    intros; constructor <;> simp [enumDone]
  induction m generalizing c pres found counts with
  | zero => exact hfail _ _ _
  | succ m ih =>
    refine Proc.all_bind fun res => ?_
    split
    · exact hfail _ _ _
    · split
      · split
        · exact hdone _ _ _ _
        · exact ih _ _ _ _
      · split
        · exact hdone _ _ _ _
        · exact ih _ _ _ _

/-- Whatever the bus answers, a command stages only the registers of its row. -/
theorem procOf_stagedBy (i : Instr) (p : Params) (r : Regs) : (procOf i p r).All (StagedBy i) := by
  cases i with
  | owrst => exact Proc.all_bind fun _ => by constructor <;> simp
  | owbit => exact fun _ => by constructor <;> simp
  | owbyte => exact Proc.all_bind fun _ => by constructor <;> simp
  | srchrst => constructor <;> simp
  | srchnext => exact Proc.all_bind fun _ => by constructor <;> simp [srchnextStaged]
  | enum => exact enumLoop_stagedBy p _ _ _ _ _ _
  | dirld =>
    unfold procOf procDirld
    dsimp only
    split <;> constructor <;> simp
  | select => exact Proc.all_bind fun _ => by constructor <;> simp
  | convt =>
    refine Proc.all_bind fun t => ?_
    split
    · constructor <;> simp
    · exact Proc.all_bind fun _ => by constructor <;> simp
  | rdtemp =>
    refine Proc.all_bind fun t => ?_
    split
    · constructor <;> simp
    · exact Proc.all_bind fun _ => Proc.all_bind fun sp => by constructor <;> simp [rdtempStaged]
  | crcclr => constructor <;> simp
  | crcbyte => constructor <;> simp
  | decode => constructor <;> simp
  | searchRom => constructor <;> simp
  | matchRom => constructor <;> simp
  | convertT => constructor <;> simp
  | readScratchpad => constructor <;> simp

/-- Settles O54: the commit writes what is staged and no more. -/
theorem commandsWriteOnlyTheirRegisters : Obligations.CommandsWriteOnlyTheirRegisters := by
  intro i s hi hq
  obtain ⟨t, hexec, hafter, hregs, -⟩ := exec_cmd8_idle hi hq rfl
  have hst := (procOf_stagedBy i s.params (s.regs.accept (encode i))).run (s.accept (encode i))
  generalize ((procOf i s.params (s.regs.accept (encode i))).run (s.accept (encode i))).1 = st at hregs hst
  refine ⟨t, hexec, hafter, ?_⟩
  rw [hregs]
  refine ⟨rfl, rfl, rfl, rfl, rfl, rfl, rfl, fun h => ?_, fun h => ?_, fun h => ?_, fun h => ?_, fun h => ?_,
    fun h => ?_, fun h => ?_, fun h => ?_⟩
  · simp [Regs.commit, Regs.accept, hst.pres h]
  · simp [Regs.commit, Regs.accept, hst.data h]
  · simp [Regs.commit, Regs.accept, hst.crc h]
  · simp [Regs.commit, Regs.accept, hst.cursor h]
  · simp [Regs.commit, Regs.accept, hst.rom h]
  · simp [Regs.commit, Regs.accept, hst.spad h]
  · simp [Regs.commit, Regs.accept, hst.temp h]
  · obtain ⟨h1, h2, h3, h4⟩ := hst.dir h
    simp [Regs.commit, Regs.accept, h1, h2, h3, h4]

end Sys2Proof.Machine

/-! The Bus Transport: fixed draws, bits and bytes exchanged (41_transport.md R145-R152, 45_bus_environment.md R280-R283),
and the wire bytes (30_encoding.md R117). -/

namespace Sys2Proof.Machine

/-! ## Fixed draws -/

/-- A draw fixed in advance is the next answer (R280; log entry 2). -/
theorem Bus.draw_some {b : Bus} {v : Bool} {rest : List (Option Bool)} (h : b.script = some v :: rest)
    (pt : SamplePoint) : b.draw pt = (v, { b with script := rest }) := by
  simp only [Bus.draw, h]

@[simp] theorem Bus.afterSlot_script (b : Bus) (k : SlotKind) : (b.afterSlot k).script = b.script := by cases k <;> rfl
@[simp] theorem Bus.afterSlot_drawn (b : Bus) (k : SlotKind) : (b.afterSlot k).drawn = b.drawn := by cases k <;> rfl

/-- Settles O19: the presence sample takes the first draw, the stuck-line sample the second. -/
theorem resetSamplesAreTheNextTwoDraws : Obligations.ResetSamplesAreTheNextTwoDraws := by
  intro s p q rest hs hscript
  obtain ⟨t, hexec, -, -, hline, hbus⟩ :=
    exec_cmd8_idle (i := .owrst) rfl hs (procOwrst_run s.params (s.regs.accept 0x01) (s.accept 0x01))
  have hp : (s.accept 0x01).bus.draw .presence = (p, { s.bus with script := some q :: rest }) := Bus.draw_some hscript _
  have hq : Bus.draw { s.bus with script := some q :: rest } .stuck = (q, { s.bus with script := rest }) :=
    Bus.draw_some rfl _
  refine ⟨t, hexec, ?trace, ?script⟩
  case trace =>
    rw [hline, resetSlot_trace, resetSlot_samples, hp, hq]
    rfl
  case script => rw [hbus, resetSlot_bus, hp, hq, Bus.afterSlot_script]

/-- Settles O23. -/
theorem zeroSlotReadsZeroWithoutADraw : Obligations.ZeroSlotReadsZeroWithoutADraw := by
  intro s
  rw [bitSlot_zero_bus, Bus.afterSlot_script, Bus.afterSlot_drawn]
  exact ⟨bitSlot_zero s, rfl, rfl⟩

/-! ## OWBIT and OWBYTE -/

/-- Settles O20. -/
theorem owbitExchangesOneBit : Obligations.OwbitExchangesOneBit := by
  intro s hs
  obtain ⟨t, hexec, hframe, hregs, hline, -⟩ := exec_cmd8_idle (i := .owbit) rfl hs rfl
  refine ⟨t, ((s.accept 0x02).bitSlot (s.regs.data.getLsbD 0)).1, hexec, hframe, fun h0 => ?zero, hregs, ?trace, ?slots⟩
  case zero => rw [h0, bitSlot_zero]
  case trace => rw [hline]; exact bitSlot_trace (s.accept 0x02) (s.regs.data.getLsbD 0)
  case slots => rw [hline]; exact bitSlot_slots (s.accept 0x02) (s.regs.data.getLsbD 0)

/-- OWBYTE exchanges DATA and stages what it received (R152). -/
theorem procOwbyte_run (c : Params) (r : Regs) (s : State) :
    (procOwbyte c r).run s =
      ({ code := .ok, data := some ((byteXchg r.data).run s).1 }, ((byteXchg r.data).run s).2) :=
  Proc.run_bind _ _ s

/-- Settles O21. -/
theorem owbyteExchangesEightBits : Obligations.OwbyteExchangesEightBits := by
  intro s hs
  obtain ⟨t, hexec, hframe, hregs, hline, -⟩ :=
    exec_cmd8_idle (i := .owbyte) rfl hs (procOwbyte_run s.params (s.regs.accept 0x03) (s.accept 0x03))
  obtain ⟨c, hc, hmask, htrace, hslots⟩ := byteXchg_run s.regs.data (s.accept 0x03)
  refine ⟨t, c, hexec, hframe, hmask, ?regs, ?trace, ?slots⟩
  case regs => rw [hregs, Regs.commit_data, ← hc]; rfl
  case trace => rw [hline]; exact htrace
  case slots => rw [hline]; exact hslots

/-! ## Bytes read -/

/-- A byte with bit `j` set if a sample is 1. -/
theorem getLsbD_setBit (c : Byte) (j n : Nat) (i : Bool) (hj : j < 8) (hc : c.getLsbD j = false) :
    (if i then c ||| (1#8 <<< j) else c).getLsbD n = if n = j then i else c.getLsbD n := by
  cases i with
  | false =>
    by_cases h : n = j
    · simp [h, hc]
    · simp [h]
  | true =>
    simp only [if_true, ← BitVec.twoPow_eq, BitVec.getLsbD_or, BitVec.getLsbD_twoPow]
    by_cases h : n = j
    · simp [h, hj]
    · have h' : ¬j = n := fun e => h e.symm
      simp [h, h']

section Reading

variable {I : Nat → State → Prop} {a : Nat → Bool}

/-- The bits read from bit `j` on, where each read at position `n` of a run answers `a n` (R147). -/
theorem xchgBits_read (n₀ : Nat)
    (hstep : ∀ n s, n₀ ≤ n → n < n₀ + 8 → I n s → (s.bitSlot true).1 = a n ∧ I (n + 1) (s.bitSlot true).2)
    (m j : Nat) (c : Byte) (s : State) (hj : j + m = 8) (hc : ∀ n, j ≤ n → c.getLsbD n = false) (hs : I (n₀ + j) s) :
    (∀ n, n < 8 → ((xchgBits 0xFF m j c).run s).1.getLsbD n = if n < j then c.getLsbD n else a (n₀ + n)) ∧
      I (n₀ + 8) ((xchgBits 0xFF m j c).run s).2 := by
  induction m generalizing j c s with
  | zero =>
    obtain rfl : j = 8 := by omega
    exact ⟨fun n hn => by rw [if_pos hn]; rfl, hs⟩
  | succ m ih =>
    obtain ⟨hans, hnext⟩ := hstep (n₀ + j) s (by omega) (by omega) hs
    have hones : ∀ j < 8, BitVec.getLsbD (0xFF : Byte) j = true := by decide
    have hone := hones j (by omega)
    set c' : Byte := if a (n₀ + j) then c ||| (1#8 <<< j) else c with hc'
    have hbit := fun n => getLsbD_setBit c j n (a (n₀ + j)) (by omega) (hc j (le_refl j))
    have hrun : (xchgBits 0xFF (m + 1) j c).run s = (xchgBits 0xFF m (j + 1) c').run (s.bitSlot true).2 := by
      rw [xchgBits, Proc.run_bit, hone, hans]
    obtain ⟨hread, hlast⟩ := ih (j + 1) c' (s.bitSlot true).2 (by omega)
      (fun n hn => by rw [hc', hbit, if_neg (by omega), hc n (by omega)]) hnext
    rw [hrun]
    refine ⟨fun n hn => ?_, hlast⟩
    rw [hread n hn, hc', hbit]
    rcases lt_trichotomy n j with h | rfl | h
    · rw [if_pos (by omega), if_neg (by omega), if_pos h]
    · rw [if_pos (by omega), if_pos rfl, if_neg (lt_irrefl n)]
    · rw [if_neg (by omega), if_neg (by omega)]

/-- A byte read: bit `n` is the `n`-th answer (20_memory.md R86). -/
theorem readByte_read (n₀ : Nat)
    (hstep : ∀ n s, n₀ ≤ n → n < n₀ + 8 → I n s → (s.bitSlot true).1 = a n ∧ I (n + 1) (s.bitSlot true).2)
    (s : State) (hs : I n₀ s) :
    (∀ n, n < 8 → (readByte.run s).1.getLsbD n = a (n₀ + n)) ∧ I (n₀ + 8) (readByte.run s).2 := by
  obtain ⟨hread, hlast⟩ := xchgBits_read n₀ hstep 8 0 0 s rfl (fun n _ => by simp) hs
  exact ⟨fun n hn => by rw [readByte, byteXchg, hread n hn]; rfl, hlast⟩

/-- Bytes read into a scratchpad: bit `n` is the `n`-th answer (20_memory.md R87, 43_sensor.md R230). -/
theorem readBytes_read
    (hstep : ∀ n s, n < 72 → I n s → (s.bitSlot true).1 = a n ∧ I (n + 1) (s.bitSlot true).2)
    (m k : Nat) (acc : Scratchpad) (s : State) (hk : k + m ≤ 9) (hs : I (8 * k) s) :
    (∀ n, n < 72 → ((readBytes m k acc).run s).1.getLsbD n =
      if 8 * k ≤ n ∧ n < 8 * (k + m) then a n else acc.getLsbD n) ∧
      I (8 * (k + m)) ((readBytes m k acc).run s).2 := by
  induction m generalizing k acc s with
  | zero => exact ⟨fun n _ => by rw [if_neg (by omega)]; rfl, hs⟩
  | succ m ih =>
    obtain ⟨hbyte, hnext⟩ := readByte_read (8 * k) (fun n s _ hn h => hstep n s (by omega) h) s hs
    have hrun : (readBytes (m + 1) k acc).run s =
        (readBytes m (k + 1) (setByte acc k (readByte.run s).1)).run (readByte.run s).2 := Proc.run_bind _ _ s
    obtain ⟨hread, hlast⟩ := ih (k + 1) (setByte acc k (readByte.run s).1) (readByte.run s).2 (by omega) hnext
    rw [hrun, show k + (m + 1) = k + 1 + m by omega]
    refine ⟨fun n hn => ?_, hlast⟩
    rw [hread n hn, getLsbD_setByte _ _ _ _ hn]
    by_cases h1 : n < 8 * k
    · rw [if_neg (by omega), if_neg (by omega), if_neg (by omega)]
    · by_cases h2 : n < 8 * k + 8
      · rw [if_neg (by omega), if_pos (by omega), if_pos (by omega), hbyte _ (by omega), Nat.add_sub_cancel' (by omega)]
      · by_cases h3 : n < 8 * (k + 1 + m)
        · rw [if_pos (by omega), if_pos (by omega)]
        · rw [if_neg (by omega), if_neg (by omega), if_neg (by omega)]

end Reading

/-- Settles O22: each bit slot of the read takes the next fixed draw. -/
theorem answersArriveLsbFirst : Obligations.AnswersArriveLsbFirst := by
  intro s bs rest hs hdata hlen hscript
  obtain ⟨t, hexec, -, hregs, -, hbus⟩ :=
    exec_cmd8_idle (i := .owbyte) rfl hs (procOwbyte_run s.params (s.regs.accept 0x03) (s.accept 0x03))
  have hstep : ∀ (n : Nat) (u : State), 0 ≤ n → n < 0 + 8 → u.bus.script = (bs.drop n).map some ++ rest →
      (u.bitSlot true).1 = bs.getD n false ∧
        (u.bitSlot true).2.bus.script = (bs.drop (n + 1)).map some ++ rest := by
    intro n u _ hn hu
    have hlt : n < bs.length := by omega
    rw [List.drop_eq_getElem_cons hlt, List.map_cons, List.cons_append] at hu
    rw [bitSlot_one, bitSlot_one_bus, Bus.draw_some hu, Bus.afterSlot_script]
    exact ⟨by simp [hlt], rfl⟩
  obtain ⟨hread, hlast⟩ := readByte_read 0 hstep (s.accept 0x03) hscript
  have hsent : (s.regs.accept 0x03).data = 0xFF := hdata
  rw [hsent] at hregs hbus
  refine ⟨t, hexec, ?script, fun j hj => ?bit⟩
  case script =>
    have hdrop : bs.drop (0 + 8) = [] := List.drop_of_length_le (by omega)
    rw [hbus]
    simpa [hdrop, readByte] using hlast
  case bit =>
    have hd : t.regs.data = (readByte.run (s.accept 0x03)).1 := by rw [hregs, Regs.commit_data]; rfl
    rw [hd, hread j hj, Nat.zero_add]
    simp [show j < bs.length by omega]

/-! ## Wire bytes -/

/-- Slots run with the line released leave it released. -/
theorem Proc.run_ldOut {α : Type} (p : Proc α) {s : State} (h : s.engine.ldOut = .released) :
    (p.run s).2.engine.ldOut = .released := by
  rcases (p.run_onlyLine s).rest with e | e
  · rw [e, h]
  · rw [e]; rfl

/-- A byte sent leaves the line released, whatever it was before: the first of its slots does. -/
theorem sendByte_ldOut (b : Byte) (s : State) : ((sendByte b).run s).2.engine.ldOut = .released := by
  have hfirst : (s.bitSlot (b.getLsbD 0)).2.engine.ldOut = .released := by rw [bitSlot_engine]; rfl
  change (Proc.run _ (s.bitSlot (b.getLsbD 0)).2).2.engine.ldOut = .released
  exact Proc.run_ldOut _ hfirst

/-- Settles O53. -/
theorem wireBytesAreExchangedOnTheLine : Obligations.WireBytesAreExchangedOnTheLine := by
  intro i s hi
  obtain ⟨r, htrace, hslots⟩ := sendByte_run (encode i) s
  have hline := (sendByte (encode i)).run_onlyLine s
  rw [exec_wire8 i hi]
  exact ⟨_, r, rfl, hline.regs, hline.params, hline.hostI, hline.host, hline.reads, hline.seq, sendByte_ldOut _ s,
    htrace, hslots⟩

end Sys2Proof.Machine

/-! The CRC and the decode as functions (44_crc_decode.md R250-R268), and the family filter (42_search.md R196). -/

namespace Sys2Proof.Machine

/-! ## The CRC -/

/-- The shift of R250 undone: its top bit says which way it went. -/
def crc8Unshift (c : Byte) : Byte := if c.getLsbD 7 then ((c ^^^ 0x8C) <<< 1) ||| 1 else c <<< 1

theorem crc8Unshift_leftInverse : Function.LeftInverse crc8Unshift crc8Shift := by
  intro c; revert c; decide

theorem crc8Step_injective : Function.Injective crc8Step :=
  crc8Unshift_leftInverse.injective.iterate 8

/-- A byte folded in is determined by what it makes of the accumulator. -/
theorem crc8Update_right_injective (c : Byte) : Function.Injective (crc8Update c) := fun a b h => by
  simpa using crc8Step_injective h

/-- So is the accumulator by what the byte makes of it. -/
theorem crc8Update_left_injective (x : Byte) : Function.Injective (crc8Update · x) := fun a b h => by
  simpa using crc8Step_injective h

/-- And by what a byte string makes of it. -/
theorem foldl_crc8Update_injective (xs : List Byte) : Function.Injective (xs.foldl crc8Update) := by
  induction xs with
  | nil => exact Function.injective_id
  | cons x xs ih => exact ih.comp (crc8Update_left_injective x)

/-- Settles O46: folding a byte in gives 0x00 for the accumulator's own value, and for no other byte. -/
theorem crcResidueIsZeroExactlyOnTheCheckByte : Obligations.CrcResidueIsZeroExactlyOnTheCheckByte := by
  intro xs y
  have happ : crc8 (xs ++ [y]) = crc8Update (crc8 xs) y := by simp [crc8]
  rw [happ, ← crc8Update_self (crc8 xs), (crc8Update_right_injective (crc8 xs)).eq_iff]
  exact eq_comm

/-- Byte strings that differ in one byte have different CRCs. -/
theorem crc8_set_ne {xs : List Byte} {k : Nat} (hk : k < xs.length) {y : Byte} (hy : y ≠ xs[k]) :
    crc8 (xs.set k y) ≠ crc8 xs := by
  intro h
  have hxs : xs = xs.take k ++ xs[k] :: xs.drop (k + 1) := by
    rw [← List.drop_eq_getElem_cons hk, List.take_append_drop]
  rw [List.set_eq_take_append_cons_drop, if_pos hk] at h
  conv_rhs at h => rw [hxs]
  simp only [crc8, List.foldl_append, List.foldl_cons] at h
  exact hy (crc8Update_right_injective _ (foldl_crc8Update_injective _ h))

/-- The byte of a block with one bit flipped. -/
theorem getLsbD_byteOf_flip (b : Scratchpad) {n j m : Nat} (hj : j < 9) (hm : m < 8) :
    (byteOf (b ^^^ (1#72 <<< n)) j).getLsbD m = (b.getLsbD (8 * j + m) ^^ decide (8 * j + m = n)) := by
  rw [getLsbD_byteOf _ _ _ hm, BitVec.getLsbD_xor, ← BitVec.twoPow_eq, BitVec.getLsbD_twoPow]
  congr 1
  rw [Bool.eq_iff_iff]
  simp only [Bool.and_eq_true, decide_eq_true_eq]
  omega

/-- Settles O47: the flip changes one byte of the block, and the CRC tells the two blocks apart. -/
theorem crcDetectsEverySingleBitFlip : Obligations.CrcDetectsEverySingleBitFlip := by
  intro b hb n hn
  have hk : n / 8 < (bytesOf b 9).length := by simp [bytesOf]; omega
  have hset : bytesOf (b ^^^ (1#72 <<< n)) 9 = (bytesOf b 9).set (n / 8) (byteOf (b ^^^ (1#72 <<< n)) (n / 8)) := by
    refine List.ext_getElem (by simp [bytesOf]) fun j hj _ => ?_
    have hj9 : j < 9 := by simpa [bytesOf] using hj
    rw [List.getElem_set]
    split
    · rename_i hjn
      subst hjn
      simp [bytesOf]
    · rename_i hjn
      simp only [bytesOf, List.getElem_map, List.getElem_range]
      apply BitVec.eq_of_getLsbD_eq
      intro m hm
      rw [getLsbD_byteOf_flip b hj9 hm, getLsbD_byteOf _ _ _ hm]
      simp [show ¬8 * j + m = n by omega]
  have hne : byteOf (b ^^^ (1#72 <<< n)) (n / 8) ≠ (bytesOf b 9)[n / 8] := by
    intro h
    have hbit := congrArg (·.getLsbD (n % 8)) h
    simp only [bytesOf, List.getElem_map, List.getElem_range] at hbit
    rw [getLsbD_byteOf_flip b (by omega) (by omega), getLsbD_byteOf _ _ _ (by omega)] at hbit
    simp [show 8 * (n / 8) + n % 8 = n by omega] at hbit
  rw [hset, ← hb]
  exact crc8_set_ne hk hne

/-- Settles O48: the four strings evaluated. -/
theorem crcReferenceValues : Obligations.CrcReferenceValues :=
  ⟨by decide +kernel, by decide +kernel, by decide +kernel, by decide +kernel⟩

/-! ## The decode -/

/-- The weight of the lowest bit a resolution keeps (R261). -/
def resolutionUnit (f : BitVec 2) : Nat :=
  match f with
  | 0b00#2 => 8
  | 0b01#2 => 4
  | 0b10#2 => 2
  | 0b11#2 => 1

/-- A mask of high ones clears the low bits. -/
theorem and_high_mask {n : Nat} (hn : n < 2 ^ 16) (k : Nat) (hk : k ≤ 16) :
    n &&& (2 ^ 16 - 2 ^ k) = n - n % 2 ^ k := by
  have hmask : 2 ^ 16 - 2 ^ k = (2 ^ (16 - k) - 1) <<< k := by
    rw [Nat.shiftLeft_eq, Nat.sub_mul, ← pow_add, Nat.sub_add_cancel hk, one_mul]
  have hhigh : n - n % 2 ^ k = (n / 2 ^ k) <<< k := by
    rw [Nat.shiftLeft_eq]
    have := Nat.div_add_mod n (2 ^ k)
    rw [mul_comm] at this
    omega
  rw [hmask, hhigh]
  apply Nat.eq_of_testBit_eq
  intro i
  simp only [Nat.testBit_and, Nat.testBit_shiftLeft, Nat.testBit_two_pow_sub_one, Nat.testBit_div_two_pow]
  by_cases hik : k ≤ i
  · rw [Nat.sub_add_cancel hik]
    by_cases hi : i < 16
    · simp [hik, show i - k < 16 - k by omega]
    · have hz : n.testBit i = false :=
        Nat.testBit_lt_two_pow (lt_of_lt_of_le hn (Nat.pow_le_pow_right (by decide) (by omega)))
      simp [hz]
  · simp [hik]

/-- The magnitude of a raw reading. -/
theorem natAbs_toInt_le (raw : BitVec 16) : raw.toInt.natAbs ≤ 32768 := by
  have h1 := BitVec.le_toInt raw
  have h2 := BitVec.toInt_lt (x := raw)
  simp at h1 h2
  omega

/-- The masked magnitude: what the resolution does not keep is taken off (R260, R261). -/
theorem measure_eq (raw : BitVec 16) (cfg : Byte) :
    measure raw cfg = raw.toInt.natAbs - raw.toInt.natAbs % resolutionUnit (resolutionField cfg) := by
  have hlt : raw.toInt.natAbs < 2 ^ 16 := lt_of_le_of_lt (natAbs_toInt_le raw) (by decide)
  have hf : resolutionField cfg = 0b00#2 ∨ resolutionField cfg = 0b01#2 ∨ resolutionField cfg = 0b10#2 ∨
      resolutionField cfg = 0b11#2 := by
    generalize resolutionField cfg = f
    revert f; decide
  unfold measure
  rcases hf with hf | hf | hf | hf <;> rw [hf]
  · exact and_high_mask hlt 3 (by decide)
  · exact and_high_mask hlt 2 (by decide)
  · exact and_high_mask hlt 1 (by decide)
  · exact and_high_mask hlt 0 (by decide)

/-- The decoded value written out (R259, R263, R264). -/
theorem decodeTenths_eq (raw : BitVec 16) (cfg : Byte) :
    decodeTenths raw cfg =
      if raw.toInt < 0 then -((measure raw cfg / 16 * 10 + measure raw cfg % 16 * 640 / 1024 : Nat) : Int)
      else ((measure raw cfg / 16 * 10 + (measure raw cfg % 16 * 640 + 512) / 1024 : Nat) : Int) := by
  have hlow : measure raw cfg &&& 0x0F = measure raw cfg % 16 := Nat.and_two_pow_sub_one_eq_mod _ 4
  have hhigh : measure raw cfg >>> 4 = measure raw cfg / 16 := Nat.shiftRight_eq_div_pow _ 4
  unfold decodeTenths tenths fractionTenths
  rw [hlow, hhigh]
  by_cases hneg : raw.toInt < 0 <;> simp [hneg]

/-- The configuration byte's bits 6 and 5 give the unit (R262). -/
theorem resolutionUnit_eq (cfg : Byte) :
    resolutionUnit (resolutionField cfg) =
      if cfg.getLsbD 6 then (if cfg.getLsbD 5 then 1 else 2) else (if cfg.getLsbD 5 then 4 else 8) := by
  revert cfg; decide

/-- Settles O49. -/
theorem decodeMasksSplitsAndRoundsTheMagnitude : Obligations.DecodeMasksSplitsAndRoundsTheMagnitude := by
  intro raw cfg
  refine ⟨measure raw cfg, _, resolutionUnit_eq cfg, ?_, decodeTenths_eq raw cfg⟩
  rw [measure_eq, Nat.cast_sub (Nat.mod_le _ _), Int.natCast_mod, Int.natCast_natAbs]

/-- Settles O52: the magnitude is at most 2^15. -/
theorem decodeIntermediatesFit : Obligations.DecodeIntermediatesFit := by
  intro raw cfg
  have hm : measure raw cfg ≤ 32768 := Nat.and_le_left.trans (natAbs_toInt_le raw)
  have hpos : ¬raw.toInt < 0 → raw.toInt.natAbs ≤ 32767 := by
    have := BitVec.toInt_lt (x := raw)
    simp at this
    omega
  have hm' : ¬raw.toInt < 0 → measure raw cfg ≤ 32767 := fun h => Nat.and_le_left.trans (hpos h)
  have hhigh : measure raw cfg >>> 4 = measure raw cfg / 16 := Nat.shiftRight_eq_div_pow _ 4
  have hlow : measure raw cfg &&& 0x0F = measure raw cfg % 16 := Nat.and_two_pow_sub_one_eq_mod _ 4
  rw [hhigh, hlow, decodeTenths_eq]
  refine ⟨hm, by omega, by omega, ?_, ?_⟩ <;> split <;> omega

/-- Settles O51: at each resolution and sign the value is a monotone function of the raw. -/
theorem acceptedRawsPerResolution : Obligations.AcceptedRawsPerResolution := by
  intro raw cfg
  rw [inRange_iff, decodeTenths_eq, measure_eq]
  have hlt := raw.isLt
  have hraw : raw.toInt = if 2 * raw.toNat < 65536 then (raw.toNat : Int) else raw.toNat - 65536 :=
    BitVec.toInt_eq_toNat_cond raw
  generalize resolutionField cfg = f
  have hf : f = 0b00#2 ∨ f = 0b01#2 ∨ f = 0b10#2 ∨ f = 0b11#2 := by revert f; decide
  rcases hf with rfl | rfl | rfl | rfl
  all_goals
    simp only [resolutionUnit, BitVec.le_def, BitVec.ofNat_eq_ofNat, BitVec.toNat_ofNat, Nat.reducePow, Nat.reduceMod]
    split at hraw <;> split <;> omega

/-! ## The family filter -/

/-- The first of the four slots with a property is the lowest. -/
theorem find_slot (m : Fin 4 → Bool) :
    (∀ i, ([0, 1, 2, 3] : List (Fin 4)).find? m = some i ↔ (m i = true ∧ ∀ j, j < i → ¬m j = true)) ∧
      (([0, 1, 2, 3] : List (Fin 4)).find? m = none ↔ ∀ i, ¬m i = true) := by
  revert m; decide

/-- Settles O35. -/
theorem familySlotIsTheLowestActiveMatch : Obligations.FamilySlotIsTheLowestActiveMatch := by
  intro r f
  have hm : ∀ i : Fin 4, r.famSlotMatches f i = true ↔ r.famEn.getLsbD i = true ∧ r.fam[i] = f := by
    intro i; simp [Regs.famSlotMatches]
  obtain ⟨hsome, hnone⟩ := find_slot (r.famSlotMatches f)
  simp only [hm] at hsome hnone
  exact ⟨fun i => (hsome i).trans and_assoc, hnone⟩

end Sys2Proof.Machine

/-! The Sensor Protocol on the line: SELECT, CONVT, RDTEMP (43_sensor.md R221-R230), and DECODE after RDTEMP
(44_crc_decode.md R257). -/

namespace Sys2Proof.Machine

/-! ## The reset slot of a command -/

/-- A reset slot succeeds exactly with a presence pulse and a line that is not stuck (41_transport.md R143). -/
theorem resetCode_eq_ok {p q : Bool} : resetCode p q = .ok ↔ p = false ∧ q = true := by
  cases p <;> cases q <;> decide

/-- A failed reset slot: LINE_STUCK before NO_PRESENCE, and PRES 0 (R143). -/
theorem resetCode_of_failed {p q : Bool} (h : ¬(p = false ∧ q = true)) :
    resetCode p q = (if q = false then .lineStuck else .noPresence) ∧ resetPres p q = false := by
  revert h
  cases p <;> cases q <;> decide

/-! ## Byte exchanges one after another -/

theorem bytesTrace_append (c : Params) (xs ys : List (Byte × Byte)) :
    bytesTrace c (xs ++ ys) = bytesTrace c ys ++ bytesTrace c xs := by
  simp [bytesTrace]

theorem bytesTrace_singleton (c : Params) (b r : Byte) : bytesTrace c [(b, r)] = byteTrace c b r := by
  simp [bytesTrace]

/-- Bytes read into a scratchpad from byte `k` on: the exchanges of 0xFF that received them (43_sensor.md R230). -/
theorem readBytes_run (m k : Nat) (acc : Scratchpad) (s : State) (hk : k + m ≤ 9) :
    ∃ sp : Scratchpad, ((readBytes m k acc).run s).1 = sp ∧ (∀ j, j < k → byteOf sp j = byteOf acc j) ∧
      ((readBytes m k acc).run s).2.line.trace =
        bytesTrace s.params ((List.replicate m 0xFF).zip ((List.range' k m).map (byteOf sp))) ++ s.line.trace ∧
      ((readBytes m k acc).run s).2.line.slots = s.line.slots + 8 * m := by
  induction m generalizing k acc s with
  | zero => exact ⟨acc, rfl, fun _ _ => rfl, by simp [readBytes, bytesTrace], rfl⟩
  | succ m ih =>
    obtain ⟨c, hc, -, htrace, hslots⟩ := byteXchg_run 0xFF s
    have hrun : (readBytes (m + 1) k acc).run s =
        (readBytes m (k + 1) (setByte acc k c)).run ((byteXchg 0xFF).run s).2 := by
      rw [← hc]; exact Proc.run_bind _ _ s
    obtain ⟨sp, hsp, hkeep, htrace', hslots'⟩ := ih (k + 1) (setByte acc k c) ((byteXchg 0xFF).run s).2 (by omega)
    have hbyte : byteOf sp k = c := by rw [hkeep k (by omega), byteOf_setByte_same _ _ _ (by omega)]
    refine ⟨sp, by rw [hrun, hsp], fun j hj => ?_, ?_, ?_⟩
    · rw [hkeep j (by omega), byteOf_setByte_ne _ _ _ _ (by omega) (by omega)]
    · rw [hrun, htrace', htrace, Proc.run_params, List.range'_succ, List.replicate_succ, List.map_cons,
        List.zip_cons_cons, ← List.singleton_append, bytesTrace_append, bytesTrace_singleton, hbyte, List.append_assoc]
    · rw [hrun, hslots', hslots]; omega

/-! ## Addressing a device -/

/-- With a failed reset nothing is sent (R221). -/
theorem selectDev_failed {r : Regs} {s : State} (h : ¬(s.resetSlot.1.1 = false ∧ s.resetSlot.1.2 = true)) :
    (selectDev r).run s =
      ((resetCode s.resetSlot.1.1 s.resetSlot.1.2, resetPres s.resetSlot.1.1 s.resetSlot.1.2), s.resetSlot.2) := by
  rw [← resetCode_eq_ok] at h
  simp only [selectDev, busReset, Proc.reset_bind, Proc.done_bind, Proc.run_reset, Proc.run_done, ne_eq, h,
    not_false_eq_true, if_true]

/-- With a successful one MATCH ROM and the address bytes follow it (R221). -/
theorem selectDev_present {r : Regs} {s : State} (hp : s.resetSlot.1.1 = false) (hq : s.resetSlot.1.2 = true) :
    (selectDev r).run s = ((.ok, true), ((sendBytes (0x55 :: r.romBytes)).run s.resetSlot.2).2) := by
  have hcode : resetCode false true = .ok := rfl
  simp only [selectDev, busReset, Proc.reset_bind, Proc.done_bind, Proc.run_reset, hp, hq, hcode, ne_eq,
    not_true_eq_false, if_false, Proc.run_bind, Proc.run_done]
  rfl

/-- What the line saw of a successful reset and the address after it. -/
theorem selectDev_trace {r : Regs} {s : State} (hp : s.resetSlot.1.1 = false) (hq : s.resetSlot.1.2 = true) :
    ∃ rs : List Byte, rs.length = 9 ∧
      ((sendBytes (0x55 :: r.romBytes)).run s.resetSlot.2).2.line.trace =
        bytesTrace s.params ((0x55 :: r.romBytes).zip rs) ++ (resetTrace s.params false true ++ s.line.trace) := by
  obtain ⟨rs, hlen, htrace, -⟩ := sendBytes_run (0x55 :: r.romBytes) s.resetSlot.2
  refine ⟨rs, by simpa [Regs.romBytes, bytesOf] using hlen, ?_⟩
  rw [htrace, resetSlot_trace, resetSlot_params, hp, hq]

/-- One more byte sent after bytes whose answers were `rs`. -/
theorem sendByte_after {bs rs : List Byte} (hlen : rs.length = bs.length) (b : Byte) {s u : State}
    (hp : u.params = s.params) {tr : List LineEvent}
    (hu : u.line.trace = bytesTrace s.params (bs.zip rs) ++ tr) :
    ∃ r, ((sendByte b).run u).2.line.trace = bytesTrace s.params ((bs ++ [b]).zip (rs ++ [r])) ++ tr := by
  obtain ⟨r, htrace, -⟩ := sendByte_run b u
  refine ⟨r, ?_⟩
  rw [htrace, hu, hp, List.zip_append hlen.symm, List.zip_cons_cons, List.zip_nil_left, bytesTrace_append,
    bytesTrace_singleton, List.append_assoc]

/-! ## SELECT -/

/-- Settles O37. -/
theorem selectSendsMatchRomAndTheAddress : Obligations.SelectSendsMatchRomAndTheAddress := by
  intro s hs
  set a := s.accept 0x20 with ha
  have hrun : (procOf .select s.params (s.regs.accept 0x20)).run a =
      ({ code := ((selectDev (s.regs.accept 0x20)).run a).1.1
         pres := some ((selectDev (s.regs.accept 0x20)).run a).1.2 }, ((selectDev (s.regs.accept 0x20)).run a).2) :=
    Proc.run_bind _ _ a
  obtain ⟨t, hexec, hframe, hregs, hline, -⟩ := exec_cmd8_idle (i := .select) rfl hs hrun
  rw [Regs.commit_pres] at hregs
  by_cases hok : a.resetSlot.1.1 = false ∧ a.resetSlot.1.2 = true
  · obtain ⟨hp, hq⟩ := hok
    obtain ⟨rs, hlen, htrace⟩ := selectDev_trace (r := s.regs.accept 0x20) hp hq
    refine ⟨t, false, true, rs, hexec, hframe, ?_, hlen, ?_⟩
    · rw [hregs, selectDev_present hp hq]; rfl
    · rw [hline, selectDev_present hp hq]; exact htrace
  · refine ⟨t, a.resetSlot.1.1, a.resetSlot.1.2, List.replicate 9 0, hexec, hframe, ?_, rfl, ?_⟩
    · rw [hregs, selectDev_failed hok]; rfl
    · rw [hline, selectDev_failed hok, if_neg hok]; exact resetSlot_trace a

/-! ## CONVT -/

/-- CONVT with a failed reset. -/
theorem procConvt_failed (c : Params) {r : Regs} {s : State}
    (h : ¬(s.resetSlot.1.1 = false ∧ s.resetSlot.1.2 = true)) :
    (procConvt c r).run s =
      ({ code := resetCode s.resetSlot.1.1 s.resetSlot.1.2, pres := some (resetPres s.resetSlot.1.1 s.resetSlot.1.2) },
        s.resetSlot.2) := by
  have hcode : resetCode s.resetSlot.1.1 s.resetSlot.1.2 ≠ .ok := fun e => h (resetCode_eq_ok.mp e)
  rw [procConvt, Proc.run_bind, selectDev_failed h]
  dsimp only
  rw [if_pos hcode, Proc.run_done]

/-- CONVT with a successful one: CONVERT T follows the address (R225). -/
theorem procConvt_present (c : Params) {r : Regs} {s : State} (hp : s.resetSlot.1.1 = false)
    (hq : s.resetSlot.1.2 = true) :
    (procConvt c r).run s =
      ({ code := .ok, pres := some true },
        ((sendByte 0x44).run ((sendBytes (0x55 :: r.romBytes)).run s.resetSlot.2).2).2) := by
  rw [procConvt, Proc.run_bind, selectDev_present hp hq]
  exact Proc.run_bind _ _ _

/-- Settles O38. -/
theorem convtSendsConvertAfterTheAddress : Obligations.ConvtSendsConvertAfterTheAddress := by
  intro s hs
  set a := s.accept (encode .convt) with ha
  by_cases hok : a.resetSlot.1.1 = false ∧ a.resetSlot.1.2 = true
  · obtain ⟨hp, hq⟩ := hok
    obtain ⟨t, hexec, hframe, hregs, hline, -⟩ :=
      exec_cmd8_idle (i := .convt) rfl hs (procConvt_present s.params (r := s.regs.accept (encode .convt)) hp hq)
    obtain ⟨rs, hlen, htrace⟩ := selectDev_trace (r := s.regs.accept (encode .convt)) hp hq
    obtain ⟨r, htrace'⟩ := sendByte_after (bs := 0x55 :: s.regs.romBytes) (s := a)
      (hlen.trans (by simp [Regs.romBytes, bytesOf])) 0x44 (by simp) htrace
    refine ⟨t, false, true, rs ++ [r], hexec, hframe, ?_, by simp [hlen], ?_⟩
    · rw [hregs, Regs.commit_pres]; rfl
    · rw [hline, if_pos ⟨rfl, rfl⟩, ← ha, htrace']; rfl
  · obtain ⟨t, hexec, hframe, hregs, hline, -⟩ :=
      exec_cmd8_idle (i := .convt) rfl hs (procConvt_failed s.params (r := s.regs.accept (encode .convt)) hok)
    refine ⟨t, a.resetSlot.1.1, a.resetSlot.1.2, List.replicate 10 0, hexec, hframe, ?_, rfl, ?_⟩
    · rw [hregs, Regs.commit_pres]; rfl
    · rw [hline, if_neg hok]; exact resetSlot_trace a

/-! ## RDTEMP -/

/-- RDTEMP with a failed reset. -/
theorem procRdtemp_failed (c : Params) {r : Regs} {s : State}
    (h : ¬(s.resetSlot.1.1 = false ∧ s.resetSlot.1.2 = true)) :
    (procRdtemp c r).run s =
      ({ code := resetCode s.resetSlot.1.1 s.resetSlot.1.2, pres := some (resetPres s.resetSlot.1.1 s.resetSlot.1.2) },
        s.resetSlot.2) := by
  have hcode : resetCode s.resetSlot.1.1 s.resetSlot.1.2 ≠ .ok := fun e => h (resetCode_eq_ok.mp e)
  rw [procRdtemp, Proc.run_bind, selectDev_failed h]
  dsimp only
  rw [if_pos hcode, Proc.run_done]

/-- The state in which RDTEMP has sent READ SCRATCHPAD after the address (R230). -/
def afterReadCommand (r : Regs) (s : State) : State :=
  ((sendByte 0xBE).run ((sendBytes (0x55 :: r.romBytes)).run s.resetSlot.2).2).2

/-- RDTEMP with a successful reset: nine bytes are read after READ SCRATCHPAD (R230). -/
theorem procRdtemp_present (c : Params) {r : Regs} {s : State} (hp : s.resetSlot.1.1 = false)
    (hq : s.resetSlot.1.2 = true) :
    (procRdtemp c r).run s =
      (rdtempStaged true ((readBytes 9 0 0).run (afterReadCommand r s)).1,
        ((readBytes 9 0 0).run (afterReadCommand r s)).2) := by
  rw [procRdtemp, Proc.run_bind, selectDev_present hp hq]
  exact (Proc.run_bind _ _ _).trans (Proc.run_bind _ _ _)

/-- A commit of what RDTEMP stages writes RESULT, DONE, PRES, SPAD and TEMP alone. -/
theorem Regs.commit_rdtemp (r : Regs) (pres : Bool) (sp : Scratchpad) :
    r.commit (rdtempStaged pres sp) =
      { r with
        result := (checkAndDecode sp).1, done := true, pres := pres, spad := sp
        temp := (checkAndDecode sp).2.getD r.temp } := rfl

/-- Settles O39. -/
theorem rdtempReadsNineBytesAndDecodesThem : Obligations.RdtempReadsNineBytesAndDecodesThem := by
  intro s hs
  set a := s.accept (encode .rdtemp) with ha
  by_cases hok : a.resetSlot.1.1 = false ∧ a.resetSlot.1.2 = true
  · obtain ⟨hp, hq⟩ := hok
    obtain ⟨t, hexec, hframe, hregs, hline, -⟩ :=
      exec_cmd8_idle (i := .rdtemp) rfl hs (procRdtemp_present s.params (r := s.regs.accept (encode .rdtemp)) hp hq)
    obtain ⟨rs, hlen, htrace⟩ := selectDev_trace (r := s.regs.accept (encode .rdtemp)) hp hq
    obtain ⟨r, htrace'⟩ := sendByte_after (bs := 0x55 :: s.regs.romBytes) (s := a)
      (hlen.trans (by simp [Regs.romBytes, bytesOf])) 0xBE (by simp) htrace
    obtain ⟨sp, hsp, -, hread, -⟩ := readBytes_run 9 0 0 (afterReadCommand (s.regs.accept (encode .rdtemp)) a) (by decide)
    have hparams : (afterReadCommand (s.regs.accept (encode .rdtemp)) a).params = s.params := by
      simp [afterReadCommand, ha]
    rw [hsp, Regs.commit_rdtemp, checkAndDecode_code, checkAndDecode_temp_getD] at hregs
    refine ⟨t, false, true, rs ++ [r], sp, hexec, hframe, by simp [hlen], fun h => absurd ⟨rfl, rfl⟩ h,
      fun _ => ⟨hregs, ?_⟩⟩
    rw [hline, hread, hparams, bytesTrace_append, List.append_assoc]
    exact congrArg (_ ++ ·) htrace'
  · obtain ⟨t, hexec, hframe, hregs, hline, -⟩ :=
      exec_cmd8_idle (i := .rdtemp) rfl hs (procRdtemp_failed s.params (r := s.regs.accept (encode .rdtemp)) hok)
    refine ⟨t, a.resetSlot.1.1, a.resetSlot.1.2, List.replicate 10 0, 0, hexec, hframe, rfl, fun _ => ⟨?_, ?_⟩,
      fun h => absurd h hok⟩
    · obtain ⟨hcode, hpres⟩ := resetCode_of_failed hok
      rw [hregs, Regs.commit_pres, hpres, hcode]
      rfl
    · rw [hline]; exact resetSlot_trace a

/-- Settles O40: DECODE checks the SPAD that RDTEMP stored, and TEMP stands as RDTEMP's check left it. -/
theorem decodeRepeatsRdtempsVerdict : Obligations.DecodeRepeatsRdtempsVerdict := by
  intro s t u hs ht hpres hu
  obtain ⟨t', p, q, rs, sp, ht', hframe, -, hfail, hread⟩ := rdtempReadsNineBytesAndDecodesThem s hs
  cases ht.symm.trans ht'
  by_cases hok : p = false ∧ q = true
  · obtain ⟨hregs, -⟩ := hread hok
    obtain ⟨u', hu', -, hregs', -⟩ := decodeChecksThenStoresTheTemperature t hframe.idle
    cases hu.symm.trans hu'
    have hspad : t.regs.spad = sp := by rw [hregs]
    have hresult := congrArg Regs.result hregs
    have htemp := congrArg Regs.temp hregs
    refine ⟨?_, ?_, by rw [hregs']⟩
    · rw [hregs', hresult, hspad]
    · rw [hregs']
      dsimp only
      rw [hspad]
      split
      · rename_i h
        rw [htemp]
        exact (if_pos h).symm
      · rfl
  · obtain ⟨hregs, -⟩ := hfail hok
    rw [hregs] at hpres
    exact absurd hpres Bool.false_ne_true

end Sys2Proof.Machine

/-! Slots and bytes on the reference bus (45_bus_environment.md R284-R287; log entry 11), and RDTEMP there. -/

namespace Sys2Proof.Machine

/-! ## Slots on the reference bus -/

/-- The reference devices answer, their modes are known, and no draw is fixed. -/
structure Bus.Refers (b : Bus) (ds : List Device) : Prop where
  kind : b.kind = .reference
  script : b.script = []
  lost : b.lost = false
  devices : b.devices = ds

/-- The draw of a bit slot on the reference bus: the wired-AND of the devices (R285, R286). -/
theorem Bus.Refers.draw_answer {b : Bus} {ds : List Device} (h : b.Refers ds) :
    b.draw .answer = (ds.all fun d => !d.pulls, b) := by
  obtain ⟨hk, hs, hl, rfl⟩ := h
  simp only [Bus.draw, hs, Bus.natural, hk, hl, Bus.reference]
  rfl

/-- A bit slot on the reference bus: what it samples, and the devices after it. -/
theorem bitSlot_refers {s : State} {ds : List Device} (h : s.bus.Refers ds) (o : Bool) :
    (s.bitSlot o).1 = (o && ds.all fun d => !d.pulls) ∧
      (s.bitSlot o).2.bus.Refers (ds.map (Device.afterBit o)) := by
  obtain ⟨hk, hs, hl, hd⟩ := h
  cases o with
  | false =>
    rw [bitSlot_zero, bitSlot_zero_bus]
    exact ⟨rfl, hk, hs, hl, congrArg _ hd⟩
  | true =>
    rw [bitSlot_one, bitSlot_one_bus, Bus.Refers.draw_answer ⟨hk, hs, hl, hd⟩]
    exact ⟨rfl, hk, hs, hl, congrArg _ hd⟩

/-- A reset slot on the reference bus: presence iff there is a device, no stuck line, and every device waits for a ROM
command (R285). -/
theorem resetSlot_refers {s : State} {ds : List Device} (hk : s.bus.kind = .reference) (hs : s.bus.script = [])
    (hd : s.bus.devices = ds) :
    s.resetSlot.1 = (ds.isEmpty, true) ∧ s.resetSlot.2.bus.Refers (ds.map Device.afterReset) := by
  have hp : s.bus.draw .presence = (ds.isEmpty, s.bus) := by
    simp [Bus.draw, hs, Bus.natural, hk, Bus.reference, hd]
  have hq : s.bus.draw .stuck = (true, s.bus) := by
    simp [Bus.draw, hs, Bus.natural, hk, Bus.reference]
  rw [resetSlot_samples, resetSlot_bus, hp, hq]
  exact ⟨rfl, hk, hs, rfl, congrArg _ hd⟩

/-! ## Bytes sent -/

/-- A device after bit slots sending these bits. -/
def Device.afterBits (os : List Bool) (d : Device) : Device := os.foldl (fun d o => d.afterBit o) d

/-- The bits of a byte as they are sent, bit 0 first (41_transport.md R147). -/
def bitsOf (b : Byte) : List Bool := (List.range 8).map (b.getLsbD ·)

@[simp] theorem Device.afterBits_nil : Device.afterBits [] = id := rfl

@[simp] theorem Device.afterBits_cons (o : Bool) (os : List Bool) (d : Device) :
    d.afterBits (o :: os) = (d.afterBit o).afterBits os := rfl

theorem Device.afterBits_append (os os' : List Bool) (d : Device) :
    d.afterBits (os ++ os') = (d.afterBits os).afterBits os' := List.foldl_append ..

@[simp] theorem Device.afterBit_addr (o : Bool) (d : Device) : (d.afterBit o).addr = d.addr := rfl

theorem map_afterBit_afterBits (ds : List Device) (o : Bool) (os : List Bool) :
    (ds.map (Device.afterBit o)).map (Device.afterBits os) = ds.map (Device.afterBits (o :: os)) := by
  rw [List.map_map]; rfl

/-- An exchange from bit `j` on moves each device by the bits sent. -/
theorem xchgBits_refers (b : Byte) (m j : Nat) (c : Byte) {s : State} {ds : List Device} (h : s.bus.Refers ds) :
    ((xchgBits b m j c).run s).2.bus.Refers (ds.map (Device.afterBits ((List.range' j m).map (b.getLsbD ·)))) := by
  induction m generalizing j c s ds with
  | zero => simpa [xchgBits] using h
  | succ m ih =>
    rw [xchgBits, Proc.run_bit, List.range'_succ, List.map_cons, ← map_afterBit_afterBits]
    exact ih _ _ (bitSlot_refers h _).2

/-- A byte sent moves each device by its eight bits. -/
theorem sendByte_refers (b : Byte) {s : State} {ds : List Device} (h : s.bus.Refers ds) :
    ((sendByte b).run s).2.bus.Refers (ds.map (Device.afterBits (bitsOf b))) := by
  rw [sendByte, Proc.run_bind, bitsOf, List.range_eq_range']
  exact xchgBits_refers b 8 0 0 h

/-- So do bytes sent one after another. -/
theorem sendBytes_refers (bs : List Byte) {s : State} {ds : List Device} (h : s.bus.Refers ds) :
    ((sendBytes bs).run s).2.bus.Refers (ds.map (Device.afterBits (bs.flatMap bitsOf))) := by
  induction bs generalizing s ds with
  | nil => simpa [sendBytes] using h
  | cons b bs ih =>
    have hmap : ds.map (Device.afterBits ((b :: bs).flatMap bitsOf)) =
        (ds.map (Device.afterBits (bitsOf b))).map (Device.afterBits (bs.flatMap bitsOf)) := by
      rw [List.map_map, List.flatMap_cons]
      exact List.map_congr_left fun d _ => d.afterBits_append _ _
    rw [sendBytes, Proc.run_bind, hmap]
    exact ih (sendByte_refers b h)

/-! ## What a device makes of a command byte -/

/-- The device in another mode. -/
def Device.inMode (d : Device) (m : Mode) : Device := { d with mode := m }

/-- An idle device stays idle (R285). -/
theorem Device.afterBits_idle (d : Device) (os : List Bool) : (d.inMode .idle).afterBits os = d.inMode .idle := by
  induction os with
  | nil => rfl
  | cons o os ih => exact ih

/-- SEARCH ROM and MATCH ROM after a reset slot (R285). -/
theorem Device.afterReset_searchRom (d : Device) :
    d.afterReset.afterBits (bitsOf 0xF0) = d.inMode (.search 1 .A) := rfl

theorem Device.afterReset_matchRom (d : Device) :
    d.afterReset.afterBits (bitsOf 0x55) = d.inMode (.matchRx 1) := rfl

/-- READ SCRATCHPAD makes a selected device transmit (R286). -/
theorem Device.selected_readScratchpad (d : Device) :
    (d.inMode .selected).afterBits (bitsOf 0xBE) = d.inMode (.tx 0) := rfl

/-- Address bits received one after another from position `n` on: the device stays in MATCH ROM while they are its own,
and is selected after the last (R285). -/
theorem Device.afterBits_matchRx (d : Device) (a : Addr) (m n : Nat) (hm : n + m = 65) (hn : 1 ≤ n) (hpos : 0 < m) :
    (d.inMode (.matchRx n)).afterBits ((List.range' n m).map (rombit a ·)) =
      d.inMode (if ∀ j, n ≤ j → j ≤ 64 → rombit a j = rombit d.addr j then .selected else .idle) := by
  induction m generalizing n with
  | zero => omega
  | succ m ih =>
    rw [List.range'_succ, List.map_cons, Device.afterBits_cons]
    by_cases hbit : rombit a n = rombit d.addr n
    · by_cases h64 : n = 64
      · obtain rfl : m = 0 := by omega
        subst h64
        have hall : ∀ j, 64 ≤ j → j ≤ 64 → rombit a j = rombit d.addr j := by
          intro j h1 h2
          obtain rfl : j = 64 := by omega
          exact hbit
        rw [if_pos hall]
        simp [Device.afterBit, Device.modeAfterBit, Device.inMode, hbit]
      · have hstep : (d.inMode (.matchRx n)).afterBit (rombit a n) = d.inMode (.matchRx (n + 1)) := by
          simp [Device.afterBit, Device.modeAfterBit, Device.inMode, hbit, h64]
        have hiff : (∀ j, n ≤ j → j ≤ 64 → rombit a j = rombit d.addr j) ↔
            ∀ j, n + 1 ≤ j → j ≤ 64 → rombit a j = rombit d.addr j := by
          refine ⟨fun h j h1 => h j (by omega), fun h j h1 h2 => ?_⟩
          by_cases hj : j = n
          · rw [hj, hbit]
          · exact h j (by omega) h2
        rw [hstep, ih (n + 1) (by omega) (by omega) (by omega)]
        simp only [hiff]
    · have hstep : (d.inMode (.matchRx n)).afterBit (rombit a n) = d.inMode .idle := by
        simp [Device.afterBit, Device.modeAfterBit, Device.inMode, hbit]
      rw [hstep, Device.afterBits_idle, if_neg fun h => hbit (h n (le_refl n) (by omega))]

/-- Addresses are equal when their 64 bits are. -/
theorem addr_ext {a b : Addr} : (∀ j, 1 ≤ j → j ≤ 64 → rombit a j = rombit b j) ↔ a = b := by
  refine ⟨fun h => BitVec.eq_of_getLsbD_eq fun i hi => ?_, fun h _ _ _ => by rw [h]⟩
  simpa [rombit] using h (i + 1) (by omega) (by omega)

/-- The bits of an address byte by byte are its bits in the order of the wire. -/
theorem bytesOf_bits (a : Addr) : (bytesOf a 8).flatMap bitsOf = (List.range' 1 64).map (rombit a ·) := by
  have hflat : (List.range 8).flatMap (fun k => (List.range 8).map fun n => 8 * k + n) = List.range 64 := by decide
  have hbits : (bytesOf a 8).flatMap bitsOf =
      ((List.range 8).flatMap fun k => (List.range 8).map fun n => 8 * k + n).map (a.getLsbD ·) := by
    rw [List.map_flatMap, bytesOf, List.flatMap_map]
    refine List.flatMap_congr fun k _ => ?_
    rw [List.map_map]
    exact List.map_congr_left fun n hn => getLsbD_byteOf a k n (List.mem_range.mp hn)
  rw [hbits, hflat, List.range'_eq_map_range, List.map_map]
  refine List.map_congr_left fun n _ => ?_
  simp [rombit]

/-- MATCH ROM with an address selects the device at that address, and makes any other idle (R285). -/
theorem Device.afterReset_match (d : Device) (a : Addr) :
    d.afterReset.afterBits ((0x55 :: bytesOf a 8).flatMap bitsOf) =
      d.inMode (if d.addr = a then .selected else .idle) := by
  rw [List.flatMap_cons, Device.afterBits_append, Device.afterReset_matchRom, bytesOf_bits,
    Device.afterBits_matchRx d a 64 1 rfl (le_refl 1) (by decide)]
  simp only [addr_ext, eq_comm]

/-! ## RDTEMP -/

/-- The devices while the scratchpad is read, `n` bits of it transmitted: the one at the address in ROM transmits, the
others are idle (R286). -/
def Device.transmitting (a : Addr) (n : Nat) (d : Device) : Device :=
  d.inMode (if d.addr = a then (if n < 72 then .tx n else .idle) else .idle)

/-- MATCH ROM, an address and READ SCRATCHPAD after a reset slot. -/
theorem Device.afterReset_readScratchpad (d : Device) (a : Addr) :
    (d.afterReset.afterBits ((0x55 :: bytesOf a 8).flatMap bitsOf)).afterBits (bitsOf 0xBE) = d.transmitting a 0 := by
  rw [Device.afterReset_match, Device.transmitting]
  split
  · exact Device.selected_readScratchpad d
  · exact Device.afterBits_idle d _

theorem Device.transmitting_afterBit (a : Addr) {n : Nat} (hn : n < 72) (d : Device) :
    (d.transmitting a n).afterBit true = d.transmitting a (n + 1) := by
  unfold Device.transmitting
  by_cases h : d.addr = a
  · rw [if_pos h, if_pos h, if_pos hn]
    by_cases hlast : n = 71
    · subst hlast; rfl
    · rw [if_pos (by omega)]
      simp [Device.afterBit, Device.modeAfterBit, Device.inMode, hlast]
  · rw [if_neg h, if_neg h]; rfl

theorem Device.transmitting_pulls (a : Addr) {n : Nat} (hn : n < 72) (d : Device) :
    (d.transmitting a n).pulls = (decide (d.addr = a) && !d.spad.getLsbD n) := by
  unfold Device.transmitting
  by_cases h : d.addr = a
  · rw [if_pos h, if_pos hn]; simp [Device.pulls, Device.inMode, h]
  · rw [if_neg h]; simp [Device.pulls, Device.inMode, h]

/-- The `n`-th bit the reference bus answers while a scratchpad is read. -/
def readAnswer (ds : List Device) (a : Addr) (n : Nat) : Bool :=
  ds.all fun d => !(decide (d.addr = a) && !d.spad.getLsbD n)

/-- After READ SCRATCHPAD the device at the address in ROM is about to transmit (43_sensor.md R230). -/
theorem afterReadCommand_refers (r : Regs) {s : State} {ds : List Device}
    (h : s.resetSlot.2.bus.Refers (ds.map Device.afterReset)) :
    (afterReadCommand r s).bus.Refers (ds.map (Device.transmitting r.rom 0)) := by
  have hsel := sendByte_refers 0xBE (sendBytes_refers (0x55 :: bytesOf r.rom 8) h)
  have hdevices : (Device.afterBits (bitsOf 0xBE) ∘ Device.afterBits ((0x55 :: bytesOf r.rom 8).flatMap bitsOf)) ∘
      Device.afterReset = Device.transmitting r.rom 0 := by
    funext d
    rw [Function.comp_apply, Function.comp_apply, Device.afterReset_readScratchpad]
  rw [List.map_map, List.map_map, hdevices] at hsel
  rw [afterReadCommand, Regs.romBytes]
  exact hsel

/-- RDTEMP on a reference bus with a device reads what the devices at the address in ROM transmit, and makes 153
slots. -/
theorem rdtemp_refers {s : State} {ds : List Device} (hs : s.engine.seq = .idle) (h : s.onReferenceBus ds)
    (hne : ds ≠ []) :
    ∃ t, exec .rdtemp s = .next t ∧ (∀ n, n < 72 → t.regs.spad.getLsbD n = readAnswer ds s.regs.rom n) ∧
      t.regs.pres = true ∧ t.regs.result = (checkAndDecode t.regs.spad).1 ∧
      t.regs.temp = (checkAndDecode t.regs.spad).2.getD s.regs.temp ∧ t.line.slots = s.line.slots + 153 := by
  obtain ⟨hk, hsc, hd, -⟩ := h
  set a := s.accept (encode .rdtemp) with ha
  set r := s.regs.accept (encode .rdtemp) with hr
  obtain ⟨hsamples, hreset⟩ := resetSlot_refers (s := a) hk hsc hd
  have hp : a.resetSlot.1.1 = false := by rw [hsamples]; simpa using hne
  have hq : a.resetSlot.1.2 = true := by rw [hsamples]
  obtain ⟨t, hexec, -, hregs, hline, -⟩ :=
    exec_cmd8_idle (i := .rdtemp) rfl hs (procRdtemp_present s.params (r := r) hp hq)
  have hbus : (afterReadCommand r a).bus.Refers (ds.map (Device.transmitting s.regs.rom 0)) :=
    afterReadCommand_refers r hreset
  have hstep : ∀ (n : Nat) (u : State), n < 72 → u.bus.Refers (ds.map (Device.transmitting s.regs.rom n)) →
      (u.bitSlot true).1 = readAnswer ds s.regs.rom n ∧
        (u.bitSlot true).2.bus.Refers (ds.map (Device.transmitting s.regs.rom (n + 1))) := by
    intro n u hn hu
    obtain ⟨hans, hnext⟩ := bitSlot_refers hu true
    refine ⟨?_, ?_⟩
    · rw [hans, Bool.true_and, List.all_map, readAnswer]
      congr 1
      funext d
      rw [Function.comp_apply, Device.transmitting_pulls _ hn]
    · rw [List.map_map] at hnext
      rw [← List.map_congr_left fun d _ => Device.transmitting_afterBit s.regs.rom hn d]
      exact hnext
  obtain ⟨hread, -⟩ := readBytes_read hstep 9 0 0 (afterReadCommand r a) (by decide) hbus
  obtain ⟨-, -, -, -, hslots⟩ := readBytes_run 9 0 0 (afterReadCommand r a) (by decide)
  rw [Regs.commit_rdtemp] at hregs
  have hspad : t.regs.spad = ((readBytes 9 0 0).run (afterReadCommand r a)).1 := by rw [hregs]
  refine ⟨t, hexec, fun n hn => ?_, by rw [hregs], by rw [hregs], by rw [hregs]; rfl, ?_⟩
  · rw [hspad, hread n hn, if_pos (by omega)]
  · obtain ⟨-, -, hslots1⟩ := sendByte_run 0xBE ((sendBytes (0x55 :: r.romBytes)).run a.resetSlot.2).2
    obtain ⟨-, -, -, hslots2⟩ := sendBytes_run (0x55 :: r.romBytes) a.resetSlot.2
    have hlen : (0x55 :: r.romBytes).length = 9 := by simp [Regs.romBytes, bytesOf]
    rw [hline, hslots, afterReadCommand, hslots1, hslots2, hlen, resetSlot_slots]
    rfl

/-- Devices at distinct addresses: the one at an address is the only one there. -/
theorem eq_of_addr_eq {ds : List Device} (h : (ds.map Device.addr).Nodup) {d e : Device} (hd : d ∈ ds) (he : e ∈ ds)
    (ha : d.addr = e.addr) : d = e :=
  List.inj_on_of_nodup_map h hd he ha

/-- Settles O41. -/
theorem rdtempReadsTheAddressedDevice : Obligations.RdtempReadsTheAddressedDevice := by
  intro s ds d hs h hd haddr
  obtain ⟨t, hexec, hread, hpres, hresult, -, hslots⟩ := rdtemp_refers hs h (List.ne_nil_of_mem hd)
  have hspad : t.regs.spad = d.spad := by
    refine BitVec.eq_of_getLsbD_eq fun n hn => ?_
    rw [hread n hn, readAnswer, Bool.eq_iff_iff, List.all_eq_true]
    refine ⟨fun hall => by simpa [haddr] using hall d hd, fun hbit e he => ?_⟩
    by_cases hae : e.addr = s.regs.rom
    · rw [eq_of_addr_eq h.2.2.2 he hd (hae.trans haddr.symm), hbit]; simp
    · simp [hae]
  exact ⟨t, hexec, hspad, hpres, by rw [hresult, hspad], hslots⟩

/-- Settles O42: no device transmits, so every bit reads 1, and the CRC of nine 0xFF is not 0x00. -/
theorem absentTargetIsACrcErrorOfRdtempOnly : Obligations.AbsentTargetIsACrcErrorOfRdtempOnly := by
  intro s ds hs h hne habsent
  refine ⟨?rdtemp, ?select⟩
  case rdtemp =>
    obtain ⟨t, hexec, hread, -, hresult, htemp, -⟩ := rdtemp_refers hs h hne
    have hspad : t.regs.spad = BitVec.allOnes 72 := by
      refine BitVec.eq_of_getLsbD_eq fun n hn => ?_
      rw [hread n hn, readAnswer, BitVec.getLsbD_allOnes, decide_eq_true hn, List.all_eq_true]
      exact fun d hd => by simp [habsent d hd]
    have hcrc : crc8 (bytesOf (BitVec.allOnes 72) 9) ≠ 0x00 := by decide +kernel
    rw [hspad, checkAndDecode_of_crc_ne hcrc] at hresult htemp
    exact ⟨t, hexec, hspad, hresult, htemp⟩
  case select =>
    obtain ⟨hk, hsc, hd, -⟩ := h
    obtain ⟨hsamples, -⟩ := resetSlot_refers (s := s.accept (encode .select)) hk hsc hd
    have hp : (s.accept (encode .select)).resetSlot.1.1 = false := by rw [hsamples]; simpa using hne
    have hq : (s.accept (encode .select)).resetSlot.1.2 = true := by rw [hsamples]
    obtain ⟨t, hexec, -, hregs, -⟩ := exec_cmd8_idle (i := .select) rfl hs (Proc.run_bind _ _ _)
    refine ⟨t, hexec, ?_⟩
    rw [hregs, selectDev_present hp hq]
    rfl

end Sys2Proof.Machine

/-! One search pass and SRCHNEXT (42_search.md R183-R192). -/

namespace Sys2Proof.Machine

/-! ## The three ends of a pass -/

/-- From Done a pass makes no slot (R192). -/
theorem searchPass_done {c : Cursor} (h : c.sdone = true) :
    searchPass c = .done { code := .exhausted, addr := none, cursor := c, pres := none } := by
  rw [searchPass, if_pos h]

/-- A pass whose reset fails (R186). -/
theorem searchPass_failed {c : Cursor} (hc : c.sdone = false) {s : State}
    (h : ¬(s.resetSlot.1.1 = false ∧ s.resetSlot.1.2 = true)) :
    (searchPass c).run s =
      ({ code := resetCode s.resetSlot.1.1 s.resetSlot.1.2, addr := none, cursor := c.fresh, pres := some false },
        s.resetSlot.2) := by
  obtain ⟨-, hpres⟩ := resetCode_of_failed h
  rw [← resetCode_eq_ok] at h
  simp only [searchPass, hc, Bool.false_eq_true, if_false, busReset, Proc.reset_bind, Proc.done_bind, Proc.run_reset,
    Proc.run_done, ne_eq, h, not_false_eq_true, if_true, hpres]

/-- The state in which a pass has sent SEARCH ROM (R183). -/
def afterSearchCommand (s : State) : State := ((sendByte 0xF0).run s.resetSlot.2).2

/-- A pass whose reset succeeds: SEARCH ROM and the 64 positions follow it (R183). -/
theorem searchPass_present {c : Cursor} (hc : c.sdone = false) {s : State} (hp : s.resetSlot.1.1 = false)
    (hq : s.resetSlot.1.2 = true) :
    (searchPass c).run s =
      (passEnd c true ((searchBits c 64 1 0 0).run (afterSearchCommand s)).1,
        ((searchBits c 64 1 0 0).run (afterSearchCommand s)).2) := by
  have hcode : resetCode false true = .ok := rfl
  simp only [searchPass, hc, Bool.false_eq_true, if_false, busReset, Proc.reset_bind, Proc.done_bind, Proc.run_reset,
    hp, hq, hcode, ne_eq, not_true_eq_false, Proc.run_bind, Proc.run_done]
  rfl

theorem afterSearchCommand_params (s : State) : (afterSearchCommand s).params = s.params := by
  simp [afterSearchCommand]

/-- What the line saw before the first position. -/
theorem afterSearchCommand_run {s : State} (hp : s.resetSlot.1.1 = false) (hq : s.resetSlot.1.2 = true) :
    ∃ r : Byte, (afterSearchCommand s).line.trace =
        byteTrace s.params 0xF0 r ++ (resetTrace s.params false true ++ s.line.trace) ∧
      (afterSearchCommand s).line.slots = s.line.slots + 9 := by
  obtain ⟨r, htrace, hslots⟩ := sendByte_run 0xF0 s.resetSlot.2
  refine ⟨r, ?_, ?_⟩
  · rw [afterSearchCommand, htrace, resetSlot_trace, resetSlot_params, hp, hq]
  · rw [afterSearchCommand, hslots, resetSlot_slots]

/-! ## SRCHNEXT -/

/-- SRCHNEXT runs a pass and stages its result (R188). -/
theorem procSrchnext_run (p : Params) (r : Regs) (s : State) :
    (procSrchnext p r).run s = (srchnextStaged ((searchPass r.cursor).run s).1, ((searchPass r.cursor).run s).2) :=
  Proc.run_bind _ _ s

/-- What SRCHNEXT commits: CMD, DONE, RESULT and the cursor, PRES if the pass made a reset slot, ROM if it completed. -/
theorem commit_srchnext (r : Regs) (res : PassResult) :
    r.commit (srchnextStaged res) =
      { r with
        result := res.code, done := true, pres := res.pres.getD r.pres, cursor := res.cursor
        rom := (if res.code = .ok ∨ res.code = .crcError then res.addr else none).getD r.rom } := rfl

/-- SRCHNEXT from an Idle engine: the pass runs from the state at acceptance, and its result is committed. -/
theorem exec_srchnext {s : State} (hs : s.engine.seq = .idle) {res : PassResult} {u : State}
    (hrun : (searchPass s.regs.cursor).run (s.accept 0x11) = (res, u)) :
    ∃ t, exec .srchnext s = .next t ∧ AfterCommand s t ∧ t.line = u.line ∧ t.bus = u.bus ∧
      t.regs = { s.regs with
        cmd := 0x11, done := true, result := res.code, pres := res.pres.getD s.regs.pres, cursor := res.cursor
        rom := (if res.code = .ok ∨ res.code = .crcError then res.addr else none).getD s.regs.rom } := by
  have hproc : (procOf .srchnext s.params (s.regs.accept 0x11)).run (s.accept 0x11) = (srchnextStaged res, u) := by
    have h := procSrchnext_run s.params (s.regs.accept 0x11) (s.accept 0x11)
    rw [show (s.regs.accept 0x11).cursor = s.regs.cursor from rfl, hrun] at h
    exact h
  obtain ⟨t, hexec, hframe, hregs, hline, hbus⟩ := exec_cmd8_idle (i := .srchnext) rfl hs hproc
  exact ⟨t, hexec, hframe, hline, hbus, hregs⟩

/-- SRCHNEXT answers one next state: that of `exec_srchnext`. -/
theorem of_exec_srchnext {s t : State} (hs : s.engine.seq = .idle) (ht : exec .srchnext s = .next t) {res : PassResult}
    {u : State} (hrun : (searchPass s.regs.cursor).run (s.accept 0x11) = (res, u)) :
    t.line = u.line ∧ t.bus = u.bus ∧
      t.regs = { s.regs with
        cmd := 0x11, done := true, result := res.code, pres := res.pres.getD s.regs.pres, cursor := res.cursor
        rom := (if res.code = .ok ∨ res.code = .crcError then res.addr else none).getD s.regs.rom } := by
  obtain ⟨t', ht', -, hrest⟩ := exec_srchnext hs hrun
  cases ht.symm.trans ht'
  exact hrest

/-- Settles O27. -/
theorem srchnextFromDoneSendsNothing : Obligations.SrchnextFromDoneSendsNothing := by
  intro s hs hd
  have hp : procOf .srchnext s.params (s.regs.accept 0x11) =
      .done (srchnextStaged { code := .exhausted, addr := none, cursor := s.regs.cursor, pres := none }) := by
    have hpass : searchPass (s.regs.accept 0x11).cursor = _ := searchPass_done hd
    rw [procOf, procSrchnext, hpass]
    rfl
  obtain ⟨t, hexec, hframe, hregs⟩ := exec_cmd8_noSlot (i := .srchnext) rfl hs hp
  refine ⟨t, hexec, hframe, ?_⟩
  rw [hregs, commit_srchnext]
  rfl

/-- A pass, seen from outside: its end, and what the line saw of it. -/
inductive PassEnds (c : Cursor) (s : State) : PassResult → State → Prop
  /-- from Done -/
  | exhausted (hc : c.sdone = true) :
    PassEnds c s { code := .exhausted, addr := none, cursor := c, pres := none } s
  /-- the reset failed -/
  | failed (hc : c.sdone = false) (hf : ¬(s.resetSlot.1.1 = false ∧ s.resetSlot.1.2 = true)) :
    PassEnds c s
      { code := if s.resetSlot.1.2 = false then .lineStuck else .noPresence
        addr := none, cursor := c.fresh, pres := some false } s.resetSlot.2
  /-- a (1,1) pair at position `k + 1` -/
  | dataError (hc : c.sdone = false) {b cb x : Nat → Bool} {k : Nat} {r : Byte} {u : State} (hk : k < 64)
    (hpairs : ∀ j, 1 ≤ j → j ≤ k → ¬(b j = true ∧ cb j = true)) (hb : b (k + 1) = true) (hcb : cb (k + 1) = true)
    (hslots : u.line.slots = s.line.slots + 9 + 3 * k + 2)
    (htrace : u.line.trace = bitTrace s.params true true ++ (bitTrace s.params true true ++
      (positionsTrace s.params c b cb x 1 k ++
        (byteTrace s.params 0xF0 r ++ (resetTrace s.params false true ++ s.line.trace))))) :
    PassEnds c s { code := .searchDataError, addr := none, cursor := c.fresh, pres := some true } u
  /-- the 64 positions -/
  | completed (hc : c.sdone = false) {b cb x : Nat → Bool} {path : Addr} {lz : Nat} {r : Byte} {u : State}
    (hpath : PassDone c b cb 64 1 0 0 path lz) (hslots : u.line.slots = s.line.slots + 201)
    (htrace : u.line.trace = positionsTrace s.params c b cb x 1 64 ++
      (byteTrace s.params 0xF0 r ++ (resetTrace s.params false true ++ s.line.trace))) :
    PassEnds c s
      { code := if addrValid path then .ok else .crcError
        addr := some path, cursor := { sld := lz, sdone := lz == 0, spath := path }, pres := some true } u

/-- Every pass ends in one of the four ways (R183, R186, R189, R192). -/
theorem searchPass_ends (c : Cursor) (s : State) : PassEnds c s ((searchPass c).run s).1 ((searchPass c).run s).2 := by
  cases hc : c.sdone with
  | true =>
    rw [searchPass_done hc]
    exact .exhausted hc
  | false =>
    by_cases hok : s.resetSlot.1.1 = false ∧ s.resetSlot.1.2 = true
    · obtain ⟨hp, hq⟩ := hok
      rw [searchPass_present hc hp hq]
      obtain ⟨r, htrace, hslots⟩ := afterSearchCommand_run hp hq
      obtain ⟨b, cb, x, ⟨path, lz, hres, hdone, htr, hsl⟩ | ⟨k, hk, hres, hpairs, hb, hcb, htr, hsl⟩⟩ :=
        searchBits_run c 64 1 0 0 (afterSearchCommand s) (le_refl 1) rfl (by simp [rombit]) (by decide)
      · rw [afterSearchCommand_params, htrace] at htr
        rw [hres]
        exact .completed hc hdone (by rw [hsl, hslots]) htr
      · rw [afterSearchCommand_params, htrace] at htr
        rw [hres]
        exact .dataError hc hk (fun j h1 h2 => hpairs j h1 (by omega)) (Nat.add_comm 1 k ▸ hb) (Nat.add_comm 1 k ▸ hcb)
          (by rw [hsl, hslots]) htr
    · rw [searchPass_failed hc hok, (resetCode_of_failed hok).1]
      exact .failed hc hok

/-- Settles O26. -/
theorem srchnextCompletesWithItsCodes : Obligations.SrchnextCompletesWithItsCodes := by
  intro s hs
  obtain ⟨t, hexec, hframe, hline, -, hregs⟩ := exec_srchnext hs rfl
  have hends := searchPass_ends s.regs.cursor (s.accept 0x11)
  generalize ((searchPass s.regs.cursor).run (s.accept 0x11)).1 = res at hregs hends
  generalize ((searchPass s.regs.cursor).run (s.accept 0x11)).2 = u at hline hends
  have hresult : t.regs.result = res.code := by rw [hregs]
  refine ⟨t, hexec, hframe, ?codes, ?exhausted, by rw [hregs], ?slots⟩
  case codes =>
    rw [hresult]
    cases hends with
    | exhausted hc => simp
    | failed hc hf => dsimp only; split <;> decide
    | dataError hc => simp
    | completed hc => dsimp only; split <;> decide
  case exhausted =>
    rw [hresult]
    cases hends with
    | exhausted hc => simp [hc]
    | failed hc hf => dsimp only; split <;> simp [hc]
    | dataError hc => simp [hc]
    | completed hc => dsimp only; split <;> simp [hc]
  case slots =>
    rw [hline]
    cases hends with
    | exhausted hc => exact Nat.le_add_right _ _
    | failed hc hf => rw [resetSlot_slots]; exact Nat.add_le_add_left (by decide) _
    | dataError hc hk _ _ _ hslots =>
      have hs0 : (s.accept 0x11).line.slots = s.line.slots := rfl
      omega
    | completed hc _ hslots => exact hslots.le

/-- The events of the positions from the first on, as the statements count them. -/
theorem positionsTrace_one (p : Params) (c : Cursor) (b cb x : Nat → Bool) (k : Nat) :
    positionsTrace p c b cb x 1 k = (List.range k).reverse.flatMap fun j =>
      positionTrace p (b (j + 1)) (cb (j + 1)) (directions c b cb (j + 1)) (x (j + 1)) := by
  rw [positionsTrace, List.range'_eq_map_range, ← List.map_reverse, List.flatMap_map]
  exact List.flatMap_congr fun j _ => by rw [Nat.add_comm 1 j]

/-- Settles O28: the pass ended with its reset or with a (1,1) pair. -/
theorem failedPassRestartsCleanly : Obligations.FailedPassRestartsCleanly := by
  intro s t hs ht hresult
  obtain ⟨hline, -, hregs⟩ := of_exec_srchnext hs ht rfl
  have hends := searchPass_ends s.regs.cursor (s.accept 0x11)
  generalize ((searchPass s.regs.cursor).run (s.accept 0x11)).1 = res at hregs hends
  generalize ((searchPass s.regs.cursor).run (s.accept 0x11)).2 = u at hline hends
  have hcode : t.regs.result = res.code := by rw [hregs]
  rw [hcode] at hresult ⊢
  rw [hregs, hline]
  cases hends with
  | exhausted hc => simp at hresult
  | completed hc hpath hslots htrace =>
    exfalso
    revert hresult
    dsimp only
    split <;> simp
  | failed hc hf =>
    have hne : (if (s.accept 0x11).resetSlot.1.2 = false then ResultCode.lineStuck else .noPresence) ≠
        .searchDataError := by split <;> decide
    have hrom : ∀ rc : ResultCode, ((if rc = .ok ∨ rc = .crcError then none else none : Option Addr).getD s.regs.rom) =
        s.regs.rom := fun rc => by split <;> rfl
    refine ⟨hrom _, rfl, rfl, ?_, (s.accept 0x11).resetSlot.1.1, (s.accept 0x11).resetSlot.1.2,
      fun _ => ⟨hf, rfl, resetSlot_slots _, resetSlot_trace _⟩, fun h => absurd h hne⟩
    simp only [Option.getD_some]
    exact (decide_eq_false hne).symm
  | @dataError _ b cb x k r _ hk hpairs hb hcb hslots htrace =>
    refine ⟨rfl, rfl, rfl, rfl, false, true, fun h => absurd rfl h, fun _ => ⟨rfl, rfl, k, b, cb, x, r, hk, hpairs, hb,
      hcb, hslots, ?_⟩⟩
    rw [htrace, hb, hcb, positionsTrace_one]
    rfl

/-- Settles O29: the pass completed, and `PassDone` says what its positions read and chose. -/
theorem completedPassFollowsTheBranchRule : Obligations.CompletedPassFollowsTheBranchRule := by
  intro s t hs ht hresult
  obtain ⟨hline, -, hregs⟩ := of_exec_srchnext hs ht rfl
  have hends := searchPass_ends s.regs.cursor (s.accept 0x11)
  generalize ((searchPass s.regs.cursor).run (s.accept 0x11)).1 = res at hregs hends
  generalize ((searchPass s.regs.cursor).run (s.accept 0x11)).2 = u at hline hends
  have hcode : t.regs.result = res.code := by rw [hregs]
  rw [hcode] at hresult
  cases hends with
  | exhausted hc => simp at hresult
  | failed hc hf =>
    exfalso
    revert hresult
    dsimp only
    split <;> simp
  | dataError hc => simp at hresult
  | @completed _ b cb x path lz r _ hpath hslots htrace =>
    obtain ⟨hpairs, hbits, -, hlast, hlz⟩ := hpath
    have hrom : t.regs.rom = path := by
      rw [hregs]
      dsimp only at hresult ⊢
      rw [if_pos hresult, Option.getD_some]
    have hcur : t.regs.cursor = { sld := lz, sdone := lz == 0, spath := path } := by rw [hregs]
    have hpres : t.regs.pres = true := by rw [hregs]; rfl
    have hle : lz ≤ 64 := by rcases hlz with h | ⟨-, h, -⟩ <;> omega
    rw [hcode, hcur, hrom]
    refine ⟨b, cb, x, false, true, r, fun n h1 h2 => ⟨hpairs n h1 (by omega), hbits n h1 (by omega)⟩, rfl, rfl, hle,
      fun n h1 h2 hb hcb hz => hlast n h1 (by omega) hb hcb ?_, fun hne => ?_, ?_, hpres, ?_⟩
    · rw [← hbits n h1 (by omega)]; exact hz
    · rcases hlz with h | ⟨h1, h2, hb, hcb, hz⟩
      · exact absurd h hne
      · exact ⟨hb, hcb, by rw [hbits lz h1 h2]; exact hz⟩
    · simp [addrValid]
    · rw [hline, htrace, positionsTrace_one]
      congr 1
      refine List.flatMap_congr fun j hj => ?_
      have hj64 : j < 64 := by simpa using hj
      rw [hbits (j + 1) (by omega) (by omega)]
      rfl

end Sys2Proof.Machine

/-! A command event by event: it ends as its meaning says, whatever accesses land in it, and every run ends (20_memory.md
R91, 60_exceptions.md R304, R318, 70_reset_and_hazards.md R351; log entry 1). -/

namespace Sys2Proof.Machine

/-! ## Runs of the machine -/

/-- The machine's run, its states as this model names them. -/
def runSteps (n : Nat) (s : State) : Host.Outcome State Fault Refusal := Sys2Proof.core.run n s

theorem runSteps_zero (s : State) : runSteps 0 s = .next s := rfl

theorem runSteps_succ {s t : State} (h : step s = .next t) (n : Nat) : runSteps (n + 1) s = runSteps n t := by
  have hcore : Sys2Proof.core.step s = .next t := h
  simp only [runSteps, Host.Core.run, hcore]
  rfl

theorem runSteps_succ_refused {s : State} {r : Refusal} (h : step s = .refused r) (n : Nat) :
    runSteps (n + 1) s = .refused r := by
  have hcore : Sys2Proof.core.step s = .refused r := h
  simp only [runSteps, Host.Core.run, hcore]
  rfl

/-- Some number of steps leads from one state to the other. -/
def Reaches (s t : State) : Prop := ∃ n, runSteps n s = .next t

theorem Reaches.refl (s : State) : Reaches s s := ⟨0, rfl⟩

theorem Reaches.head {s t u : State} (h : step s = .next t) (g : Reaches t u) : Reaches s u := by
  obtain ⟨n, hn⟩ := g
  exact ⟨n + 1, (runSteps_succ h n).trans hn⟩

theorem Reaches.trans {s t u : State} (h : Reaches s t) (g : Reaches t u) : Reaches s u := by
  obtain ⟨n, hn⟩ := h
  induction n generalizing s with
  | zero => cases hn; exact g
  | succ n ih =>
    rcases step_outcome s with ⟨s', hs'⟩ | ⟨_, _, _, _, -, hr⟩
    · exact .head hs' (ih ((runSteps_succ hs' n).symm.trans hn))
    · cases (runSteps_succ_refused hr n).symm.trans hn

/-! ## No access due -/

/-- The command is in progress for `n` engine steps. -/
def BusyFor (n : Nat) (s : State) : Prop := ∀ j, j < n → (State.engineStep^[j] s).engine.seq ≠ .idle

theorem BusyFor.tail {n : Nat} {s : State} (h : BusyFor (n + 1) s) : BusyFor n s.engineStep :=
  fun j hj => h (j + 1) (by omega)

theorem BusyFor.cons {n : Nat} {s : State} (hs : s.engine.seq ≠ .idle) (h : BusyFor n s.engineStep) :
    BusyFor (n + 1) s := by
  intro j hj
  cases j with
  | zero => exact hs
  | succ j => exact h j (by omega)

theorem accessDue_congr {s t : State} (h : t.host = s.host) : t.accessDue = s.accessDue := by
  simp only [State.accessDue, h]

/-- With no access due a step of a command in progress is one engine event. -/
theorem step_of_not_due {s : State} (hb : s.engine.seq ≠ .idle) (hd : s.accessDue = false) :
    step s = .next s.engineStep := by
  cases hq : s.engine.seq with
  | idle => exact absurd hq hb
  | busy opc k =>
    simp only [step, hq, State.busyStep]
    split <;> simp_all [State.accessDue]

/-- With no access due the machine runs as its engine does. -/
theorem run_of_not_due (n : Nat) {s : State} (hb : BusyFor n s) (hd : s.accessDue = false) :
    runSteps n s = .next (State.engineStep^[n] s) := by
  induction n generalizing s with
  | zero => rfl
  | succ n ih =>
    have hbusy : s.engine.seq ≠ .idle := hb 0 (by omega)
    rw [runSteps_succ (step_of_not_due hbusy hd), Function.iterate_succ_apply]
    exact ih hb.tail ((accessDue_congr (engineStep_host s)).trans hd)

/-! ## The command as its engine runs it -/

/-- The state with its sequencer at rest, which is all a commit leaves of it. -/
def State.atRest (s : State) : State :=
  { s with engine :=
    { s.engine with seq := .idle, samples := [], slotSamples := [], pos := 0, cmdBefore := 0x00 } }

theorem finish_atRest (s : State) (st : Staged) : s.atRest.finish st = s.finish st := rfl

theorem atRest_afterSlot (s : State) (l : List Bool) : (s.afterSlot l).atRest = s.atRest := rfl

/-- A slot does not look at the sequencer. -/
theorem resetSlot_atRest (s : State) : s.atRest.resetSlot = (s.resetSlot.1, s.resetSlot.2.atRest) := by
  obtain ⟨params, regs, engine, hostI, bus, line, host, reads⟩ := s
  cases hr : params.realisation <;>
    simp [State.resetSlot, State.atRest, State.beginSlot, hr, State.driveLow, State.release, State.sample, State.level,
      State.endSlot, State.restoreHostI] <;>
    rfl

theorem bitSlot_atRest (s : State) (o : Bool) : s.atRest.bitSlot o = ((s.bitSlot o).1, (s.bitSlot o).2.atRest) := by
  obtain ⟨params, regs, engine, hostI, bus, line, host, reads⟩ := s
  cases hr : params.realisation <;> cases o <;>
    simp [State.bitSlot, State.atRest, State.beginSlot, hr, State.driveLow, State.release, State.sample, State.level,
      State.endSlot, State.restoreHostI] <;>
    rfl

theorem run_atRest {α : Type} (p : Proc α) (s : State) : p.run s.atRest = ((p.run s).1, (p.run s).2.atRest) := by
  induction p generalizing s with
  | done a => rfl
  | reset k ih => rw [Proc.run_reset, resetSlot_atRest, ih]; rfl
  | bit o k ih => rw [Proc.run_bit, bitSlot_atRest, ih]; rfl

/-- The commit after a procedure depends on the rest of the state alone. -/
theorem finish_run_congr {s t : State} (h : t.atRest = s.atRest) (p : Proc Staged) :
    (p.run t).2.finish (p.run t).1 = (p.run s).2.finish (p.run s).1 := by
  have hrun : ((p.run t).1, (p.run t).2.atRest) = ((p.run s).1, (p.run s).2.atRest) := by
    rw [← run_atRest, ← run_atRest, h]
  obtain ⟨h1, h2⟩ := Prod.mk.inj hrun
  rw [← finish_atRest, h1, h2, finish_atRest]

/-- At a slot an engine step is that slot's next event. -/
theorem engineStep_of_currentSlot {s : State} {k : SlotKind} (hk : s.currentSlot = some k) :
    s.engineStep = s.slotEvent k := by
  obtain ⟨opc, n, hq⟩ := busy_of_currentSlot hk
  obtain ⟨st, hr, -⟩ | ⟨k', hk', h⟩ := engineStep_cases hq
  · simp [State.currentSlot, hq, hr] at hk
  · obtain rfl : k = k' := Option.some.inj (hk.symm.trans hk')
    exact h

theorem slotEvent_pos_of_lt {s : State} {k : SlotKind} (hpos : s.engine.pos < 3) :
    (s.slotEvent k).engine.pos = s.engine.pos + 1 := by
  have hlt : s.engine.pos + 1 < (k.ops s.params).length := by rw [SlotKind.ops_length]; omega
  rw [slotEvent_of_lt (List.getElem?_eq_getElem (by omega)) hlt]

/-- From between slots four engine steps are the four events of the current slot, and the command stays in progress
before each of them. -/
theorem engineStep_slot {s : State} {k : SlotKind} (hk : s.currentSlot = some k) (hpos : s.engine.pos = 0) :
    s.engineStep.engineStep.engineStep.engineStep =
      (((s.slotEvent k).slotEvent k).slotEvent k).slotEvent k ∧
      ∀ n, BusyFor n (s.engineStep.engineStep.engineStep.engineStep) → BusyFor (n + 4) s := by
  have next : ∀ {u : State}, u.currentSlot = some k → u.engine.pos < 3 →
      (u.slotEvent k).currentSlot = some k ∧ (u.slotEvent k).engine.pos = u.engine.pos + 1 := by
    intro u hu h3
    have hlt : u.engine.pos + 1 < (k.ops u.params).length := by rw [SlotKind.ops_length]; omega
    exact ⟨currentSlot_slotEvent_of_lt hu (List.getElem?_eq_getElem (by omega)) hlt, slotEvent_pos_of_lt h3⟩
  have busy : ∀ {u : State}, u.currentSlot = some k → u.engine.seq ≠ .idle := by
    intro u hu
    obtain ⟨opc, n, hq⟩ := busy_of_currentSlot hu
    simp [hq]
  obtain ⟨hk1, hpos1⟩ := next hk (by omega)
  obtain ⟨hk2, hpos2⟩ := next hk1 (by omega)
  obtain ⟨hk3, hpos3⟩ := next hk2 (by omega)
  have e0 := engineStep_of_currentSlot hk
  have e1 := engineStep_of_currentSlot hk1
  have e2 := engineStep_of_currentSlot hk2
  have e3 := engineStep_of_currentSlot hk3
  refine ⟨by rw [e0, e1, e2, e3], fun n h => ?_⟩
  refine .cons (busy hk) (.cons ?_ (.cons ?_ (.cons ?_ h)))
  · rw [e0]; exact busy hk1
  · rw [e0, e1]; exact busy hk2
  · rw [e0, e1, e2]; exact busy hk3

/-- The engine between slots, with the procedure `p` left, runs to the commit of what `p` stages. -/
theorem engine_run (opc : Byte) (p : Proc Staged) {s : State} {k : Nat} (hq : s.engine.seq = .busy opc k)
    (hpos : s.engine.pos = 0) (hslot : s.engine.slotSamples = [])
    (hp : ∀ l, (procOfOpcode opc s.params s.regs).resume (s.engine.samples ++ l) = p.resume l) :
    ∃ n, BusyFor n s ∧ State.engineStep^[n] s = (p.run s).2.finish (p.run s).1 := by
  have hrem : s.remaining opc = p := by simpa [State.remaining] using hp []
  induction p generalizing s k with
  | done st =>
    have hb : s.engine.seq ≠ .idle := by simp [hq]
    refine ⟨1, .cons hb fun j hj => absurd hj (Nat.not_lt_zero j), ?_⟩
    rw [Function.iterate_one, engineStep_done hq hrem, Proc.run_done]
  | reset f ih =>
    obtain ⟨hsteps, hbusy⟩ := engineStep_slot (k := .reset) (by simp [State.currentSlot, hq, hrem]) hpos
    rw [slotEvents_reset s hpos hslot] at hsteps
    rw [hsteps] at hbusy
    set t := s.resetSlot.2.afterSlot [s.resetSlot.1.1, s.resetSlot.1.2] with ht
    have htp : ∀ l, (procOfOpcode opc t.params t.regs).resume (t.engine.samples ++ l) =
        (f s.resetSlot.1.1 s.resetSlot.1.2).resume l := by
      intro l
      have hsam : t.engine.samples = s.engine.samples ++ [s.resetSlot.1.1, s.resetSlot.1.2] := by
        simp [ht, State.afterSlot, resetSlot_engine, slotEngine]
      rw [show t.params = s.params from resetSlot_params s, show t.regs = s.regs from resetSlot_regs s, hsam,
        List.append_assoc, hp]
      rfl
    obtain ⟨n, hbn, hn⟩ := ih s.resetSlot.1.1 s.resetSlot.1.2 (s := t) (k := k + 1)
      (by simp [ht, State.afterSlot, resetSlot_engine, slotEngine, hq, Seq.nextSlot]) rfl rfl htp
      (by simpa [State.remaining] using htp [])
    refine ⟨n + 4, hbusy n hbn, ?_⟩
    rw [Function.iterate_add_apply]
    change State.engineStep^[n] s.engineStep.engineStep.engineStep.engineStep = _
    rw [hsteps, hn, Proc.run_reset]
    exact finish_run_congr (atRest_afterSlot _ _) _
  | bit o f ih =>
    obtain ⟨hsteps, hbusy⟩ := engineStep_slot (k := .bit o) (by simp [State.currentSlot, hq, hrem]) hpos
    rw [slotEvents_bit s o hpos hslot] at hsteps
    rw [hsteps] at hbusy
    set t := (s.bitSlot o).2.afterSlot [(s.bitSlot o).1] with ht
    have htp : ∀ l, (procOfOpcode opc t.params t.regs).resume (t.engine.samples ++ l) =
        (f (s.bitSlot o).1).resume l := by
      intro l
      have hsam : t.engine.samples = s.engine.samples ++ [(s.bitSlot o).1] := by
        simp [ht, State.afterSlot, bitSlot_engine, slotEngine]
      rw [show t.params = s.params from bitSlot_params s o, show t.regs = s.regs from bitSlot_regs s o, hsam,
        List.append_assoc, hp]
      rfl
    obtain ⟨n, hbn, hn⟩ := ih (s.bitSlot o).1 (s := t) (k := k + 1)
      (by simp [ht, State.afterSlot, bitSlot_engine, slotEngine, hq, Seq.nextSlot]) rfl rfl htp
      (by simpa [State.remaining] using htp [])
    refine ⟨n + 4, hbusy n hbn, ?_⟩
    rw [Function.iterate_add_apply]
    change State.engineStep^[n] s.engineStep.engineStep.engineStep.engineStep = _
    rw [hsteps, hn, Proc.run_bit]
    exact finish_run_congr (atRest_afterSlot _ _) _

/-- From the acceptance of a host command the engine runs to the state its meaning gives. -/
theorem engine_run_exec {i : Instr} (hi : i.format = .cmd8) {s : State} (hs : s.engine.seq = .idle) :
    ∃ n t, exec i s = .next t ∧ BusyFor n (s.accept (encode i)) ∧ State.engineStep^[n] (s.accept (encode i)) = t := by
  have hproc : ∀ p r, procOfOpcode (encode i) p r = procOf i p r := by
    intro p r; simp only [procOfOpcode, decode_encode_cmd8 hi]
  obtain ⟨n, hb, hn⟩ := engine_run (encode i) (procOf i s.params (s.regs.accept (encode i))) (s := s.accept (encode i))
    (k := 0) rfl rfl rfl (fun l => by rw [hproc]; rfl)
  exact ⟨n, _, (exec_cmd8 i hi s).trans (runCommand_idle i _ hs), hb, hn⟩

/-! ## Accesses that land in a command -/

/-- The state with other accesses to come, other reads recorded, and OVR and IE as given. -/
def State.overlay (a : State) (host : List Pending) (reads : List (Byte × Byte)) (o e : Bool) : State :=
  { a with host := host, reads := reads, regs := { a.regs with ovr := o, ie := e } }

theorem slotEvent_overlay (a : State) (host : List Pending) (reads : List (Byte × Byte)) (o e : Bool) (k : SlotKind) :
    (a.overlay host reads o e).slotEvent k = (a.slotEvent k).overlay host reads o e := by
  have hopen : (a.overlay host reads o e).openSlot = a.openSlot.overlay host reads o e := by
    unfold State.openSlot
    by_cases h0 : a.engine.pos = 0
    · rw [if_pos h0, if_pos (show (a.overlay host reads o e).engine.pos = 0 from h0)]
      cases hr : a.params.realisation <;> simp [State.beginSlot, State.overlay, hr] <;> rfl
    · rw [if_neg h0, if_neg (show ¬(a.overlay host reads o e).engine.pos = 0 from h0)]
  have hop : ∀ (u : State) (op : LineOp), (u.overlay host reads o e).lineOp op = (u.lineOp op).overlay host reads o e := by
    intro u op; cases op <;> rfl
  have hclose : ∀ u : State, (u.overlay host reads o e).closeSlot k = (u.closeSlot k).overlay host reads o e := by
    intro u
    cases hr : u.params.realisation <;>
      simp [State.closeSlot, State.endSlot, State.restoreHostI, State.overlay, hr]
  have hev : ∀ u : State, u.slotEvent k =
      match (k.ops u.params)[u.engine.pos]? with
      | none => u.openSlot.closeSlot k
      | some op =>
        if u.engine.pos + 1 = (k.ops u.params).length then (u.openSlot.lineOp op).closeSlot k
        else { u.openSlot.lineOp op with engine := { (u.openSlot.lineOp op).engine with pos := u.engine.pos + 1 } } :=
    fun _ => rfl
  rw [hev, hev, hopen]
  change (match (k.ops a.params)[a.engine.pos]? with | none => _ | some op => _) = _
  cases (k.ops a.params)[a.engine.pos]? with
  | none => exact hclose _
  | some op =>
    dsimp only
    rw [hop]
    change (if a.engine.pos + 1 = (k.ops a.params).length then _ else _) = _
    split
    · exact hclose _
    · rfl

/-- The engine does not look at what an access that lands can change. -/
theorem engineStep_overlay (a : State) (host : List Pending) (reads : List (Byte × Byte)) (o e : Bool) :
    (a.overlay host reads o e).engineStep = a.engineStep.overlay host reads o e := by
  have hrem : ∀ opc, (a.overlay host reads o e).remaining opc = a.remaining opc := remaining_flags a o e
  cases hq : a.engine.seq with
  | idle => rw [engineStep_idle hq, engineStep_idle (s := a.overlay host reads o e) hq]
  | busy opc k =>
    cases hr : a.remaining opc with
    | done st =>
      rw [engineStep_done hq hr, engineStep_done (s := a.overlay host reads o e) hq ((hrem opc).trans hr)]
      rfl
    | reset f =>
      rw [engineStep_reset hq hr, engineStep_reset (s := a.overlay host reads o e) hq ((hrem opc).trans hr),
        slotEvent_overlay]
    | bit b f =>
      rw [engineStep_bit hq hr, engineStep_bit (s := a.overlay host reads o e) hq ((hrem opc).trans hr),
        slotEvent_overlay]

theorem iterate_engineStep_overlay (n : Nat) (a : State) (host : List Pending) (reads : List (Byte × Byte))
    (o e : Bool) :
    State.engineStep^[n] (a.overlay host reads o e) = (State.engineStep^[n] a).overlay host reads o e := by
  induction n generalizing a with
  | zero => rfl
  | succ n ih => rw [Function.iterate_succ_apply, Function.iterate_succ_apply, engineStep_overlay, ih]

theorem BusyFor.overlay {n : Nat} {a : State} (h : BusyFor n a) (host : List Pending) (reads : List (Byte × Byte))
    (o e : Bool) : BusyFor n (a.overlay host reads o e) := by
  intro j hj
  rw [iterate_engineStep_overlay]
  exact h j hj

/-- An access that lands and leaves the command in progress: a poll goes on waiting, any other access is done and
changes at most the reads, OVR and IE. -/
theorem step_landing {a : State} {op : HostOp} {rest : List Pending} {reads : List (Byte × Byte)} {o e : Bool}
    (hb : a.engine.seq ≠ .idle) (hop : leavesCommand op = true) :
    step (a.overlay (⟨some 0, op⟩ :: rest) reads o e) = .next (a.overlay (⟨none, op⟩ :: rest) reads o e) ∧
        op = .wait ∨
      ∃ reads', step (a.overlay (⟨some 0, op⟩ :: rest) reads o e) =
        .next (a.overlay rest reads' (o || setsOvr op) (ieAfter e op)) := by
  obtain ⟨opc, k, hq⟩ : ∃ opc k, a.engine.seq = .busy opc k := by
    cases hq : a.engine.seq with
    | idle => exact absurd hq hb
    | busy opc k => exact ⟨opc, k, rfl⟩
  have hstep : step (a.overlay (⟨some 0, op⟩ :: rest) reads o e) = (a.overlay rest reads o e).perform op :=
    step_access_landing hb rfl
  have hb' : (a.overlay rest reads o e).engine.seq ≠ .idle := hb
  rw [hstep]
  cases op with
  | rd b =>
    refine .inr ⟨(b, (a.overlay rest reads o e).memRead b) :: reads, ?_⟩
    rw [setsOvr, Bool.or_false, ieAfter]
    rfl
  | wait =>
    refine .inl ⟨?_, rfl⟩
    have hq' : (a.overlay rest reads o e).engine.seq = .busy opc k := hq
    simp only [State.perform, hq']
    rfl
  | wide w b => exact absurd hop Bool.false_ne_true
  | wr b v =>
    refine .inr ⟨reads, ?_⟩
    rw [perform_wr v (.inl hb')]
    by_cases hc : b = 0x03
    · subst hc
      have hsrst : v.getLsbD 1 = false := by simpa [leavesCommand] using hop
      have hovr : setsOvr (.wr 0x03 v) = false := rfl
      rw [memWrite_ctrl, State.writeCtrl, hsrst, hovr, Bool.or_false]
      rfl
    · have hctrl : regAt b ≠ some .ctrl := fun h => hc (regAddr_of_regAt h).symm
      have hovr : setsOvr (.wr b v) = true := by simpa [setsOvr] using hc
      have hie : ieAfter e (.wr b v) = e := if_neg hc
      rw [memWrite_busy v hb' hctrl, hovr, Bool.or_true, hie]
      rfl

/-- While its command is in progress for `n` engine steps the machine makes them all, whatever accesses land meanwhile;
`m` of the accesses are done by then. -/
theorem run_landing (n : Nat) (a : State) (host : List Pending) (reads : List (Byte × Byte)) (o e : Bool)
    (hb : BusyFor n a) (hops : ∀ p ∈ host, leavesCommand p.op = true) :
    ∃ N m host' reads', runSteps N (a.overlay host reads o e) =
        .next ((State.engineStep^[n] a).overlay host' reads' (o || ((host.take m).map Pending.op).any setsOvr)
          (((host.take m).map Pending.op).foldl ieAfter e)) ∧
      host'.map Pending.op = (host.drop m).map Pending.op := by
  induction n generalizing a host reads o e with
  | zero => exact ⟨0, 0, host, reads, by simpa using runSteps_zero _, rfl⟩
  | succ n ihn =>
    have hbusy : a.engine.seq ≠ .idle := hb 0 (by omega)
    have quiet : ∀ (host : List Pending) (reads : List (Byte × Byte)) (o e : Bool),
        (a.overlay host reads o e).accessDue = false →
        runSteps (n + 1) (a.overlay host reads o e) =
          .next ((State.engineStep^[n + 1] a).overlay host reads o e) := by
      intro host reads o e hd
      rw [run_of_not_due (n + 1) (hb.overlay host reads o e) hd, iterate_engineStep_overlay]
    induction host generalizing reads o e with
    | nil => exact ⟨n + 1, 0, [], reads, by simpa using quiet [] reads o e rfl, rfl⟩
    | cons p rest ih =>
      obtain ⟨arrive, op⟩ := p
      have hrest : ∀ q ∈ rest, leavesCommand q.op = true := fun q hq => hops q (List.mem_cons_of_mem _ hq)
      match arrive with
      | none => exact ⟨n + 1, 0, _, reads, by simpa using quiet (⟨none, op⟩ :: rest) reads o e rfl, rfl⟩
      | some (c + 1) =>
        have hstep : step (a.overlay (⟨some (c + 1), op⟩ :: rest) reads o e) =
            .next (a.engineStep.overlay (⟨some c, op⟩ :: rest) reads o e) := by
          rw [← engineStep_overlay]
          cases hq : a.engine.seq with
          | idle => exact absurd hq hbusy
          | busy opc k =>
            have hq' : (a.overlay (⟨some (c + 1), op⟩ :: rest) reads o e).engine.seq = .busy opc k := hq
            simp only [step, hq']
            rfl
        obtain ⟨N, m, host', reads', hrun, hhost⟩ := ihn a.engineStep (⟨some c, op⟩ :: rest) reads o e hb.tail
          (by simpa using hops)
        have hmap : (⟨some c, op⟩ :: rest : List Pending).map Pending.op =
            (⟨some (c + 1), op⟩ :: rest : List Pending).map Pending.op := rfl
        refine ⟨N + 1, m, host', reads', ?_, ?_⟩
        · rw [runSteps_succ hstep, hrun, Function.iterate_succ_apply, List.map_take, hmap, ← List.map_take]
        · rw [hhost, List.map_drop, hmap, ← List.map_drop]
      | some 0 =>
        have hop : leavesCommand op = true := hops _ List.mem_cons_self
        obtain ⟨hstep, rfl⟩ | ⟨reads₁, hstep⟩ :=
          step_landing (a := a) (rest := rest) (reads := reads) (o := o) (e := e) hbusy hop
        · refine ⟨n + 2, 0, ⟨none, .wait⟩ :: rest, reads, ?_, rfl⟩
          rw [runSteps_succ hstep]
          simpa using quiet (⟨none, .wait⟩ :: rest) reads o e rfl
        · obtain ⟨N, m, host', reads', hrun, hhost⟩ := ih reads₁ (o || setsOvr op) (ieAfter e op) hrest
          refine ⟨N + 1, m + 1, host', reads', ?_, by simpa using hhost⟩
          rw [runSteps_succ hstep, hrun]
          simp [Bool.or_assoc]

/-- Settles O57: the engine's run from acceptance is `engine_run_exec`, and accesses that land overlay it. -/
theorem eventByEventRunEndsAsExec : Obligations.EventByEventRunEndsAsExec := by
  refine ⟨fun s hb => ⟨step_of_not_due ((busy_iff s).mp hb), fun n op rest hh => ?countdown⟩, fun i s hi hs => ?run⟩
  case countdown =>
    cases hq : s.engine.seq with
    | idle => exact absurd hq ((busy_iff s).mp hb)
    | busy opc k => simp only [step, hq, State.busyStep, hh]
  case run =>
    obtain ⟨n, t, hexec, hb, ht⟩ := engine_run_exec hi hs
    rw [issue_of_ok (decode_encode_cmd8 hi)]
    refine ⟨fun hd => ⟨n, t, hexec, ?_⟩, fun hops => ?_⟩
    · rw [← ht]; exact run_of_not_due n hb hd
    · obtain ⟨N, m, host', reads', hrun, hhost⟩ :=
        run_landing n (s.accept (encode i)) s.host s.reads s.regs.ovr s.regs.ie hb hops
      rw [ht] at hrun
      exact ⟨N, m, t, _, hexec, hrun, rfl, rfl, rfl, rfl, rfl, rfl, hhost⟩

/-! ## Every command in progress ends -/

/-- With enough samples a procedure has ended, whatever they are. -/
theorem Proc.resume_done_of_length {α : Type} (p : Proc α) :
    ∃ n, ∀ l : List Bool, n ≤ l.length → ∃ a, p.resume l = .done a := by
  induction p with
  | done a => exact ⟨0, fun l _ => ⟨a, by cases l <;> rfl⟩⟩
  | reset k ih =>
    choose n hn using ih
    refine ⟨n false false + n false true + n true false + n true true + 2, fun l hl => ?_⟩
    match l with
    | [] => simp at hl
    | [x] => simp at hl
    | x :: y :: rest =>
      refine hn x y rest ?_
      simp only [List.length_cons] at hl
      cases x <;> cases y <;> omega
  | bit o k ih =>
    choose n hn using ih
    refine ⟨n false + n true + 1, fun l hl => ?_⟩
    match l with
    | [] => simp at hl
    | x :: rest =>
      refine hn x rest ?_
      simp only [List.length_cons] at hl
      cases x <;> omega

/-- Every slot takes a sample. -/
theorem samplesIn_ops_pos (k : SlotKind) (p : Params) : 0 < samplesIn (k.ops p) := by
  cases k with
  | reset => simp [samplesIn, SlotKind.ops]
  | bit o => cases o <;> simp [samplesIn, SlotKind.ops]

/-- An event of a sound state's slot moves to the next position, or adds a sample to the command's. -/
theorem State.Inv.slotEvent_progress {s : State} (h : s.Inv) {k : SlotKind} (hk : s.currentSlot = some k) :
    ((s.slotEvent k).engine.samples = s.engine.samples ∧ s.engine.pos < 3 ∧
        (s.slotEvent k).engine.pos = s.engine.pos + 1) ∨
      (s.engine.samples.length < (s.slotEvent k).engine.samples.length ∧ s.engine.pos = 3) := by
  obtain ⟨hpos, -, hlen⟩ := h.slot_progress hk
  have hop := List.getElem?_eq_getElem hpos
  rw [SlotKind.ops_length] at hpos
  by_cases h3 : s.engine.pos < 3
  · have hlt : s.engine.pos + 1 < (k.ops s.params).length := by rw [SlotKind.ops_length]; omega
    refine .inl ⟨?_, h3, slotEvent_pos_of_lt h3⟩
    rw [Machine.slotEvent_of_lt hop hlt]
    simp
  · have hlast : s.engine.pos + 1 = (k.ops s.params).length := by rw [SlotKind.ops_length]; omega
    refine .inr ⟨?_, by omega⟩
    rw [Machine.slotEvent_of_last hop hlast]
    have hsam : ∀ u : State, (u.closeSlot k).engine.samples = u.engine.samples ++ u.engine.slotSamples := by
      intro u; simp only [State.closeSlot, State.endSlot_engine]
    have htake : (k.ops s.params).take s.engine.pos ++ [(k.ops s.params)[s.engine.pos]] = k.ops s.params := by
      rw [← List.take_succ_eq_append_getElem, hlast, List.take_length]
    have hpos' := samplesIn_ops_pos k s.params
    rw [← htake, samplesIn_concat, ← hlen] at hpos'
    rw [hsam, List.length_append, lineOp_slotSamples_length, lineOp_samples, openSlot_samples, openSlot_slotSamples]
    omega

/-- A sound state's command in progress ends after some number of engine steps, with DONE set. -/
theorem State.Inv.engine_ends {s : State} (h : s.Inv) (hb : s.engine.seq ≠ .idle) :
    ∃ n, BusyFor n s ∧ (State.engineStep^[n] s).engine.seq = .idle ∧ (State.engineStep^[n] s).regs.done = true := by
  obtain ⟨opc, k, hq⟩ : ∃ opc k, s.engine.seq = .busy opc k := by
    cases hq : s.engine.seq with
    | idle => exact absurd hq hb
    | busy opc k => exact ⟨opc, k, rfl⟩
  obtain ⟨N, hN⟩ := (procOfOpcode opc s.params s.regs).resume_done_of_length
  generalize hμ : 4 * (N - s.engine.samples.length) + (4 - s.engine.pos) = μ
  induction μ using Nat.strong_induction_on generalizing s k with
  | _ μ ih =>
    obtain ⟨st, -, hstep⟩ | ⟨sl, hsl, hstep⟩ := engineStep_cases hq
    · refine ⟨1, .cons hb fun j hj => absurd hj (Nat.not_lt_zero j), ?_⟩
      rw [Function.iterate_one, hstep]
      exact ⟨rfl, rfl⟩
    · obtain ⟨m, hm⟩ := slotEvent_seq hq sl
      have hlen : s.engine.samples.length < N := by
        by_contra hge
        obtain ⟨st, hst⟩ := hN s.engine.samples (by omega)
        simp [State.currentSlot, hq, State.remaining, hst] at hsl
      have hdec : 4 * (N - (sl |> s.slotEvent).engine.samples.length) + (4 - (s.slotEvent sl).engine.pos) < μ := by
        obtain ⟨hs, h3, hp⟩ | ⟨hs, h3⟩ := h.slotEvent_progress hsl
        · rw [hs, hp]; omega
        · omega
      obtain ⟨n, hbn, hend⟩ := ih _ hdec (h.slotEvent hsl) (by simp [hm]) m hm
        (by rw [slotEvent_params, slotEvent_regs]; exact hN) rfl
      refine ⟨n + 1, .cons hb (by rw [hstep]; exact hbn), ?_⟩
      rw [Function.iterate_succ_apply, hstep]
      exact hend

/-! ## Every run ends -/

theorem memWrite_host (s : State) (a v : Byte) : (s.memWrite a v).host = s.host := by
  unfold State.memWrite
  split
  · unfold State.writeCtrl State.softReset
    dsimp only
    split
    · split <;> simp
    · rfl
  · split
    · rfl
    · split
      · unfold State.issue; split <;> rfl
      · rfl
      · rfl

theorem writeCmd_host {s t : State} (hs : s.engine.seq = .idle) {v : Byte} (ht : s.writeCmd v = .next t) :
    t.host = s.host := by
  have hissue : (s.issue v).host = s.host := by unfold State.issue; split <;> rfl
  unfold State.writeCmd at ht
  cases hv : decode .cmd8 v with
  | error e => simp only [hv] at ht; cases ht; exact hissue
  | ok i =>
    simp only [hv] at ht
    split at ht
    · cases ht; exact hissue
    · obtain ⟨t', ht', hafter, -⟩ := exec_cmd8_idle (encode_of_decode hv).1 hs rfl
      cases ht.symm.trans ht'
      exact hafter.host

/-- An access performed is done, but for a poll that meets BUSY = 1. -/
theorem perform_host {s t : State} {op : HostOp} (ht : s.perform op = .next t) :
    t.host = s.host ∨ s.engine.seq ≠ .idle ∧ t = { s with host := ⟨none, op⟩ :: s.host } := by
  cases op with
  | rd a => cases ht; exact .inl rfl
  | wr a v =>
    by_cases hw : s.engine.seq ≠ .idle ∨ a ≠ 0x00
    · rw [perform_wr v hw] at ht
      cases ht
      exact .inl (memWrite_host s a v)
    · obtain ⟨hq, rfl⟩ : s.engine.seq = .idle ∧ a = 0x00 := by simpa only [not_or, ne_eq, not_not] using hw
      have hcmd : regAt 0x00 = some .cmd := regAt_regAddr .cmd
      simp only [State.perform, hq, hcmd] at ht
      exact .inl (writeCmd_host hq ht)
  | wait =>
    cases hq : s.engine.seq with
    | idle => simp only [State.perform, hq] at ht; cases ht; exact .inl rfl
    | busy opc k => simp only [State.perform, hq] at ht; cases ht; exact .inr ⟨by simp, rfl⟩
  | wide w a => cases ht

/-- Every access to come is one byte wide. -/
def BytesOnly (host : List Pending) : Prop := ∀ p ∈ host, p.op.wf = true

theorem perform_next_of_wf (s : State) {op : HostOp} (h : op.wf = true) : ∃ t, s.perform op = .next t := by
  rcases perform_outcome s op with ht | ⟨w, a, rfl, -⟩
  · exact ht
  · exact absurd h Bool.false_ne_true

theorem State.Inv.iterate_engineStep {s : State} (h : s.Inv) (n : Nat) : (State.engineStep^[n] s).Inv := by
  induction n generalizing s with
  | zero => exact h
  | succ n ih => rw [Function.iterate_succ_apply]; exact ih h.engineStep

/-- A command in progress leads to an Idle engine, or to fewer accesses to come. -/
theorem busy_leads_on {n : Nat} {s : State} (h : s.Inv) (hops : BytesOnly s.host) (hb : BusyFor n s)
    (hend : (State.engineStep^[n] s).engine.seq = .idle) :
    ∃ t, Reaches s t ∧ t.Inv ∧ BytesOnly t.host ∧
      (t.host.length < s.host.length ∨ t.engine.seq = .idle ∧ t.host.length = s.host.length) := by
  induction n generalizing s with
  | zero => exact ⟨s, .refl s, h, hops, .inr ⟨hend, rfl⟩⟩
  | succ n ih =>
    have hbusy : s.engine.seq ≠ .idle := hb 0 (by omega)
    obtain ⟨op, rest, hh, hs⟩ | ⟨host, hhost, hs⟩ := step_busy_cases hbusy
    · have hop : op.wf = true := hops ⟨some 0, op⟩ (by rw [hh]; exact List.mem_cons_self)
      have hrest : BytesOnly rest := fun p hp => hops p (by rw [hh]; exact List.mem_cons_of_mem _ hp)
      obtain ⟨t, ht⟩ := perform_next_of_wf { s with host := rest } hop
      rcases perform_host ht with hth | ⟨-, rfl⟩
      · have hth' : t.host = rest := hth
        refine ⟨t, .head (hs.trans ht) (.refl t), (h.withHost rest).perform ht, by rw [hth']; exact hrest, .inl ?_⟩
        rw [hth', hh]
        exact Nat.lt_succ_self _
      · have hover : ({ s with host := ⟨none, op⟩ :: rest } : State) =
            s.overlay (⟨none, op⟩ :: rest) s.reads s.regs.ovr s.regs.ie := rfl
        have hrun := run_of_not_due (n + 1) (hb.overlay (⟨none, op⟩ :: rest) s.reads s.regs.ovr s.regs.ie) rfl
        rw [iterate_engineStep_overlay] at hrun
        refine ⟨_, .head (hs.trans ht) ⟨n + 1, hrun⟩, ?_, ?_, .inr ⟨hend, ?_⟩⟩
        · rw [← iterate_engineStep_overlay, ← hover]
          exact (h.withHost _).iterate_engineStep (n + 1)
        · exact List.forall_mem_cons.mpr ⟨hop, hrest⟩
        · rw [hh]; rfl
    · have hover : ({ s with host := host } : State) = s.overlay host s.reads s.regs.ovr s.regs.ie := rfl
      have hstep : ({ s with host := host } : State).engineStep =
          s.engineStep.overlay host s.reads s.regs.ovr s.regs.ie := by rw [hover, engineStep_overlay]
      have hlen : host.length = s.host.length := by simpa using congrArg List.length hhost
      have hbytes : BytesOnly host := by
        intro p hp
        have : p.op ∈ s.host.map Pending.op := hhost ▸ List.mem_map_of_mem hp
        obtain ⟨q, hq, hqp⟩ := List.mem_map.mp this
        exact hqp ▸ hops q hq
      rw [hstep] at hs
      obtain ⟨t, hreach, hinv, htb, hcase⟩ := ih (s := s.engineStep.overlay host s.reads s.regs.ovr s.regs.ie)
        (by rw [← hstep]; exact (h.withHost host).engineStep) hbytes (hb.tail.overlay _ _ _ _)
        (by rw [iterate_engineStep_overlay]; exact hend)
      refine ⟨t, .head hs hreach, hinv, htb, ?_⟩
      rw [← hlen]
      exact hcase

/-- With the engine Idle a step takes an access off, sends a waiting wire byte, or finds nothing to do. -/
theorem idle_leads_on {s : State} (h : s.Inv) (hops : BytesOnly s.host) (hq : s.engine.seq = .idle) :
    s.host = [] ∧ s.engine.txByte = none ∨
      ∃ t, step s = .next t ∧ t.Inv ∧ BytesOnly t.host ∧
        (t.host.length < s.host.length ∨
          t.engine.seq = .idle ∧ t.engine.txByte = none ∧ s.engine.txByte.isSome = true ∧ t.host = s.host) := by
  obtain ⟨b, hb, hs⟩ | ⟨p, rest, -, hh, hs⟩ | ⟨hb, hh, -⟩ := step_idle_cases hq
  · obtain ⟨t, ht⟩ := sendWire_next s b
    have hline : OnlyLine { s with engine := { s.engine with txByte := none } } t := by
      unfold State.sendWire at ht
      cases hv : decode .wire8 b with
      | error e => simp only [hv] at ht; cases ht; exact .refl _
      | ok i =>
        simp only [hv] at ht
        rw [exec_wire8 i (encode_of_decode hv).1] at ht
        cases ht
        exact Proc.run_onlyLine _ _
    have hth : t.host = s.host := hline.host
    exact .inr ⟨t, hs.trans ht, h.sendWire hq ht, by rw [hth]; exact hops,
      .inr ⟨hline.seq.trans hq, hline.txByte, by rw [hb]; rfl, hth⟩⟩
  · have hrest : BytesOnly rest := fun q hq' => hops q (by rw [hh]; exact List.mem_cons_of_mem _ hq')
    obtain ⟨t, ht⟩ := perform_next_of_wf { s with host := rest } (hops p (by rw [hh]; exact List.mem_cons_self))
    have hth : t.host = rest := by
      rcases perform_host ht with hth | ⟨hne, -⟩
      · exact hth
      · exact absurd hq hne
    refine .inr ⟨t, hs.trans ht, (h.withHost rest).perform ht, by rw [hth]; exact hrest, .inl ?_⟩
    rw [hth, hh]
    exact Nat.lt_succ_self _
  · exact .inl ⟨hh, hb⟩

/-- From every sound state a program of accesses one byte wide comes to its end. -/
theorem run_ends {s : State} (h : s.Inv) (hops : BytesOnly s.host) : ∃ t, Reaches s t ∧ t.ended = true := by
  generalize hL : s.host.length = L
  induction L using Nat.strong_induction_on generalizing s with
  | _ L ih =>
    have ended : ∀ u : State, u.host = [] → u.engine.seq = .idle → u.ended = true := by
      intro u hu hq
      simp [State.ended, hu, State.busy, hq]
    have idle : ∀ u : State, u.Inv → BytesOnly u.host → u.host.length = L → u.engine.seq = .idle →
        u.engine.txByte = none → ∃ t, Reaches u t ∧ t.ended = true := by
      intro u hu hub hul huq hut
      obtain ⟨hh, -⟩ | ⟨t, ht, hti, htb, hlt | ⟨-, -, hsome, -⟩⟩ := idle_leads_on hu hub huq
      · exact ⟨u, .refl u, ended u hh huq⟩
      · obtain ⟨v, hv, hve⟩ := ih t.host.length (by omega) hti htb rfl
        exact ⟨v, .head ht hv, hve⟩
      · simp [hut] at hsome
    have idleTx : ∀ u : State, u.Inv → BytesOnly u.host → u.host.length = L → u.engine.seq = .idle →
        ∃ t, Reaches u t ∧ t.ended = true := by
      intro u hu hub hul huq
      obtain ⟨hh, -⟩ | ⟨t, ht, hti, htb, hlt | ⟨htq, htt, -, hth⟩⟩ := idle_leads_on hu hub huq
      · exact ⟨u, .refl u, ended u hh huq⟩
      · obtain ⟨v, hv, hve⟩ := ih t.host.length (by omega) hti htb rfl
        exact ⟨v, .head ht hv, hve⟩
      · obtain ⟨v, hv, hve⟩ := idle t hti htb (by rw [hth, hul]) htq htt
        exact ⟨v, .head ht hv, hve⟩
    by_cases hq : s.engine.seq = .idle
    · exact idleTx s h hops hL hq
    · obtain ⟨n, hb, hend, -⟩ := h.engine_ends hq
      obtain ⟨t, hreach, hti, htb, hlt | ⟨htq, hlen⟩⟩ := busy_leads_on h hops hb hend
      · obtain ⟨v, hv, hve⟩ := ih t.host.length (by omega) hti htb rfl
        exact ⟨v, hreach.trans hv, hve⟩
      · obtain ⟨v, hv, hve⟩ := idleTx t hti htb (by omega) htq
        exact ⟨v, hreach.trans hv, hve⟩

/-- The accesses of a program are one byte wide (30_encoding.md R119, R120). -/
theorem programAccesses_bytesOnly (prog : List Line) (arrivals : List Nat) :
    BytesOnly (programAccesses prog arrivals) := by
  have hline : ∀ l : Line, ∀ op ∈ lineOps l, op.wf = true := by
    intro l op hop
    cases l <;> simp only [lineOps, cmdOp, List.mem_cons, List.not_mem_nil, or_false] at hop <;>
      rcases hop with rfl | rfl | rfl | rfl | rfl | rfl | rfl | rfl <;> rfl
  intro p hp
  obtain ⟨⟨op, j⟩, hx, rfl⟩ := List.mem_map.mp hp
  have hop : op ∈ prog.flatMap lineOps := (List.mem_zipIdx' hx).2 ▸ List.getElem_mem _
  obtain ⟨l, -, hl⟩ := List.mem_flatMap.mp hop
  exact hline l op hl

/-- Settles O58. -/
theorem everyCommandInProgressEnds : Obligations.EveryCommandInProgressEnds := by
  refine ⟨fun s h hb hops => ?command, fun s prog arrivals h => ?program⟩
  case command =>
    obtain ⟨n, hbn, hq, hdone⟩ := h.engine_ends ((busy_iff s).mp hb)
    by_cases hd : s.accessDue = false
    · have hhost : ∀ (n : Nat) (u : State), (State.engineStep^[n] u).host = u.host := by
        intro n
        induction n with
        | zero => exact fun u => rfl
        | succ n ih => exact fun u => by rw [Function.iterate_succ_apply, ih, engineStep_host]
      exact ⟨n, 0, _, run_of_not_due n hbn hd, hq, hdone, by rw [hhost, List.drop_zero], fun _ => hhost n s⟩
    · obtain ⟨N, m, host', reads', hrun, hhost⟩ := run_landing n s s.host s.reads s.regs.ovr s.regs.ie hbn hops
      exact ⟨N, m, _, hrun, hq, hdone, hhost, fun h' => absurd h' hd⟩
  case program =>
    obtain ⟨t, ⟨n, hn⟩, hend⟩ := run_ends (h.withHost (programAccesses prog arrivals))
      (programAccesses_bytesOnly prog arrivals)
    exact ⟨n, t, hn, hend⟩

end Sys2Proof.Machine

/-! The search on the reference bus: a pass finds the next address in K-order, and the passes find every address
(42_search.md R184, R190, R191, 00_scope.md R13, 45_bus_environment.md R285). -/

namespace Sys2Proof.Machine

/-! ## Addresses that agree on their first bits, and their order -/

/-- The two addresses agree in every position below `n`. -/
def agreesBelow (a p : Addr) (n : Nat) : Bool := decide (∀ j, j < n → 1 ≤ j → rombit a j = rombit p j)

theorem agreesBelow_iff {a p : Addr} {n : Nat} :
    agreesBelow a p n = true ↔ ∀ j, 1 ≤ j → j < n → rombit a j = rombit p j :=
  decide_eq_true_iff.trans (forall_congr' fun _ => forall_comm)

theorem agreesBelow_one (a p : Addr) : agreesBelow a p 1 = true :=
  agreesBelow_iff.mpr fun j h1 h2 => absurd h1 (by omega)

theorem agreesBelow_succ {a p : Addr} {n : Nat} (hn : 1 ≤ n) :
    agreesBelow a p (n + 1) = true ↔ agreesBelow a p n = true ∧ rombit a n = rombit p n := by
  rw [agreesBelow_iff, agreesBelow_iff]
  refine ⟨fun h => ⟨fun j h1 h2 => h j h1 (by omega), h n hn (by omega)⟩, fun ⟨h, hbit⟩ j h1 h2 => ?_⟩
  rcases Nat.lt_succ_iff_lt_or_eq.mp h2 with hj | rfl
  · exact h j h1 hj
  · exact hbit

theorem agreesBelow_comm {a p : Addr} {n : Nat} (h : agreesBelow a p n = true) : agreesBelow p a n = true :=
  agreesBelow_iff.mpr fun j h1 h2 => (agreesBelow_iff.mp h j h1 h2).symm

theorem agreesBelow_trans {a b p : Addr} {n : Nat} (h : agreesBelow a b n = true) (g : agreesBelow b p n = true) :
    agreesBelow a p n = true :=
  agreesBelow_iff.mpr fun j h1 h2 => (agreesBelow_iff.mp h j h1 h2).trans (agreesBelow_iff.mp g j h1 h2)

/-- The first address comes before the second: at the first position in which they differ it has 0. -/
def Before (a b : Addr) : Prop :=
  ∃ n, 1 ≤ n ∧ n ≤ 64 ∧ agreesBelow a b n = true ∧ rombit a n = false ∧ rombit b n = true

/-- Of two addresses that differ one comes before the other. -/
theorem before_of_ne {a b : Addr} (h : a ≠ b) : Before a b ∨ Before b a := by
  have hex : ∃ n, 1 ≤ n ∧ n ≤ 64 ∧ rombit a n ≠ rombit b n := by
    by_contra hno
    push Not at hno
    exact h (addr_ext.mp hno)
  classical
  obtain ⟨h1, h64, hne⟩ := Nat.find_spec hex
  have hbelow : agreesBelow a b (Nat.find hex) = true := by
    refine agreesBelow_iff.mpr fun j hj1 hj => ?_
    by_contra hjne
    exact Nat.find_min hex hj ⟨hj1, by omega, hjne⟩
  cases ha : rombit a (Nat.find hex) with
  | false => exact .inl ⟨_, h1, h64, hbelow, ha, by rw [ha] at hne; simpa using hne.symm⟩
  | true => exact .inr ⟨_, h1, h64, agreesBelow_comm hbelow, by rw [ha] at hne; simpa using hne.symm, ha⟩

/-- The weight of the `m` bits from position `n` on, the first of them the most significant. -/
def suffixKey (a : Addr) (m n : Nat) : Nat :=
  match m with
  | 0 => 0
  | m + 1 => (if rombit a n then 2 ^ m else 0) + suffixKey a m (n + 1)

theorem suffixKey_lt (a : Addr) (m n : Nat) : suffixKey a m n < 2 ^ m := by
  induction m generalizing n with
  | zero => simp [suffixKey]
  | succ m ih =>
    have := ih (n + 1)
    rw [suffixKey, pow_succ]
    split <;> omega

theorem suffixKey_eq_sum (a : Addr) (m n : Nat) :
    suffixKey a m n = ((List.range m).map fun j => if rombit a (n + j) then 2 ^ (m - 1 - j) else 0).sum := by
  induction m generalizing n with
  | zero => rfl
  | succ m ih =>
    rw [suffixKey, ih, List.range_succ_eq_map, List.map_cons, List.sum_cons, List.map_map]
    congr 2
    refine List.map_congr_left fun j _ => ?_
    simp only [Function.comp_apply, Nat.succ_eq_add_one]
    rw [show n + 1 + j = n + (j + 1) by omega, show m - 1 - j = m + 1 - 1 - (j + 1) by omega]

/-- `K(a)` of R13 is the weight of all 64 bits. -/
theorem kKey_eq (a : Addr) : kKey a = suffixKey a 64 1 := by
  rw [suffixKey_eq_sum, kKey]
  simp only [Nat.add_comm 1]

/-- At the first difference the address with 0 has the smaller weight, and so it has from every position before. -/
theorem suffixKey_lt_of_differ {a b : Addr} {n : Nat} (hagree : agreesBelow a b n = true) (ha : rombit a n = false)
    (hb : rombit b n = true) (m : Nat) {k : Nat} (h1 : 1 ≤ k) (hk : k ≤ n) (hm : n < k + m) :
    suffixKey a m k < suffixKey b m k := by
  induction m generalizing k with
  | zero => omega
  | succ m ih =>
    rw [suffixKey, suffixKey]
    rcases Nat.eq_or_lt_of_le hk with rfl | hlt
    · have := suffixKey_lt a m (k + 1)
      rw [ha, hb]
      simp only [Bool.false_eq_true, if_false, if_true]
      omega
    · have := ih (k := k + 1) (by omega) hlt (by omega)
      rw [agreesBelow_iff.mp hagree k h1 hlt]
      omega

/-- An address that comes before another has the smaller key. -/
theorem kKey_lt_of_before {a b : Addr} (h : Before a b) : kKey a < kKey b := by
  obtain ⟨n, h1, h64, hagree, ha, hb⟩ := h
  rw [kKey_eq, kKey_eq]
  exact suffixKey_lt_of_differ hagree ha hb 64 (le_refl 1) h1 (by omega)

theorem kKey_injective : Function.Injective kKey := by
  intro a b h
  by_contra hne
  rcases before_of_ne hne with hlt | hlt
  · exact (kKey_lt_of_before hlt).ne h
  · exact (kKey_lt_of_before hlt).ne' h

theorem before_of_kKey_lt {a b : Addr} (h : kKey a < kKey b) : Before a b := by
  have hne : a ≠ b := by rintro rfl; exact lt_irrefl _ h
  rcases before_of_ne hne with hb | hb
  · exact hb
  · exact absurd (kKey_lt_of_before hb) h.asymm

/-! ## The walk of a pass over a set of addresses -/

/-- Among the addresses that agree with `q` so far both bits occur at position `n`: the pair read there is (0,0). -/
def Branches (as : List Addr) (q : Addr) (n : Nat) : Prop :=
  (∃ a ∈ as, agreesBelow a q n = true ∧ rombit a n = false) ∧
    ∃ a ∈ as, agreesBelow a q n = true ∧ rombit a n = true

/-- The walk from position `n` on ends at the address `q`: it chooses by the branch rule where both bits occur, and `z`
is the last position at which it chose 0 there, or what it was before (R184). -/
structure Walk (c : Cursor) (as : List Addr) (n : Nat) (path : Addr) (lz : Nat) (q : Addr) (z : Nat) : Prop where
  mem : q ∈ as
  below : agreesBelow q path n = true
  choose : ∀ j, n ≤ j → j ≤ 64 → Branches as q j → rombit q j = c.choose j
  last_ge : ∀ j, n ≤ j → j ≤ 64 → Branches as q j → rombit q j = false → j ≤ z
  last_eq : z = lz ∨ (n ≤ z ∧ z ≤ 64 ∧ Branches as q z ∧ rombit q z = false)

theorem Branches.congr {as : List Addr} {q p : Addr} {n : Nat} (h : Branches as q n) (hqp : agreesBelow q p n = true) :
    Branches as p n := by
  obtain ⟨⟨a, ha, hag, ha0⟩, a', ha', hag', ha1⟩ := h
  exact ⟨⟨a, ha, agreesBelow_trans hag hqp, ha0⟩, a', ha', agreesBelow_trans hag' hqp, ha1⟩

/-! ## The devices during a pass -/

/-- A device during the search, at position `n` of the path: it takes part while its address agrees with the path
(45_bus_environment.md R285). -/
def Device.searchingAt (path : Addr) (n : Nat) (ph : SearchPhase) (d : Device) : Device :=
  d.inMode (if agreesBelow d.addr path n then .search n ph else .idle)

theorem Device.searchingAt_pulls_A (path : Addr) (n : Nat) (d : Device) :
    (d.searchingAt path n .A).pulls = (agreesBelow d.addr path n && !rombit d.addr n) := by
  unfold Device.searchingAt
  cases agreesBelow d.addr path n <;> rfl

theorem Device.searchingAt_pulls_B (path : Addr) (n : Nat) (d : Device) :
    (d.searchingAt path n .B).pulls = (agreesBelow d.addr path n && rombit d.addr n) := by
  unfold Device.searchingAt
  cases agreesBelow d.addr path n <;> rfl

theorem Device.searchingAt_afterBit_A (path : Addr) (n : Nat) (o : Bool) :
    Device.afterBit o ∘ Device.searchingAt path n .A = Device.searchingAt path n .B := by
  funext d
  rw [Function.comp_apply, Device.searchingAt, Device.searchingAt]
  cases agreesBelow d.addr path n <;> rfl

theorem Device.searchingAt_afterBit_B (path : Addr) (n : Nat) (o : Bool) :
    Device.afterBit o ∘ Device.searchingAt path n .B = Device.searchingAt path n .C := by
  funext d
  rw [Function.comp_apply, Device.searchingAt, Device.searchingAt]
  cases agreesBelow d.addr path n <;> rfl

/-- The path with its next bit written agrees with an address that has that bit. -/
theorem agreesBelow_setPathBit {a path : Addr} {n : Nat} {o : Bool} (hn : 1 ≤ n) (h64 : n ≤ 64)
    (hz : rombit path n = false) :
    agreesBelow a (setPathBit path n o) (n + 1) = true ↔ agreesBelow a path n = true ∧ rombit a n = o := by
  have hat : rombit (setPathBit path n o) n = o := by
    rw [rombit_setPathBit _ _ _ _ hn h64 hn, if_pos rfl, hz, Bool.false_or]
  have hbelow : agreesBelow a (setPathBit path n o) n = true ↔ agreesBelow a path n = true := by
    rw [agreesBelow_iff, agreesBelow_iff]
    refine forall_congr' fun j => forall_congr' fun h1 => forall_congr' fun h2 => ?_
    rw [rombit_setPathBit _ _ _ _ hn h64 h1, if_neg (by omega)]
  rw [agreesBelow_succ hn, hat, hbelow]

theorem Device.searchingAt_afterBit_C (path : Addr) {n : Nat} (o : Bool) (hn : 1 ≤ n) (h64 : n < 64)
    (hz : rombit path n = false) :
    Device.afterBit o ∘ Device.searchingAt path n .C = Device.searchingAt (setPathBit path n o) (n + 1) .A := by
  funext d
  have hiff := agreesBelow_setPathBit (a := d.addr) (o := o) hn h64.le hz
  rw [Function.comp_apply, Device.searchingAt, Device.searchingAt]
  cases hag : agreesBelow d.addr path n with
  | false =>
    have hno : agreesBelow d.addr (setPathBit path n o) (n + 1) = false := by
      rw [Bool.eq_false_iff]
      exact fun h => absurd (hiff.mp h).1 (by rw [hag]; exact Bool.false_ne_true)
    rw [hno]; rfl
  | true =>
    by_cases hbit : rombit d.addr n = o
    · rw [hiff.mpr ⟨hag, hbit⟩]
      simp [Device.afterBit, Device.modeAfterBit, Device.inMode, hbit, h64.ne]
    · have hno : agreesBelow d.addr (setPathBit path n o) (n + 1) = false := by
        rw [Bool.eq_false_iff]
        exact fun h => hbit (hiff.mp h).2
      have hbit' : ¬o = rombit d.addr n := fun e => hbit e.symm
      rw [hno]
      simp [Device.afterBit, Device.modeAfterBit, Device.inMode, hbit']

/-- The pair a position reads: each sample is 1 exactly when no device that takes part pulls (R285). -/
theorem positionReads_refers {s : State} {ds : List Device} {path : Addr} {n : Nat}
    (h : s.bus.Refers (ds.map (Device.searchingAt path n .A))) :
    ((s.bitSlot true).1 = true ↔ ∀ d ∈ ds, agreesBelow d.addr path n = true → rombit d.addr n = true) ∧
      (((s.bitSlot true).2.bitSlot true).1 = true ↔
        ∀ d ∈ ds, agreesBelow d.addr path n = true → rombit d.addr n = false) ∧
      ((s.bitSlot true).2.bitSlot true).2.bus.Refers (ds.map (Device.searchingAt path n .C)) := by
  obtain ⟨hA, hbusB⟩ := bitSlot_refers h true
  rw [List.map_map, Device.searchingAt_afterBit_A] at hbusB
  obtain ⟨hB, hbusC⟩ := bitSlot_refers hbusB true
  rw [List.map_map, Device.searchingAt_afterBit_B] at hbusC
  refine ⟨?_, ?_, hbusC⟩
  · rw [hA, Bool.true_and, List.all_map, List.all_eq_true]
    refine forall_congr' fun d => forall_congr' fun _ => ?_
    rw [Function.comp_apply, Device.searchingAt_pulls_A]
    cases agreesBelow d.addr path n <;> simp
  · rw [hB, Bool.true_and, List.all_map, List.all_eq_true]
    refine forall_congr' fun d => forall_congr' fun _ => ?_
    rw [Function.comp_apply, Device.searchingAt_pulls_B]
    cases agreesBelow d.addr path n <;> simp

/-- What the pair `(b, cb)` read at a position says of the addresses `as` that agree with the path there. -/
structure PairReads (as : List Addr) (path : Addr) (n : Nat) (b cb : Bool) : Prop where
  one : b = true ↔ ∀ a ∈ as, agreesBelow a path n = true → rombit a n = true
  zero : cb = true ↔ ∀ a ∈ as, agreesBelow a path n = true → rombit a n = false

/-- With an address that takes part the pair (1,1) is not read, and one that takes part has the direction's bit. -/
theorem PairReads.direction {as : List Addr} {path : Addr} {n : Nat} {b cb : Bool} (h : PairReads as path n b cb)
    (hact : ∃ a ∈ as, agreesBelow a path n = true) (c : Cursor) :
    (b && cb) = false ∧ ∃ a ∈ as, agreesBelow a path n = true ∧ rombit a n = c.direction n b cb := by
  obtain ⟨a, ha, hag⟩ := hact
  have h1 := h.one
  have h0 := h.zero
  have hsome1 : cb = false → ∃ a ∈ as, agreesBelow a path n = true ∧ rombit a n = true := by
    intro hcb
    by_contra hno
    push Not at hno
    exact absurd (h0.mpr fun a ha hag => by simpa using hno a ha hag) (by rw [hcb]; exact Bool.false_ne_true)
  have hsome0 : b = false → ∃ a ∈ as, agreesBelow a path n = true ∧ rombit a n = false := by
    intro hb
    by_contra hno
    push Not at hno
    exact absurd (h1.mpr fun a ha hag => by simpa using hno a ha hag) (by rw [hb]; exact Bool.false_ne_true)
  cases hb : b with
  | true =>
    have hone := h1.mp hb a ha hag
    cases hcb : cb with
    | true => exact absurd (hone.symm.trans (h0.mp hcb a ha hag)) Bool.true_eq_false.mp
    | false => exact ⟨rfl, hsome1 hcb⟩
  | false =>
    cases hcb : cb with
    | true => exact ⟨rfl, hsome0 hb⟩
    | false =>
      refine ⟨rfl, ?_⟩
      change ∃ a ∈ as, agreesBelow a path n = true ∧ rombit a n = c.choose n
      cases c.choose n with
      | true => exact hsome1 hcb
      | false => exact hsome0 hb

/-- The pair (0,0) is read exactly where both bits occur. -/
theorem PairReads.branches_iff {as : List Addr} {path : Addr} {n : Nat} {b cb : Bool} (h : PairReads as path n b cb) :
    Branches as path n ↔ b = false ∧ cb = false := by
  obtain ⟨h1, h0⟩ := h
  constructor
  · rintro ⟨⟨a, ha, hag, ha0⟩, a', ha', hag', ha1⟩
    refine ⟨Bool.eq_false_iff.mpr fun hb => ?_, Bool.eq_false_iff.mpr fun hcb => ?_⟩
    · exact absurd (h1.mp hb a ha hag) (by rw [ha0]; exact Bool.false_ne_true)
    · exact absurd (h0.mp hcb a' ha' hag') (by rw [ha1]; simp)
  · rintro ⟨hb, hcb⟩
    constructor
    · by_contra hno
      push Not at hno
      exact absurd (h1.mpr fun a ha hag => by simpa using hno a ha hag) (by rw [hb]; exact Bool.false_ne_true)
    · by_contra hno
      push Not at hno
      exact absurd (h0.mpr fun a ha hag => by simpa using hno a ha hag) (by rw [hcb]; exact Bool.false_ne_true)

/-- One position of the walk, before the rest of it. -/
theorem Walk.cons {c : Cursor} {as : List Addr} {n : Nat} {path : Addr} {lz : Nat} {q : Addr} {z : Nat} {b cb : Bool}
    (hn : 1 ≤ n) (h64 : n ≤ 64) (hz : rombit path n = false) (hr : PairReads as path n b cb)
    (hpair : (b && cb) = false)
    (h : Walk c as (n + 1) (setPathBit path n (c.direction n b cb)) (lastZero n b cb (c.direction n b cb) lz) q z) :
    Walk c as n path lz q z := by
  obtain ⟨hmem, hbelow, hchoose, hge, heq⟩ := h
  obtain ⟨hag, hbit⟩ := (agreesBelow_setPathBit hn h64 hz).mp hbelow
  have hbr : Branches as q n ↔ b = false ∧ cb = false := by
    rw [← hr.branches_iff]
    exact ⟨fun h => h.congr hag, fun h => h.congr (agreesBelow_comm hag)⟩
  have hdir : b = false ∧ cb = false → c.direction n b cb = c.choose n := by
    rintro ⟨rfl, rfl⟩; rfl
  refine ⟨hmem, hag, fun j hj hj64 hb => ?_, fun j hj hj64 hb h0 => ?_, ?_⟩
  · rcases Nat.eq_or_lt_of_le hj with rfl | hlt
    · rw [hbit, hdir (hbr.mp hb)]
    · exact hchoose j hlt hj64 hb
  · rcases Nat.eq_or_lt_of_le hj with rfl | hlt
    · obtain ⟨rfl, rfl⟩ := hbr.mp hb
      have hlz : lastZero n false false (c.direction n false false) lz = n := if_pos ⟨rfl, hbit.symm.trans h0⟩
      rcases heq with e | ⟨h1, -⟩
      · rw [e, hlz]
      · omega
    · exact hge j hlt hj64 hb h0
  · rcases heq with e | ⟨h1, h2, h3, h4⟩
    · by_cases hc : b = cb ∧ c.direction n b cb = false
      · have hlz : lastZero n b cb (c.direction n b cb) lz = n := if_pos hc
        have hb : b = false := by
          obtain ⟨rfl, -⟩ := hc
          simpa using hpair
        rw [e, hlz]
        exact .inr ⟨le_refl n, h64, hbr.mpr ⟨hb, hc.1 ▸ hb⟩, hbit.trans hc.2⟩
      · have hlz : lastZero n b cb (c.direction n b cb) lz = lz := if_neg hc
        exact .inl (e.trans hlz)
    · exact .inr ⟨by omega, h2, h3, h4⟩

/-- The positions of a pass on the reference bus, some device of which agrees with the path so far: they end without a
(1,1) pair, at the address their walk reaches. -/
theorem searchBits_refers (c : Cursor) (m n : Nat) (path : Addr) (lz : Nat) {s : State} {ds : List Device} (hn : 1 ≤ n)
    (hm : n + m = 65) (hz : ∀ j, n ≤ j → rombit path j = false)
    (hbus : 0 < m → s.bus.Refers (ds.map (Device.searchingAt path n .A)))
    (hact : ∃ a ∈ ds.map Device.addr, agreesBelow a path n = true) :
    ∃ q z, ((searchBits c m n path lz).run s).1 = some (q, z) ∧ Walk c (ds.map Device.addr) n path lz q z ∧
      ((searchBits c m n path lz).run s).2.line.slots = s.line.slots + 3 * m := by
  induction m generalizing n path lz s with
  | zero =>
    obtain ⟨a, ha, hag⟩ := hact
    obtain rfl : a = path := addr_ext.mp fun j h1 h2 => agreesBelow_iff.mp hag j h1 (by omega)
    exact ⟨a, lz, rfl,
      ⟨ha, agreesBelow_iff.mpr fun _ _ _ => rfl, fun j _ _ => by omega, fun j _ _ => by omega, .inl rfl⟩, rfl⟩
  | succ m ih =>
    have h64 : n ≤ 64 := by omega
    obtain ⟨hb, hcb, hbusC⟩ := positionReads_refers (hbus (Nat.succ_pos m))
    set b := (s.bitSlot true).1
    set cb := ((s.bitSlot true).2.bitSlot true).1
    set s2 := ((s.bitSlot true).2.bitSlot true).2 with hs2
    have hr : PairReads (ds.map Device.addr) path n b cb :=
      ⟨by rw [hb, List.forall_mem_map], by rw [hcb, List.forall_mem_map]⟩
    obtain ⟨hpair, a, ha, hag, hbit⟩ := hr.direction hact c
    set d := c.direction n b cb with hd
    have hrun : (searchBits c (m + 1) n path lz).run s =
        (searchBits c m (n + 1) (setPathBit path n d) (lastZero n b cb d lz)).run (s2.bitSlot d).2 := by
      change Proc.run (if (b && cb) = true then _ else _) s2 = _
      rw [if_neg (by rw [hpair]; exact Bool.false_ne_true)]
      rfl
    have hz' : ∀ j, n + 1 ≤ j → rombit (setPathBit path n d) j = false := by
      intro j hj
      rw [rombit_setPathBit _ _ _ _ hn h64 (by omega), if_neg (by omega)]
      exact hz j (by omega)
    have hbus' : 0 < m → (s2.bitSlot d).2.bus.Refers (ds.map (Device.searchingAt (setPathBit path n d) (n + 1) .A)) := by
      intro hm0
      have h := (bitSlot_refers hbusC d).2
      rwa [List.map_map, Device.searchingAt_afterBit_C path d hn (by omega) (hz n (le_refl n))] at h
    obtain ⟨q, z, hres, hwalk, hslots⟩ := ih (n + 1) (setPathBit path n d) (lastZero n b cb d lz) (by omega) (by omega)
      hz' hbus' ⟨a, ha, (agreesBelow_setPathBit hn h64 (hz n (le_refl n))).mpr ⟨hag, hbit⟩⟩
    refine ⟨q, z, by rw [hrun, hres], hwalk.cons hn h64 (hz n (le_refl n)) hr hpair, ?_⟩
    rw [hrun, hslots, bitSlot_slots, hs2, bitSlot_slots, bitSlot_slots]
    omega

/-! ## A pass on the reference bus -/

/-- The reference bus at these addresses, no draw fixed. -/
structure Bus.RefersTo (b : Bus) (as : List Addr) : Prop where
  kind : b.kind = .reference
  script : b.script = []
  addrs : b.devices.map Device.addr = as

theorem Bus.RefersTo.draw {b : Bus} {as : List Addr} (h : b.RefersTo as) (pt : SamplePoint) :
    (b.draw pt).2.RefersTo as := by
  obtain ⟨hk, hs, ha⟩ := h
  simp only [Bus.draw, hs, Bus.natural]
  split
  · exact ⟨hk, hs, ha⟩
  · exact ⟨hk, rfl, ha⟩

theorem Bus.RefersTo.afterSlot {b : Bus} {as : List Addr} (h : b.RefersTo as) (k : SlotKind) :
    (b.afterSlot k).RefersTo as := by
  obtain ⟨hk, hs, rfl⟩ := h
  cases k with
  | reset => exact ⟨hk, hs, by simp [Bus.afterSlot, Device.afterReset]⟩
  | bit o => exact ⟨hk, hs, by simp [Bus.afterSlot]⟩

/-- Slots leave the reference bus at its addresses. -/
theorem Bus.RefersTo.run {α : Type} (p : Proc α) {s : State} {as : List Addr} (h : s.bus.RefersTo as) :
    (p.run s).2.bus.RefersTo as := by
  induction p generalizing s with
  | done a => exact h
  | reset k ih =>
    refine ih _ _ ?_
    rw [resetSlot_bus]
    exact ((h.draw _).draw _).afterSlot _
  | bit o k ih =>
    refine ih _ ?_
    cases o with
    | false => rw [bitSlot_zero_bus]; exact h.afterSlot _
    | true => rw [bitSlot_one_bus]; exact (h.draw _).afterSlot _

/-- A pass on a reference bus with a device completes, at the address its walk reaches. -/
theorem searchPass_refers {c : Cursor} (hc : c.sdone = false) {s : State} {as : List Addr} (h : s.bus.RefersTo as)
    (hne : as ≠ []) :
    ∃ q z, ((searchPass c).run s).1 =
        { code := if addrValid q then .ok else .crcError
          addr := some q, cursor := { sld := z, sdone := z == 0, spath := q }, pres := some true } ∧
      Walk c as 1 0 0 q z ∧ ((searchPass c).run s).2.line.slots = s.line.slots + 201 := by
  obtain ⟨hk, hs, rfl⟩ := h
  obtain ⟨hsamples, hreset⟩ := resetSlot_refers hk hs rfl
  have hdne : s.bus.devices ≠ [] := fun e => hne (by rw [e]; rfl)
  have hp : s.resetSlot.1.1 = false := by rw [hsamples]; simpa using hdne
  have hq : s.resetSlot.1.2 = true := by rw [hsamples]
  have hdevices : Device.afterBits (bitsOf 0xF0) ∘ Device.afterReset = Device.searchingAt 0 1 .A := by
    funext d
    rw [Function.comp_apply, Device.afterReset_searchRom, Device.searchingAt, if_pos (agreesBelow_one _ _)]
  have hbus : (afterSearchCommand s).bus.Refers (s.bus.devices.map (Device.searchingAt 0 1 .A)) := by
    have hsent := sendByte_refers 0xF0 hreset
    rw [List.map_map, hdevices] at hsent
    exact hsent
  obtain ⟨a, ha⟩ := List.exists_mem_of_ne_nil _ hne
  obtain ⟨q, z, hres, hwalk, hslots⟩ := searchBits_refers c 64 1 0 0 (le_refl 1) rfl (by simp [rombit]) (fun _ => hbus)
    ⟨a, ha, agreesBelow_one _ _⟩
  obtain ⟨r, -, hslots9⟩ := afterSearchCommand_run hp hq
  rw [searchPass_present hc hp hq, hres]
  exact ⟨q, z, rfl, hwalk, by rw [hslots, hslots9]⟩

/-! ## The next address in K-order -/

/-- `z` is the last position at which an address of `as` branches off upward from `q`, or 0 if none does. -/
structure LastBranch (as : List Addr) (q : Addr) (z : Nat) : Prop where
  ge : ∀ a ∈ as, ∀ j, 1 ≤ j → j ≤ 64 → agreesBelow a q j = true → rombit q j = false → rombit a j = true → j ≤ z
  eq : z = 0 ∨ (1 ≤ z ∧ z ≤ 64 ∧ rombit q z = false ∧ ∃ a ∈ as, agreesBelow a q z = true ∧ rombit a z = true)

/-- The end of a walk: SLD is its last branch (R184, R185). -/
theorem Walk.lastBranch {c : Cursor} {as : List Addr} {q : Addr} {z : Nat} (h : Walk c as 1 0 0 q z) :
    LastBranch as q z where
  ge := fun a ha j h1 h64 hag h0 hbit =>
    h.last_ge j h1 h64 ⟨⟨q, h.mem, agreesBelow_iff.mpr fun _ _ _ => rfl, h0⟩, a, ha, hag, hbit⟩ h0
  eq := by
    rcases h.last_eq with e | ⟨h1, h64, ⟨-, hone⟩, h0⟩
    · exact .inl e
    · exact .inr ⟨h1, h64, h0, hone⟩

/-- Where an address comes before the walk's end, the walk chose 1 at their first difference. -/
theorem Walk.choose_of_before {c : Cursor} {as : List Addr} {q a : Addr} {z n : Nat} (h : Walk c as 1 0 0 q z)
    (ha : a ∈ as) (h1 : 1 ≤ n) (h64 : n ≤ 64) (hag : agreesBelow a q n = true) (h0 : rombit a n = false)
    (hq : rombit q n = true) : c.choose n = true := by
  rw [← h.choose n h1 h64 ⟨⟨a, ha, hag, h0⟩, q, h.mem, agreesBelow_iff.mpr fun _ _ _ => rfl, hq⟩, hq]

/-- From a Fresh cursor the walk ends at the first address (R184, R190). -/
theorem Walk.first {c : Cursor} (hc : c.sld = 0) {as : List Addr} {q : Addr} {z : Nat} (h : Walk c as 1 0 0 q z)
    {a : Addr} (ha : a ∈ as) : ¬Before a q := by
  rintro ⟨n, h1, h64, hag, h0, hq⟩
  have hch := h.choose_of_before ha h1 h64 hag h0 hq
  rw [Cursor.choose, if_neg (by omega), decide_eq_true_iff] at hch
  omega

/-- From the cursor a pass left at `p`, not Done, the walk ends after `p`. -/
theorem Walk.after {c : Cursor} {as : List Addr} {p q : Addr} {z : Nat} (hp : p ∈ as) (hpath : c.spath = p)
    (hlast : LastBranch as p c.sld) (hsld : c.sld ≠ 0) (h : Walk c as 1 0 0 q z) :
    agreesBelow q p c.sld = true ∧ rombit q c.sld = true ∧ rombit p c.sld = false := by
  obtain h0 | ⟨h1, h64, hp0, a, ha, hag, ha1⟩ := hlast.eq
  · exact absurd h0 hsld
  have hagree : ∀ j, 1 ≤ j → j ≤ c.sld → agreesBelow q p j = true := by
    intro j hj1
    induction j, hj1 using Nat.le_induction with
    | base => exact fun _ => agreesBelow_one q p
    | succ j hj1 ih =>
      intro hj
      have hag := ih (by omega)
      refine (agreesBelow_succ hj1).mpr ⟨hag, ?_⟩
      by_contra hne
      have hself : agreesBelow q q j = true := agreesBelow_iff.mpr fun _ _ _ => rfl
      have hbr : Branches as q j := by
        cases hq : rombit q j with
        | false =>
          have hpj : rombit p j = true := by simpa [hq] using hne
          exact ⟨⟨q, h.mem, hself, hq⟩, p, hp, agreesBelow_comm hag, hpj⟩
        | true =>
          have hpj : rombit p j = false := by simpa [hq] using hne
          exact ⟨⟨p, hp, agreesBelow_comm hag, hpj⟩, q, h.mem, hself, hq⟩
      have hch := h.choose j hj1 (by omega) hbr
      rw [Cursor.choose, if_pos (by omega), hpath] at hch
      exact hne hch
  have hz := hagree c.sld h1 (le_refl _)
  refine ⟨hz, ?_, hp0⟩
  have hbr : Branches as q c.sld :=
    ⟨⟨p, hp, agreesBelow_comm hz, hp0⟩, a, ha, agreesBelow_trans hag (agreesBelow_comm hz), ha1⟩
  rw [h.choose c.sld h1 h64 hbr, Cursor.choose, if_neg (lt_irrefl _), decide_eq_true_iff]

/-- And at the first address after it: no address is between (R190). -/
theorem Walk.next {c : Cursor} {as : List Addr} {p q : Addr} {z : Nat} (hp : p ∈ as) (hpath : c.spath = p)
    (hlast : LastBranch as p c.sld) (hsld : c.sld ≠ 0) (h : Walk c as 1 0 0 q z) :
    Before p q ∧ ∀ a ∈ as, Before p a → ¬Before a q := by
  obtain ⟨hag, hq1, hp0⟩ := h.after hp hpath hlast hsld
  obtain h0 | ⟨hz1, hz64, -⟩ := hlast.eq
  · exact absurd h0 hsld
  refine ⟨⟨c.sld, hz1, hz64, agreesBelow_comm hag, hp0, hq1⟩, ?_⟩
  rintro a ha ⟨m, hm1, hm64, hpa, hpm, ham⟩ ⟨n, hn1, hn64, haq, han, hqn⟩
  have hm : m ≤ c.sld := hlast.ge a ha m hm1 hm64 (agreesBelow_comm hpa) hpm ham
  have hch := h.choose_of_before ha hn1 hn64 haq han hqn
  have hn : n ≤ c.sld := by
    by_contra hgt
    rw [Cursor.choose, if_neg (by omega), decide_eq_true_iff] at hch
    omega
  rcases lt_trichotomy m n with hmn | rfl | hmn
  · have e1 : rombit a m = rombit q m := agreesBelow_iff.mp haq m hm1 hmn
    have e2 : rombit q m = rombit p m := agreesBelow_iff.mp hag m hm1 (by omega)
    rw [e1, e2, hpm] at ham
    exact Bool.false_ne_true ham
  · rw [ham] at han
    exact Bool.false_ne_true han.symm
  · have e1 : rombit p n = rombit a n := agreesBelow_iff.mp hpa n hn1 hmn
    rw [Cursor.choose, if_pos (by omega), hpath, e1, han] at hch
    exact Bool.false_ne_true hch

/-! ## SRCHNEXT on the reference bus -/

/-- After a completed SRCHNEXT on the reference bus at `as`: `q` was found, and SLD is its last branch. -/
structure Found (as : List Addr) (q : Addr) (t : State) : Prop where
  idle : t.engine.seq = .idle
  bus : t.bus.RefersTo as
  rom : t.regs.rom = q
  pres : t.regs.pres = true
  result : t.regs.result = if addrValid q then .ok else .crcError
  spath : t.regs.cursor.spath = q
  sdone : t.regs.cursor.sdone = decide (t.regs.cursor.sld = 0)
  last : LastBranch as q t.regs.cursor.sld

/-- SRCHNEXT from an Idle engine on a reference bus with a device, the search not Done. -/
theorem exec_srchnext_refers {s : State} {as : List Addr} (hs : s.engine.seq = .idle) (h : s.bus.RefersTo as)
    (hne : as ≠ []) (hc : s.regs.cursor.sdone = false) :
    ∃ t q, exec .srchnext s = .next t ∧ Found as q t ∧ Walk s.regs.cursor as 1 0 0 q t.regs.cursor.sld ∧
      t.line.slots = s.line.slots + 201 := by
  obtain ⟨q, z, hres, hwalk, hslots⟩ := searchPass_refers (s := s.accept 0x11) hc h hne
  have hbus := Bus.RefersTo.run (searchPass s.regs.cursor) (s := s.accept 0x11) h
  obtain ⟨t, hexec, hframe, hline, hb, hregs⟩ := exec_srchnext hs rfl
  rw [hres] at hregs
  have hcode : ((if addrValid q then ResultCode.ok else .crcError) = .ok) ∨
      (if addrValid q then ResultCode.ok else .crcError) = .crcError := by split <;> simp
  have hcur : t.regs.cursor = { sld := z, sdone := z == 0, spath := q } := by rw [hregs]
  refine ⟨t, q, hexec, ⟨hframe.idle, hb ▸ hbus, ?_, by rw [hregs]; rfl, by rw [hregs], by rw [hcur], by rw [hcur]; rfl,
    by rw [hcur]; exact hwalk.lastBranch⟩, by rw [hcur]; exact hwalk, by rw [hline]; exact hslots⟩
  rw [hregs]
  dsimp only
  rw [if_pos hcode, Option.getD_some]

theorem Bus.RefersTo.of_onReferenceBus {s : State} {ds : List Device} (h : s.onReferenceBus ds) :
    s.bus.RefersTo (ds.map Device.addr) :=
  ⟨h.1, h.2.1, by rw [h.2.2.1]⟩

/-- Settles O31: the walk over one address ends there, and nothing branches off from it. -/
theorem searchFindsALoneDevice : Obligations.SearchFindsALoneDevice := by
  intro s d hs h hsld hsdone
  obtain ⟨t, q, hexec, hfound, hwalk, hslots⟩ :=
    exec_srchnext_refers hs (Bus.RefersTo.of_onReferenceBus h) (by simp) hsdone
  obtain rfl : q = d.addr := by simpa using hwalk.mem
  have hz : t.regs.cursor.sld = 0 := by
    rcases hfound.last.eq with h0 | ⟨-, -, h0, a, ha, -, h1⟩
    · exact h0
    · obtain rfl : a = d.addr := by simpa using ha
      rw [h1] at h0
      exact absurd h0.symm Bool.false_ne_true
  have hcur : t.regs.cursor = { sld := 0, sdone := true, spath := d.addr } := by
    have hd := hfound.sdone
    have hp := hfound.spath
    cases hc : t.regs.cursor
    simp_all
  exact ⟨t, hexec, hfound.rom, hfound.pres, hcur, hfound.result, hslots⟩

theorem afterSearches_succ (s : State) (n : Nat) : afterSearches s (n + 1) = afterExec .srchnext (afterSearches s n) :=
  rfl

theorem afterExec_of_next {i : Instr} {s t : State} (h : exec i s = .next t) : afterExec i s = t := by
  simp only [afterExec, h]

/-- The addresses in K-order. -/
def inKOrder (as : List Addr) : List Addr := as.mergeSort fun a b => decide (kKey a ≤ kKey b)

theorem inKOrder_perm (as : List Addr) : (inKOrder as).Perm as := List.mergeSort_perm as _

theorem inKOrder_sorted {as : List Addr} (h : as.Nodup) : (inKOrder as).Pairwise fun a b => kKey a < kKey b := by
  have hle : (inKOrder as).Pairwise fun a b => kKey a ≤ kKey b := by
    have hsorted := List.pairwise_mergeSort (le := fun a b => decide (kKey a ≤ kKey b)) (by simp; omega)
      (by simp; omega) as
    simpa [inKOrder] using hsorted
  have hnd : (inKOrder as).Nodup := (inKOrder_perm as).nodup_iff.mpr h
  refine (hle.and hnd).imp fun ⟨h1, h2⟩ => lt_of_le_of_ne h1 fun e => h2 (kKey_injective e)

/-- In a sorted list the entries with smaller keys are those further to the front. -/
theorem lt_of_kKey_lt {l : List Addr} (hl : l.Pairwise fun a b => kKey a < kKey b) {i j : Nat} (hi : i < l.length)
    (hj : j < l.length) (h : kKey l[i] < kKey l[j]) : i < j := by
  by_contra hge
  rcases Nat.eq_or_lt_of_le (Nat.le_of_not_lt hge) with rfl | hlt
  · exact lt_irrefl _ h
  · exact absurd (List.pairwise_iff_getElem.mp hl j i hj hi hlt) h.asymm

/-- The `j`-th SRCHNEXT from Fresh finds the `j`-th address in K-order (R190). -/
theorem found_inKOrder {s : State} {as : List Addr} (hs : s.engine.seq = .idle) (h : s.bus.RefersTo as)
    (hnd : as.Nodup) (hsld : s.regs.cursor.sld = 0) (hsdone : s.regs.cursor.sdone = false) (j : Nat)
    (hj : j < (inKOrder as).length) :
    Found as (inKOrder as)[j] (afterSearches s (j + 1)) ∧
      (afterSearches s (j + 1)).line.slots = s.line.slots + 201 * (j + 1) := by
  have hsorted := inKOrder_sorted hnd
  have hmem : ∀ a, a ∈ inKOrder as ↔ a ∈ as := fun a => (inKOrder_perm as).mem_iff
  have hne : as ≠ [] := by
    rintro rfl
    have := (inKOrder_perm []).length_eq
    simp only [List.length_nil] at this
    omega
  induction j with
  | zero =>
    obtain ⟨t, q, hexec, hfound, hwalk, hslots⟩ := exec_srchnext_refers hs h hne hsdone
    have ht : afterSearches s 1 = t := afterExec_of_next hexec
    have hq : q = (inKOrder as)[0] := by
      obtain ⟨i, hi, rfl⟩ := List.mem_iff_getElem.mp ((hmem q).mpr hwalk.mem)
      rcases Nat.eq_zero_or_pos i with rfl | hpos
      · rfl
      · exact absurd (before_of_kKey_lt (List.pairwise_iff_getElem.mp hsorted 0 i hj hi hpos))
          (hwalk.first hsld ((hmem _).mp (List.getElem_mem hj)))
    rw [ht, ← hq]
    exact ⟨hfound, hslots⟩
  | succ j ih =>
    obtain ⟨hf, hsl⟩ := ih (by omega)
    set u := afterSearches s (j + 1) with hu
    set p := (inKOrder as)[j] with hp
    have hpmem : p ∈ as := (hmem p).mp (List.getElem_mem _)
    have hbefore : Before p (inKOrder as)[j + 1] :=
      before_of_kKey_lt (List.pairwise_iff_getElem.mp hsorted j (j + 1) (by omega) hj (Nat.lt_succ_self j))
    have hnext : (inKOrder as)[j + 1] ∈ as := (hmem _).mp (List.getElem_mem hj)
    have hz : u.regs.cursor.sld ≠ 0 := by
      obtain ⟨n, h1, h64, hag, h0, hb⟩ := hbefore
      have := hf.last.ge _ hnext n h1 h64 (agreesBelow_comm hag) h0 hb
      omega
    obtain ⟨t, q, hexec, hfound, hwalk, hslots⟩ :=
      exec_srchnext_refers hf.idle hf.bus hne (by rw [hf.sdone]; exact decide_eq_false hz)
    have ht : afterSearches s (j + 1 + 1) = t := afterExec_of_next hexec
    obtain ⟨hpq, hmin⟩ := hwalk.next hpmem hf.spath hf.last hz
    have hq : q = (inKOrder as)[j + 1] := by
      obtain ⟨i, hi, hiq⟩ := List.mem_iff_getElem.mp ((hmem q).mpr hwalk.mem)
      have hji : j < i := lt_of_kKey_lt hsorted (by omega) hi (by rw [hiq]; exact kKey_lt_of_before hpq)
      rcases Nat.eq_or_lt_of_le hji with rfl | hlt
      · exact hiq.symm
      · refine absurd ?_ (hmin _ hnext hbefore)
        rw [← hiq]
        exact before_of_kKey_lt (List.pairwise_iff_getElem.mp hsorted (j + 1) i hj hi hlt)
    rw [ht, ← hq]
    exact ⟨hfound, by rw [hslots, hsl]; omega⟩

/-- The search is Done exactly after the last address (R191). -/
theorem Found.sdone_iff {as : List Addr} (hnd : as.Nodup) {t : State} {j : Nat} (hj : j < (inKOrder as).length)
    (h : Found as (inKOrder as)[j] t) : t.regs.cursor.sdone = decide (j + 1 = (inKOrder as).length) := by
  have hsorted := inKOrder_sorted hnd
  have hmem : ∀ a, a ∈ inKOrder as ↔ a ∈ as := fun a => (inKOrder_perm as).mem_iff
  rw [h.sdone, decide_eq_decide]
  constructor
  · intro hz
    by_contra hne
    have hlt : j + 1 < (inKOrder as).length := by omega
    obtain ⟨n, h1, h64, hag, h0, hb⟩ :=
      before_of_kKey_lt (List.pairwise_iff_getElem.mp hsorted j (j + 1) hj hlt (Nat.lt_succ_self j))
    have := h.last.ge _ ((hmem _).mp (List.getElem_mem hlt)) n h1 h64 (agreesBelow_comm hag) h0 hb
    omega
  · intro hlen
    rcases h.last.eq with hz | ⟨h1, h64, h0, a, ha, hag, hb⟩
    · exact hz
    · obtain ⟨i, hi, rfl⟩ := List.mem_iff_getElem.mp ((hmem a).mpr ha)
      have hji := lt_of_kKey_lt hsorted hj hi (kKey_lt_of_before ⟨_, h1, h64, agreesBelow_comm hag, h0, hb⟩)
      omega

/-- Settles O30. -/
theorem searchEnumeratesEveryDeviceInKOrder : Obligations.SearchEnumeratesEveryDeviceInKOrder := by
  intro s ds hs h hne hsld hsdone
  have hnd : (ds.map Device.addr).Nodup := h.2.2.2
  have hfound := found_inKOrder hs (Bus.RefersTo.of_onReferenceBus h) hnd hsld hsdone
  have hlen : (inKOrder (ds.map Device.addr)).length = ds.length := by
    rw [(inKOrder_perm _).length_eq, List.length_map]
  have hpos : 0 < ds.length := List.length_pos_iff.mpr hne
  obtain ⟨n, hn⟩ : ∃ n, (inKOrder (ds.map Device.addr)).length = n + 1 := ⟨ds.length - 1, by omega⟩
  obtain ⟨hlast, hslots⟩ := hfound n (by omega)
  refine ⟨inKOrder (ds.map Device.addr), inKOrder_perm _, inKOrder_sorted hnd, fun j a hja => ?each, ?exhausted, ?slots⟩
  case each =>
    obtain ⟨hj, rfl⟩ := List.getElem?_eq_some_iff.mp hja
    obtain ⟨hf, -⟩ := hfound j hj
    exact ⟨hf.rom, hf.result, hf.sdone_iff hnd hj⟩
  case exhausted =>
    rw [hn, afterSearches_succ]
    have hd : (afterSearches s (n + 1)).regs.cursor.sdone = true := by
      rw [hlast.sdone_iff hnd (by omega), hn]; simp
    obtain ⟨t, ht, -, hregs⟩ := srchnextFromDoneSendsNothing _ hlast.idle hd
    rw [afterExec_of_next ht, hregs]
  case slots => rw [hn]; exact hslots

end Sys2Proof.Machine

/-! ENUM: its passes are those of SRCHNEXT commands from a Fresh cursor, and what it keeps of them (42_search.md
R195-R199). -/

namespace Sys2Proof.Machine

/-! ## States with the same line -/

/-- All that the samples of a procedure's slots depend on. -/
structure SameLine (u v : State) : Prop where
  params : u.params = v.params
  line : u.line = v.line
  bus : u.bus = v.bus

theorem SameLine.resetSlot {u v : State} (h : SameLine u v) :
    u.resetSlot.1 = v.resetSlot.1 ∧ SameLine u.resetSlot.2 v.resetSlot.2 := by
  obtain ⟨hp, hl, hb⟩ := h
  have hs : u.resetSlot.1 = v.resetSlot.1 := by rw [resetSlot_samples, resetSlot_samples, hb]
  refine ⟨hs, by simpa using hp, ?_, by rw [resetSlot_bus, resetSlot_bus, hb]⟩
  simp [State.resetSlot, State.level, hp, hl, hb]

theorem SameLine.bitSlot {u v : State} (h : SameLine u v) (o : Bool) :
    (u.bitSlot o).1 = (v.bitSlot o).1 ∧ SameLine (u.bitSlot o).2 (v.bitSlot o).2 := by
  obtain ⟨hp, hl, hb⟩ := h
  cases o with
  | false =>
    refine ⟨by rw [bitSlot_zero, bitSlot_zero], by simpa using hp, ?_, by rw [bitSlot_zero_bus, bitSlot_zero_bus, hb]⟩
    simp [State.bitSlot, State.level, hp, hl]
  | true =>
    refine ⟨by rw [bitSlot_one, bitSlot_one, hb], by simpa using hp, ?_, by rw [bitSlot_one_bus, bitSlot_one_bus, hb]⟩
    simp [State.bitSlot, State.level, hp, hl, hb]

/-- A procedure does the same on the same line. -/
theorem SameLine.run {α : Type} (p : Proc α) {u v : State} (h : SameLine u v) :
    (p.run u).1 = (p.run v).1 ∧ SameLine (p.run u).2 (p.run v).2 := by
  induction p generalizing u v with
  | done a => exact ⟨rfl, h⟩
  | reset k ih =>
    obtain ⟨hs, h'⟩ := h.resetSlot
    rw [Proc.run_reset, Proc.run_reset, hs]
    exact ih _ _ h'
  | bit o k ih =>
    obtain ⟨hs, h'⟩ := h.bitSlot o
    rw [Proc.run_bit, Proc.run_bit, hs]
    exact ih _ h'

/-! ## The passes of ENUM -/

/-- A pass that is not Done completes, or fails in one of three ways (R183, R186, R189). -/
theorem PassEnds.completes_or_fails {c : Cursor} {s u : State} {res : PassResult} (h : PassEnds c s res u)
    (hc : c.sdone = false) :
    (∃ path, res.addr = some path ∧ res.code = (if addrValid path then .ok else .crcError) ∧ res.pres = some true) ∨
      (res.code ∈ [.noPresence, .lineStuck, .searchDataError] ∧
        res.pres = some (decide (res.code = .searchDataError))) := by
  cases h with
  | exhausted hd => rw [hc] at hd; exact absurd hd Bool.false_ne_true
  | failed => right; dsimp only; split <;> decide
  | dataError => right; exact ⟨by simp, rfl⟩
  | completed => left; exact ⟨_, rfl, rfl, rfl⟩

theorem PassEnds.slots_le {c : Cursor} {s u : State} {res : PassResult} (h : PassEnds c s res u) :
    u.line.slots ≤ s.line.slots + 201 := by
  cases h with
  | exhausted => exact Nat.le_add_right _ _
  | failed => rw [resetSlot_slots]; omega
  | dataError _ hk _ _ _ hslots => omega
  | completed _ _ hslots => exact hslots.le

theorem passFails_iff (code : ResultCode) :
    passFails code = true ↔ code ∈ [.noPresence, .lineStuck, .searchDataError] := by
  cases code <;> decide

/-- The entries a pass adds: its address if the filter keeps it. -/
def keptOf (keep : PassResult → Option (Fin 4 × Addr)) (res : PassResult) : List Addr :=
  ((keep res).map Prod.snd).toList

/-- ENUM ends now: the pass walked the whole bus, or its address filled the directory (R195, R197). -/
def EnumStops (p : Params) (kept found : List Addr) (c : Cursor) : Prop :=
  (kept ≠ [] ∧ (found ++ kept).length = p.maxDevices) ∨ c.sdone = true

section
variable {p : Params} {keep : PassResult → Option (Fin 4 × Addr)} {m : Nat} {c : Cursor} {pres : Option Bool}
  {found : List Addr} {counts : Vector Byte 4} {u u' : State} {res : PassResult}

/-- A failing pass fails ENUM (R198). -/
theorem enumLoop_run_of_fails (hrun : (searchPass c).run u = (res, u')) (hf : passFails res.code = true) :
    (enumLoop p keep (m + 1) c pres found counts).run u = (enumFail res.code res.cursor res.pres, u') := by
  rw [enumLoop, Proc.run_bind, hrun, if_pos hf, Proc.run_done]

/-- A completed pass ends ENUM or not. -/
theorem enumLoop_run_of_completes (hrun : (searchPass c).run u = (res, u')) (hf : passFails res.code = false) :
    ∃ counts', (EnumStops p (keptOf keep res) found res.cursor →
        (enumLoop p keep (m + 1) c pres found counts).run u =
          (enumDone p res.cursor res.pres (found ++ keptOf keep res) counts', u')) ∧
      (¬EnumStops p (keptOf keep res) found res.cursor →
        (enumLoop p keep (m + 1) c pres found counts).run u =
          (enumLoop p keep m res.cursor res.pres (found ++ keptOf keep res) counts').run u') := by
  have hne : ¬passFails res.code = true := by rw [hf]; exact Bool.false_ne_true
  rw [enumLoop, Proc.run_bind, hrun, if_neg hne]
  cases hk : keep res with
  | none =>
    have hkept : keptOf keep res = [] := by rw [keptOf, hk]; rfl
    rw [hkept, List.append_nil]
    have hiff : EnumStops p [] found res.cursor ↔ res.cursor.sdone = true := by simp [EnumStops]
    refine ⟨counts, fun hs => ?_, fun hs => ?_⟩
    · simp only [if_pos (hiff.mp hs), Proc.run_done]
    · simp only [if_neg (mt hiff.mpr hs)]
  | some ia =>
    obtain ⟨i, a⟩ := ia
    have hkept : keptOf keep res = [a] := by rw [keptOf, hk]; rfl
    rw [hkept]
    have hiff : EnumStops p [a] found res.cursor ↔ found.length + 1 = p.maxDevices ∨ res.cursor.sdone = true := by
      simp [EnumStops]
    refine ⟨countFamily counts i, fun hs => ?_, fun hs => ?_⟩
    · simp only [if_pos (hiff.mp hs), Proc.run_done]
    · simp only [if_neg (mt hiff.mpr hs)]

end

/-! ## The codes and the slots of ENUM -/

/-- The two ways ENUM ends: with a directory, or with a failure. -/
inductive EnumResult (p : Params) : Staged → Prop
  | done (c : Cursor) (pres : Option Bool) (found : List Addr) (counts : Vector Byte 4) :
    EnumResult p (enumDone p c pres found counts)
  | fail {code : ResultCode} (c : Cursor) (pres : Option Bool)
    (h : code ∈ [.noPresence, .lineStuck, .searchDataError, .passLimit]) : EnumResult p (enumFail code c pres)

/-- With `m` passes left ENUM makes at most 201 slots for each. -/
theorem enumLoop_run (p : Params) (keep : PassResult → Option (Fin 4 × Addr)) (m : Nat) (c : Cursor)
    (hc : c.sdone = false) (pres : Option Bool) (found : List Addr) (counts : Vector Byte 4) (u : State) :
    EnumResult p ((enumLoop p keep m c pres found counts).run u).1 ∧
      ((enumLoop p keep m c pres found counts).run u).2.line.slots ≤ u.line.slots + 201 * m := by
  induction m generalizing c pres found counts u with
  | zero => exact ⟨.fail c pres (by decide), le_refl _⟩
  | succ m ih =>
    have hends := searchPass_ends c u
    obtain ⟨⟨res, u'⟩, hrun⟩ : ∃ r, (searchPass c).run u = r := ⟨_, rfl⟩
    rw [hrun] at hends
    have hslots : u'.line.slots ≤ u.line.slots + 201 := hends.slots_le
    cases hf : passFails res.code with
    | true =>
      rw [enumLoop_run_of_fails hrun hf]
      have hcode := (passFails_iff _).mp hf
      refine ⟨.fail _ _ ?_, by dsimp only; omega⟩
      simp only [List.mem_cons, List.not_mem_nil, or_false] at hcode ⊢
      tauto
    | false =>
      obtain ⟨counts', hstop, hgo⟩ :=
        enumLoop_run_of_completes (p := p) (keep := keep) (m := m) (pres := pres) (found := found) (counts := counts)
          hrun hf
      by_cases hs : EnumStops p (keptOf keep res) found res.cursor
      · rw [hstop hs]
        exact ⟨.done _ _ _ _, by dsimp only; omega⟩
      · rw [hgo hs]
        obtain ⟨hres, hle⟩ := ih res.cursor (by simpa using fun h => hs (.inr h)) res.pres (found ++ keptOf keep res)
          counts' u'
        exact ⟨hres, by omega⟩

/-- ENUM from an Idle engine, whatever the parameters. -/
theorem exec_enum {s : State} (hs : s.engine.seq = .idle) :
    ∃ t st, exec .enum s = .next t ∧ AfterCommand s t ∧ t.regs = (s.regs.accept 0x12).commit st ∧
      EnumResult s.params st ∧ t.line.slots ≤ s.line.slots + 201 * s.params.enumPassLimit := by
  obtain ⟨t, hexec, hframe, hregs, hline, -⟩ := exec_cmd8_idle (i := .enum) rfl hs rfl
  obtain ⟨hres, hslots⟩ := enumLoop_run s.params (keptSlot (s.regs.accept 0x12)) s.params.enumPassLimit
    s.regs.cursor.fresh rfl none [] (Vector.replicate 4 0) (s.accept 0x12)
  exact ⟨t, _, hexec, hframe, hregs, hres, by rw [hline]; exact hslots⟩

/-- The registers after an ENUM that completes. -/
theorem commit_enumDone (r : Regs) (p : Params) (c : Cursor) (pres : Option Bool) (found : List Addr)
    (counts : Vector Byte 4) :
    r.commit (enumDone p c pres found counts) =
      { r with
        result := .ok, done := true, pres := pres.getD r.pres, cursor := c, dir := found ++ r.dir.drop found.length
        dirCnt := BitVec.ofNat 8 found.length, fcnt := counts, cap := capFlag p found.length } := rfl

/-- The registers after an ENUM that fails. -/
theorem commit_enumFail (r : Regs) (code : ResultCode) (c : Cursor) (pres : Option Bool) :
    r.commit (enumFail code c pres) =
      { r with
        result := code, done := true, pres := pres.getD r.pres, cursor := c.fresh, dirCnt := 0
        fcnt := Vector.replicate 4 0, cap := false } := rfl

/-- Settles O32. -/
theorem enumCompletesWithinItsPassLimit : Obligations.EnumCompletesWithinItsPassLimit := by
  intro s hs
  obtain ⟨t, st, hexec, hframe, hregs, hres, hslots⟩ := exec_enum hs
  refine ⟨t, hexec, hframe, ?codes, ?frame, hslots⟩
  case codes =>
    rw [hregs]
    cases hres with
    | done => exact List.mem_cons_self
    | fail _ _ h => exact List.mem_cons_of_mem _ h
  case frame =>
    cases hres with
    | done => rw [hregs, commit_enumDone]; rfl
    | fail => rw [hregs, commit_enumFail]; rfl

/-! ## ENUM's passes as SRCHNEXT commands -/

/-- The state after the first `n` passes as SRCHNEXT commands make them. -/
abbrev passesOf (s : State) (n : Nat) : State := afterSearches s.fromFresh n

/-- One more SRCHNEXT makes the pass ENUM makes. -/
theorem passesOf_succ {s u u' : State} {n : Nat} {res : PassResult} (hsame : SameLine u (passesOf s n))
    (hidle : (passesOf s n).engine.seq = .idle) (hrun : (searchPass (passesOf s n).regs.cursor).run u = (res, u')) :
    SameLine u' (passesOf s (n + 1)) ∧ (passesOf s (n + 1)).engine.seq = .idle ∧
      (passesOf s (n + 1)).regs = { (passesOf s n).regs with
        cmd := 0x11, done := true, result := res.code, pres := res.pres.getD (passesOf s n).regs.pres
        cursor := res.cursor
        rom := (if res.code = .ok ∨ res.code = .crcError then res.addr else none).getD (passesOf s n).regs.rom } := by
  have hacc : SameLine u ((passesOf s n).accept 0x11) := ⟨hsame.params, hsame.line, hsame.bus⟩
  obtain ⟨hres, hsame'⟩ := hacc.run (searchPass (passesOf s n).regs.cursor)
  rw [hrun] at hres hsame'
  obtain ⟨t, hexec, hframe, hline, hbus, hregs⟩ := exec_srchnext hidle
    (u := ((searchPass (passesOf s n).regs.cursor).run ((passesOf s n).accept 0x11)).2) (Prod.ext hres.symm rfl)
  have ht : passesOf s (n + 1) = t := afterExec_of_next hexec
  rw [ht]
  refine ⟨⟨?_, by rw [hline]; exact hsame'.line, by rw [hbus]; exact hsame'.bus⟩, hframe.idle, hregs⟩
  rw [hframe.params]
  exact hsame'.params.trans (by simp)

theorem keptAfter_succ (s : State) (n : Nat) :
    keptAfter s (n + 1) = keptAfter s n ++
      if (passesOf s (n + 1)).regs.result = .ok ∧ (s.regs.famSlot (byteOf (passesOf s (n + 1)).regs.rom 0)).isSome = true
      then [(passesOf s (n + 1)).regs.rom] else [] := by
  rw [keptAfter, List.range_succ, List.filterMap_append]
  congr 1
  rw [List.filterMap_cons, List.filterMap_nil]
  by_cases h : (passesOf s (n + 1)).regs.result = .ok ∧
      (s.regs.famSlot (byteOf (passesOf s (n + 1)).regs.rom 0)).isSome = true
  · simp only [if_pos h]
  · simp only [if_neg h]

/-- A completed pass adds to the directory what its SRCHNEXT adds to the kept addresses (R196). -/
theorem keptAfter_succ_of_completes {s : State} {n : Nat} {res : PassResult} {path : Addr}
    (haddr : res.addr = some path) (hcode : res.code = if addrValid path then .ok else .crcError)
    (hresult : (passesOf s (n + 1)).regs.result = res.code) (hrom : (passesOf s (n + 1)).regs.rom = path) :
    keptAfter s (n + 1) = keptAfter s n ++ keptOf (keptSlot (s.regs.accept 0x12)) res := by
  rw [keptAfter_succ, hresult, hrom, keptOf]
  congr 1
  cases hv : addrValid path with
  | false =>
    have hcrc : res.code = .crcError := by rw [hcode, hv]; rfl
    rw [if_neg (by rw [hcrc]; simp), keptSlot, hcrc, haddr]
    rfl
  | true =>
    have hok : res.code = .ok := by rw [hcode, hv]; rfl
    rw [keptSlot, hok, haddr]
    change _ = (((s.regs.famSlot (byteOf path 0)).map fun i => (i, path)).map Prod.snd).toList
    cases s.regs.famSlot (byteOf path 0) <;> rfl

theorem enumGoesOn_zero (s : State) : EnumGoesOn s 0 := fun k h1 h0 => absurd h1 (by omega)

theorem EnumGoesOn.succ {s : State} {n : Nat} (h : EnumGoesOn s n)
    (hresult : (passesOf s (n + 1)).regs.result ∈ [.ok, .crcError])
    (hsdone : (passesOf s (n + 1)).regs.cursor.sdone = false)
    (hlen : (keptAfter s (n + 1)).length ≠ s.params.maxDevices) :
    EnumGoesOn s (n + 1) := by
  intro k h1 hk
  rcases Nat.le_succ_iff.mp hk with hle | rfl
  · exact h k h1 hle
  · exact ⟨hresult, hsdone, hlen⟩

/-- ENUM's loop after `n` passes: the line and the cursor are those of `n` SRCHNEXT commands, and the entries what they
kept. -/
structure EnumAt (s : State) (n : Nat) (u : State) (c : Cursor) (pres : Option Bool) (found : List Addr) : Prop where
  same : SameLine u (passesOf s n)
  idle : (passesOf s n).engine.seq = .idle
  cursor : (passesOf s n).regs.cursor = c
  sdone : c.sdone = false
  goesOn : EnumGoesOn s n
  found : found = keptAfter s n
  pres : 0 < n → pres = some true ∧ (passesOf s n).regs.pres = true

/-- Before the first pass. -/
theorem EnumAt.zero {s : State} (hs : s.engine.seq = .idle) :
    EnumAt s 0 (s.accept 0x12) s.regs.cursor.fresh none [] :=
  ⟨⟨rfl, rfl, rfl⟩, hs, rfl, rfl, enumGoesOn_zero s, rfl, fun h => absurd h (lt_irrefl 0)⟩

/-- How ENUM ends, in terms of the SRCHNEXT commands that make its passes (R195, R197, R198). -/
inductive EnumEnds (s : State) : Staged → State → Prop
  /-- the pass walked the whole bus or filled the directory -/
  | done {n : Nat} {u : State} (counts : Vector Byte 4) (hn : n < s.params.enumPassLimit) (hgo : EnumGoesOn s n)
    (hresult : (passesOf s (n + 1)).regs.result ∈ [.ok, .crcError])
    (hend : (passesOf s (n + 1)).regs.cursor.sdone = true ∨ (keptAfter s (n + 1)).length = s.params.maxDevices)
    (hsame : SameLine u (passesOf s (n + 1))) :
    EnumEnds s (enumDone s.params (passesOf s (n + 1)).regs.cursor (some true) (keptAfter s (n + 1)) counts) u
  /-- the pass failed -/
  | fail {n : Nat} {u : State} {code : ResultCode} (c : Cursor) (hn : n < s.params.enumPassLimit) (hgo : EnumGoesOn s n)
    (hcode : code ∈ [.noPresence, .lineStuck, .searchDataError]) (hresult : (passesOf s (n + 1)).regs.result = code)
    (hpres : (passesOf s (n + 1)).regs.pres = decide (code = .searchDataError))
    (hsame : SameLine u (passesOf s (n + 1))) :
    EnumEnds s (enumFail code c (some (decide (code = .searchDataError)))) u
  /-- no pass is left -/
  | limit {u : State} (c : Cursor) (hgo : EnumGoesOn s s.params.enumPassLimit)
    (hpres : (passesOf s s.params.enumPassLimit).regs.pres = true)
    (hsame : SameLine u (passesOf s s.params.enumPassLimit)) :
    EnumEnds s (enumFail .passLimit c (some true)) u

/-- Fewer entries than the cap allows: ENUM went on. -/
theorem EnumGoesOn.length_ne {s : State} {n : Nat} (h : EnumGoesOn s n) (hmax : 1 ≤ s.params.maxDevices) :
    (keptAfter s n).length ≠ s.params.maxDevices := by
  rcases Nat.eq_zero_or_pos n with rfl | hpos
  · exact Nat.ne_of_lt hmax
  · exact (h n hpos (le_refl n)).2.2

/-- The loop from any pass on. -/
theorem EnumAt.ends {s : State} (hmax : 1 ≤ s.params.maxDevices) (hlim : 1 ≤ s.params.enumPassLimit) (m : Nat) {n : Nat}
    (hm : n + m = s.params.enumPassLimit) {u : State} {c : Cursor} {pres : Option Bool} {found : List Addr}
    (h : EnumAt s n u c pres found) (counts : Vector Byte 4) :
    EnumEnds s ((enumLoop s.params (keptSlot (s.regs.accept 0x12)) m c pres found counts).run u).1
      ((enumLoop s.params (keptSlot (s.regs.accept 0x12)) m c pres found counts).run u).2 := by
  induction m generalizing n u c pres found counts with
  | zero =>
    obtain rfl : n = s.params.enumPassLimit := hm
    obtain ⟨hpres, hp⟩ := h.pres hlim
    rw [hpres]
    exact .limit c h.goesOn hp h.same
  | succ m ih =>
    obtain ⟨hsame, hidle, rfl, hsdone, hgo, rfl, -⟩ := h
    have hends := searchPass_ends (passesOf s n).regs.cursor u
    obtain ⟨⟨res, u'⟩, hrun⟩ : ∃ r, (searchPass (passesOf s n).regs.cursor).run u = r := ⟨_, rfl⟩
    rw [hrun] at hends
    obtain ⟨hsame', hidle', hregs⟩ := passesOf_succ hsame hidle hrun
    have hresult : (passesOf s (n + 1)).regs.result = res.code := by rw [hregs]
    have hcursor : (passesOf s (n + 1)).regs.cursor = res.cursor := by rw [hregs]
    have hpres' : (passesOf s (n + 1)).regs.pres = res.pres.getD (passesOf s n).regs.pres := by rw [hregs]
    rcases hends.completes_or_fails hsdone with ⟨path, haddr, hcode, hpres⟩ | ⟨hcode, hpres⟩
    · dsimp only at haddr hcode hpres
      have hmem : res.code = .ok ∨ res.code = .crcError := by rw [hcode]; split <;> simp
      have hf : passFails res.code = false := by rcases hmem with e | e <;> rw [e] <;> rfl
      have hrom : (passesOf s (n + 1)).regs.rom = path := by rw [hregs, haddr]; simp [hmem]
      have hkept := keptAfter_succ_of_completes haddr hcode hresult hrom
      have hcompleted : (passesOf s (n + 1)).regs.result ∈ [ResultCode.ok, .crcError] := by
        rw [hresult]; simpa using hmem
      obtain ⟨counts', hstop, hcont⟩ := enumLoop_run_of_completes (p := s.params) (m := m) (pres := pres)
        (keep := keptSlot (s.regs.accept 0x12)) (found := keptAfter s n) (counts := counts) hrun hf
      rw [← hkept, ← hcursor, hpres] at hstop hcont
      by_cases hs : EnumStops s.params (keptOf (keptSlot (s.regs.accept 0x12)) res) (keptAfter s n)
          (passesOf s (n + 1)).regs.cursor
      · rw [hstop hs]
        refine .done counts' (by omega) hgo hcompleted ?_ hsame'
        rcases hs with ⟨-, hlen⟩ | hd
        · exact .inr (by rw [hkept, hlen])
        · exact .inl hd
      · rw [hcont hs]
        have hlen : (keptAfter s (n + 1)).length ≠ s.params.maxDevices := by
          intro e
          cases hk : keptOf (keptSlot (s.regs.accept 0x12)) res with
          | nil => rw [hkept, hk, List.append_nil] at e; exact hgo.length_ne hmax e
          | cons a l => exact hs (.inl ⟨by rw [hk]; simp, by rw [← hkept, e]⟩)
        have hsdone' : (passesOf s (n + 1)).regs.cursor.sdone = false := by simpa using fun h => hs (.inr h)
        exact ih (by omega) ⟨hsame', hidle', rfl, hsdone', hgo.succ hcompleted hsdone' hlen, rfl,
          fun _ => ⟨rfl, by rw [hpres', hpres]; rfl⟩⟩ counts'
    · dsimp only at hcode hpres
      rw [enumLoop_run_of_fails hrun ((passFails_iff _).mpr hcode), hpres]
      exact .fail res.cursor (by omega) hgo hcode hresult (by rw [hpres', hpres]; rfl) hsame'

theorem Params.wf_limits {p : Params} (h : p.wf = true) :
    1 ≤ p.maxDevices ∧ p.maxDevices ≤ 255 ∧ 1 ≤ p.enumPassLimit := by
  simp only [Params.wf, Params.maxDevicesOk, Params.passLimitOk, Bool.and_eq_true, decide_eq_true_eq] at h
  omega

/-- ENUM from an Idle engine with admissible parameters: how it ends, and what it stages. -/
theorem exec_enum_ends {s t : State} (hwf : s.params.wf = true) (hs : s.engine.seq = .idle)
    (ht : exec .enum s = .next t) :
    ∃ st u, EnumEnds s st u ∧ EnumSound s.params (s.regs.accept 0x12) st ∧ t.regs = (s.regs.accept 0x12).commit st ∧
      t.line = u.line ∧ t.bus = u.bus := by
  obtain ⟨hmax, hmax', hlim⟩ := Params.wf_limits hwf
  obtain ⟨t', hexec, -, hregs, hline, hbus⟩ := exec_cmd8_idle (i := .enum) rfl hs rfl
  cases ht.symm.trans hexec
  exact ⟨_, _, (EnumAt.zero hs).ends hmax hlim s.params.enumPassLimit (Nat.zero_add _) (Vector.replicate 4 0),
    (procEnum_all s.params (s.regs.accept 0x12) hmax hmax').run _, hregs, hline, hbus⟩

/-- Settles O33: ENUM ended with the directory its passes filled, the entries counted as they were found. -/
theorem enumKeepsListedFamiliesAndCountsThem : Obligations.EnumKeepsListedFamiliesAndCountsThem := by
  intro s t hwf hs ht hok
  obtain ⟨-, hmax, -⟩ := Params.wf_limits hwf
  obtain ⟨st, u, hends, hsound, hregs, hline, hbus⟩ := exec_enum_ends hwf hs ht
  cases hends with
  | fail c _ _ hcode =>
    rw [hregs, commit_enumFail] at hok
    obtain rfl := hok
    exact absurd hcode (by decide)
  | limit => rw [hregs, commit_enumFail] at hok; cases hok
  | @done n _ counts hn hgo hresult hend hsame =>
    obtain ⟨found, counts', hfound, e1, -, e2, -⟩ := hsound.done rfl
    obtain rfl : keptAfter s (n + 1) = found := Option.some.inj e1
    obtain rfl : counts = counts' := Option.some.inj e2
    rw [commit_enumDone] at hregs
    have hlen : (BitVec.ofNat 8 (keptAfter s (n + 1)).length).toNat = (keptAfter s (n + 1)).length := by
      rw [BitVec.toNat_ofNat]
      exact Nat.mod_eq_of_lt (by have := hfound.le; omega)
    rw [hregs]
    dsimp only [Option.getD_some]
    rw [hlen, List.take_left' rfl, hline, hbus]
    refine ⟨hfound.le, by rw [List.length_append]; omega, fun a ha => ⟨?_, hfound.kept a ha⟩, hfound.count, ?_, ?_, rfl,
      n, hn, hgo, hresult, hend, rfl, rfl, hsame.line, hsame.bus⟩
    · simpa [addrValid] using hfound.valid a ha
    · simp [capFlag]; rfl
    · intro hcap
      exact hend.resolve_right (by simpa [capFlag] using hcap)

/-- Settles O34: a failed ENUM ended with a failing pass or with its last. -/
theorem failedEnumKeepsNothing : Obligations.FailedEnumKeepsNothing := by
  intro s t hs ht hne
  have hframe : t.regs.dirCnt = 0 ∧ t.regs.fcnt = Vector.replicate 4 0 ∧ t.regs.cap = false ∧ t.regs.cursor.sld = 0 ∧
      t.regs.cursor.sdone = false ∧ t.regs.dir = s.regs.dir := by
    obtain ⟨t', st, hexec, -, hregs, hres, -⟩ := exec_enum hs
    cases ht.symm.trans hexec
    rw [hregs] at hne ⊢
    cases hres with
    | done => exact absurd rfl hne
    | fail => exact ⟨rfl, rfl, rfl, rfl, rfl, rfl⟩
  obtain ⟨h1, h2, h3, h4, h5, h6⟩ := hframe
  refine ⟨h1, h2, h3, h4, h5, h6, fun hwf => ?_⟩
  obtain ⟨st, u, hends, -, hregs, hline, -⟩ := exec_enum_ends hwf hs ht
  rw [hline, hregs]
  rw [hregs] at hne
  cases hends with
  | done => exact absurd rfl hne
  | @fail n _ code c hn hgo hcode hresult hpres hsame =>
    have hnl : code ≠ .passLimit := by rintro rfl; exact absurd hcode (by decide)
    simp only [commit_enumFail, Option.getD_some, hnl, or_false, if_false, true_and]
    exact ⟨n, hn, hgo, hresult, hpres.symm, hsame.line⟩
  | limit c hgo hpres hsame =>
    simp only [commit_enumFail, Option.getD_some, or_true, decide_true, if_true, true_and]
    exact ⟨hgo, hpres.symm, hsame.line⟩

end Sys2Proof.Machine
